-- ==== Sys2Proof/Word.lean ====
section
/-! DEFINITION. The register word, the byte, and the binary64 number with its bit layout (00_scope.md R7, R8;
30_encoding.md R81). Arithmetic on numbers is in Machine/Float.lean. -/

namespace Sys2Proof

/-- A register (R7): 64 raw bits. -/
abbrev Word := BitVec 64

/-- A byte on the host bus (R61). -/
abbrev Byte := BitVec 8

/-- `0x7FF0000000000000`, the bit pattern of `+inf`. Finite magnitudes are the patterns below it. -/
abbrev infCode : Nat := 9218868437227405312

/-- `2^52 - 1`, the number of NaN fractions of one sign. -/
abbrev nanCount : Nat := 4503599627370495

/-- Sign and payload of a NaN. Payload `p` is the fraction field `p + 1`. -/
structure NanBits where
  sign    : Bool
  payload : Fin nanCount
  deriving DecidableEq, Repr

/-- An IEEE 754 binary64 value (R7, R81), one constructor per class. Each of the `2^64` bit patterns is exactly one
value: `fin s m` is the pattern with sign `s` and exponent-and-fraction field `m`, zeros and subnormals included. -/
inductive F64 where
  | nan (b : NanBits)
  | inf (sign : Bool)
  | fin (sign : Bool) (mag : Fin infCode)
  deriving DecidableEq, Repr

namespace F64

/-- Bits `[62:0]` of the pattern. -/
def code : F64 → Nat
  | .nan b => infCode + 1 + b.payload.val
  | .inf _ => infCode
  | .fin _ m => m.val

/-- Bit 63 of the pattern. -/
def signBit : F64 → Bool
  | .nan b => b.sign
  | .inf s => s
  | .fin s _ => s

/-- The pattern with sign bit `s` and bits `[62:0]` equal to `c`. -/
def pattern (s : Bool) (c : Nat) : Word := BitVec.ofNat 64 (s.toNat * 9223372036854775808 + c)

/-- The 64-bit pattern of a value (R81). -/
def toBits : F64 → Word
  | .nan b => pattern b.sign (infCode + 1 + b.payload.val)
  | .inf s => pattern s infCode
  | .fin s m => pattern s m.val

/-- The value of a sign and a 63-bit field. -/
def ofCode (s : Bool) (m : Nat) : F64 :=
  if h : m < infCode then .fin s ⟨m, h⟩
  else if m = infCode then .inf s
  else .nan ⟨s, ⟨(m - infCode - 1) % nanCount, Nat.mod_lt _ (by decide)⟩⟩

/-- The value of a 64-bit pattern (R81). -/
def ofBits (w : Word) : F64 :=
  ofCode (decide (9223372036854775808 ≤ w.toNat)) (w.toNat % 9223372036854775808)

/-- `+0.0`. -/
def zero : F64 := .fin false ⟨0, by decide⟩

/-- `-0.0`. -/
def negZero : F64 := .fin true ⟨0, by decide⟩

end F64

end Sys2Proof
end

