-- ==== Sys2Proof/Syntax.lean ====
section
/-! DEFINITION. Names and terms: unit types, variants, error codes, opcodes, the 32 commands of
spec/opcode_table.json, register names, host events, assembler lines and pseudo-instructions. -/

namespace Sys2Proof

/-- Unit types (00_scope.md R2). -/
inductive UnitType where
  | fdl | iir | rev
  deriving DecidableEq, Repr

/-- Delay-line variants (41_delay_line.md R120). -/
inductive FdlVariant where
  | fixed | allpass | linear
  deriving DecidableEq, Repr

/-- Filter variants (42_iir_filter.md R170). -/
inductive IirVariant where
  | lpf | hpf | bpf | brf | rlpf | rhpf | resonz | biquad
  deriving DecidableEq, Repr

/-- Reverberator topologies (43_reverberator.md R220). -/
inductive RevTopology where
  | a | b | c
  deriving DecidableEq, Repr

/-- Error codes (60_exceptions.md R263): the only values ERRCODE ever holds. -/
inductive ErrCode where
  | noError
  | illegalOpcode | reservedBits | badVariant | notConfigured | wrongVariant
  | cfgMaxDelay | cfgRam | cfgDelayNan | cfgSampleRate | cfgT60 | cfgDesign
  | domainDelayNan | domainMixNan | domainDesign
  deriving DecidableEq, Repr

/-- Opcodes (30_encoding.md R83), the OP field's named values. -/
inductive Opcode where
  | nop
  | fdlConfig | fdlSetDelay | fdlClear | fdlTick | fdlNextOut | fdlContentsAt | fdlEnergy
  | iirConfig | iirSetFreq | iirSetQ | iirSetResonance | iirSetNotch | iirSetGain | iirSample | iirClear
  | revConfig | revSetMix | revTick | revClear
  deriving DecidableEq, Repr

/-- The commands: one constructor per row of spec/opcode_table.json. SUB is part of the row, and operands come from OPA
and OPB (30_encoding.md R81), so no constructor has a field. -/
inductive Instr where
  | nop
  | fdlConfigFixed | fdlConfigAllpass | fdlConfigLinear
  | fdlSetDelay | fdlClear | fdlTick | fdlNextOut | fdlContentsAt | fdlEnergy
  | iirConfigLpf | iirConfigHpf | iirConfigBpf | iirConfigBrf
  | iirConfigRlpf | iirConfigRhpf | iirConfigResonz | iirConfigBiquad
  | iirSetFreq | iirSetQ | iirSetResonance | iirSetResonanceNorm | iirSetNotch | iirSetGain
  | iirSample | iirClear
  | revConfigA | revConfigB | revConfigC
  | revSetMix | revTick | revClear
  deriving DecidableEq, Repr

/-- The fields of a command word (30_encoding.md R80). -/
structure RawCommand where
  op  : BitVec 8
  sub : BitVec 4
  rsv : BitVec 52
  deriving DecidableEq, Repr

/-- Register names of the window (10_state.md R20, R30, R33, R35). -/
inductive Reg where
  | id | cmd | opa | opb | res0 | res1 | res2 | status | sr | mode
  | delay | cap | lastout | wptr | rptr | alpha | omalpha | coeff | apin | cache | cval
  | freq | q | gain | y1 | y2 | coef (i : Nat)
  | mix | t60 | lastl | lastr | lpstate | nlines | len (i : Nat) | cgain (j : Nat) | srcfg
  deriving DecidableEq, Repr

/-- What the outside world does next (20_memory.md R60, R70; 70_reset_and_hazards.md R290). A write carries its data
as bytes in ascending address order, so their number is the access width. An address is an unbounded natural (DESIGN
CHOICE, log 22: the spec gives host addresses no width). -/
inductive Event where
  | read (addr width : Nat)
  | write (addr : Nat) (data : List Byte)
  | powerOnReset
  deriving DecidableEq, Repr

/-- An assembler command line (30_encoding.md R88): the base of the unit it addresses, the command with its SUBNAME,
and the operands; `none` is an absent operand or `-`. -/
structure CommandLine where
  base  : Nat
  instr : Instr
  opa   : Option Word
  opb   : Option Word
  deriving DecidableEq, Repr

/-- Pseudo-instructions (30_encoding.md R89). -/
inductive Pseudo where
  | wr (reg : Reg) (v : Word)
  | rd (reg : Reg)
  | clrStatus
  | fdlPush (x : Option Word)
  | iirPush (x : Option Word)
  | revPush (x : Option Word)
  | revDry
  | revWet
  | setSr (f : Word)
  | check
  deriving DecidableEq, Repr

end Sys2Proof
end

