-- ==== Sys2Proof/WellFormed.lean ====
section
/-! DEFINITION. Well-formedness of terms: which unit accepts which command, which command words are legal, which
accesses are admitted, which instance lists a platform may have. -/

namespace Sys2Proof

/-- The unit type whose window accepts the opcode; `none` for NOP, which every unit accepts (30_encoding.md R83). -/
def Opcode.owner : Opcode → Option UnitType
  | .nop => none
  | .fdlConfig | .fdlSetDelay | .fdlClear | .fdlTick | .fdlNextOut | .fdlContentsAt | .fdlEnergy => some .fdl
  | .iirConfig | .iirSetFreq | .iirSetQ | .iirSetResonance | .iirSetNotch | .iirSetGain | .iirSample
  | .iirClear => some .iir
  | .revConfig | .revSetMix | .revTick | .revClear => some .rev

/-- The opcode of a command. -/
def Instr.opcode : Instr → Opcode
  | .nop => .nop
  | .fdlConfigFixed | .fdlConfigAllpass | .fdlConfigLinear => .fdlConfig
  | .fdlSetDelay => .fdlSetDelay
  | .fdlClear => .fdlClear
  | .fdlTick => .fdlTick
  | .fdlNextOut => .fdlNextOut
  | .fdlContentsAt => .fdlContentsAt
  | .fdlEnergy => .fdlEnergy
  | .iirConfigLpf | .iirConfigHpf | .iirConfigBpf | .iirConfigBrf
  | .iirConfigRlpf | .iirConfigRhpf | .iirConfigResonz | .iirConfigBiquad => .iirConfig
  | .iirSetFreq => .iirSetFreq
  | .iirSetQ => .iirSetQ
  | .iirSetResonance | .iirSetResonanceNorm => .iirSetResonance
  | .iirSetNotch => .iirSetNotch
  | .iirSetGain => .iirSetGain
  | .iirSample => .iirSample
  | .iirClear => .iirClear
  | .revConfigA | .revConfigB | .revConfigC => .revConfig
  | .revSetMix => .revSetMix
  | .revTick => .revTick
  | .revClear => .revClear

/-- A command is well formed for a unit type when that unit accepts its opcode (R83, R84 step 1). -/
def Instr.legalIn (i : Instr) (t : UnitType) : Bool :=
  match i.opcode.owner with
  | none => true
  | some o => o == t

/-- The SUB values a command admits (30_encoding.md R82): the number of variants or topologies of a CONFIG, the two
values of NORM, only 0 otherwise. -/
def Opcode.subCount : Opcode → Nat
  | .fdlConfig | .revConfig => 3
  | .iirConfig => 8
  | .iirSetResonance => 2
  | _ => 1

/-- A command word's fields are well formed for an opcode when RSV is 0 and SUB is one the opcode admits (R80, R82). -/
def RawCommand.wellFormed (r : RawCommand) (o : Opcode) : Bool :=
  r.rsv == 0 && decide (r.sub.toNat < o.subCount)

/-- An access has the one admitted form: 8 bytes at a multiple of 8 (20_memory.md R62). -/
def Event.wellFormed : Event → Bool
  | .read addr width => width == 8 && addr % 8 == 0
  | .write addr data => data.length == 8 && addr % 8 == 0
  | .powerOnReset => true

/-- The indexed views name existing registers (10_state.md R33, R35). -/
def Reg.wellFormed : Reg → Bool
  | .coef i => decide (i < 5)
  | .len i => decide (i < 16)
  | .cgain j => decide (j < 6)
  | _ => true

/-- A command line addresses a window base (R88; 20_memory.md R68). -/
def CommandLine.wellFormed (l : CommandLine) (t : UnitType) : Bool :=
  l.base % 512 == 0 && l.instr.legalIn t

/-- An instance list a platform may have: every base a multiple of the window size, no two windows the same
(00_scope.md R3; 20_memory.md R68). -/
def wellFormedInstances (l : List (UnitType × Nat)) : Bool :=
  l.all (fun p => p.2 % 512 == 0) && decide (l.map (·.2)).Nodup

end Sys2Proof
end

