-- ==== Sys2Proof/Decode.lean ====
section
/-! DEFINITION. The command decoder, total on 64-bit words, with the checks of 30_encoding.md R84 steps 1 to 3 in their
order, and the encoder. -/

namespace Sys2Proof

/-- OP, bits `[7:0]` (R80). -/
def opField (w : Word) : BitVec 8 := w.extractLsb' 0 8

/-- SUB, bits `[11:8]` (R80). -/
def subField (w : Word) : BitVec 4 := w.extractLsb' 8 4

/-- RSV, bits `[63:12]` (R80). -/
def rsvField (w : Word) : BitVec 52 := w.extractLsb' 12 52

/-- The three fields of a word (R80). -/
def splitCommand (w : Word) : RawCommand := ⟨opField w, subField w, rsvField w⟩

/-- The opcodes a window of each type accepts, by OP value (R83). -/
def opcodeOf (t : UnitType) (op : BitVec 8) : Option Opcode :=
  match op.toNat, t with
  | 0x00, _ => some .nop
  | 0x01, .fdl => some .fdlConfig
  | 0x02, .fdl => some .fdlSetDelay
  | 0x03, .fdl => some .fdlClear
  | 0x04, .fdl => some .fdlTick
  | 0x05, .fdl => some .fdlNextOut
  | 0x06, .fdl => some .fdlContentsAt
  | 0x07, .fdl => some .fdlEnergy
  | 0x11, .iir => some .iirConfig
  | 0x12, .iir => some .iirSetFreq
  | 0x13, .iir => some .iirSetQ
  | 0x14, .iir => some .iirSetResonance
  | 0x15, .iir => some .iirSetNotch
  | 0x16, .iir => some .iirSetGain
  | 0x17, .iir => some .iirSample
  | 0x18, .iir => some .iirClear
  | 0x21, .rev => some .revConfig
  | 0x22, .rev => some .revSetMix
  | 0x23, .rev => some .revTick
  | 0x24, .rev => some .revClear
  | _, _ => none

/-- SUB = 0, or RESERVED_BITS (R82, last item). -/
def subZero (sub : BitVec 4) (i : Instr) : Except ErrCode Instr :=
  if sub = 0 then .ok i else .error .reservedBits

/-- The SUB check (R82, R84 step 3). -/
def selectSub (o : Opcode) (sub : BitVec 4) : Except ErrCode Instr :=
  match o with
  | .nop => subZero sub .nop
  | .fdlConfig =>
    match sub.toNat with
    | 0 => .ok .fdlConfigFixed
    | 1 => .ok .fdlConfigAllpass
    | 2 => .ok .fdlConfigLinear
    | _ => .error .badVariant
  | .fdlSetDelay => subZero sub .fdlSetDelay
  | .fdlClear => subZero sub .fdlClear
  | .fdlTick => subZero sub .fdlTick
  | .fdlNextOut => subZero sub .fdlNextOut
  | .fdlContentsAt => subZero sub .fdlContentsAt
  | .fdlEnergy => subZero sub .fdlEnergy
  | .iirConfig =>
    match sub.toNat with
    | 0 => .ok .iirConfigLpf
    | 1 => .ok .iirConfigHpf
    | 2 => .ok .iirConfigBpf
    | 3 => .ok .iirConfigBrf
    | 4 => .ok .iirConfigRlpf
    | 5 => .ok .iirConfigRhpf
    | 6 => .ok .iirConfigResonz
    | 7 => .ok .iirConfigBiquad
    | _ => .error .badVariant
  | .iirSetFreq => subZero sub .iirSetFreq
  | .iirSetQ => subZero sub .iirSetQ
  | .iirSetResonance =>
    match sub.toNat with
    | 0 => .ok .iirSetResonance
    | 1 => .ok .iirSetResonanceNorm
    | _ => .error .reservedBits
  | .iirSetNotch => subZero sub .iirSetNotch
  | .iirSetGain => subZero sub .iirSetGain
  | .iirSample => subZero sub .iirSample
  | .iirClear => subZero sub .iirClear
  | .revConfig =>
    match sub.toNat with
    | 0 => .ok .revConfigA
    | 1 => .ok .revConfigB
    | 2 => .ok .revConfigC
    | _ => .error .badVariant
  | .revSetMix => subZero sub .revSetMix
  | .revTick => subZero sub .revTick
  | .revClear => subZero sub .revClear

/-- Decoding of a command word by a unit of type `t`: the first failing check of R84 steps 1 to 3 names the error. -/
def decode (t : UnitType) (w : Word) : Except ErrCode Instr :=
  match opcodeOf t (opField w) with
  | none => .error .illegalOpcode
  | some o => if rsvField w = 0 then selectSub o (subField w) else .error .reservedBits

/-- The OP value of an opcode (R83). -/
def opValue : Opcode → BitVec 8
  | .nop => 0x00
  | .fdlConfig => 0x01
  | .fdlSetDelay => 0x02
  | .fdlClear => 0x03
  | .fdlTick => 0x04
  | .fdlNextOut => 0x05
  | .fdlContentsAt => 0x06
  | .fdlEnergy => 0x07
  | .iirConfig => 0x11
  | .iirSetFreq => 0x12
  | .iirSetQ => 0x13
  | .iirSetResonance => 0x14
  | .iirSetNotch => 0x15
  | .iirSetGain => 0x16
  | .iirSample => 0x17
  | .iirClear => 0x18
  | .revConfig => 0x21
  | .revSetMix => 0x22
  | .revTick => 0x23
  | .revClear => 0x24

/-- The SUB value of a command (R82). -/
def subValue : Instr → BitVec 4
  | .fdlConfigAllpass | .iirConfigHpf | .iirSetResonanceNorm | .revConfigB => 1
  | .fdlConfigLinear | .iirConfigBpf | .revConfigC => 2
  | .iirConfigBrf => 3
  | .iirConfigRlpf => 4
  | .iirConfigRhpf => 5
  | .iirConfigResonz => 6
  | .iirConfigBiquad => 7
  | _ => 0

/-- The command word of a command (R80): RSV = 0. -/
def encode (i : Instr) : Word := (0#52 ++ subValue i) ++ opValue i.opcode

/-- The unit type whose window accepts a word's OP; an FDL for NOP and for an OP no unit accepts. -/
def homeOf (w : Word) : UnitType :=
  if (opcodeOf .fdl (opField w)).isSome then .fdl
  else if (opcodeOf .iir (opField w)).isSome then .iir
  else if (opcodeOf .rev (opField w)).isSome then .rev
  else .fdl

/-- What the decoder reads from the low `nbits` bits of `w`, all higher bits 0: the command word of the opcode table. -/
def decodeTableWord (nbits w : Nat) : Option Instr :=
  let v := w % 2 ^ nbits
  if 2 ^ 64 ≤ v then none
  else
    match decode (homeOf (BitVec.ofNat 64 v)) (BitVec.ofNat 64 v) with
    | .ok i => some i
    | .error _ => none

end Sys2Proof
end

