-- ==== Sys2Proof/Config.lean ====
section
/-! DEFINITION. What is fixed for the machine (00_scope.md R6, R10; 43_reverberator.md R221) and the free values the
spec leaves open: the three configuration functions (R12) and the bits of a computed NaN (40_common.md R106). -/

namespace Sys2Proof.Config

/-! ### Named constants -/

/-- `AP_MIN_OFFSET` = 0.4999999999 (R6). -/
def apMinOffset : F64 := F64.ofBits 0x3FDFFFFFFFE48320#64
/-- `AP_MIN_DELAY` = 0.5 (R6). -/
def apMinDelay : F64 := F64.ofBits 0x3FE0000000000000#64
/-- `DENORM_TH` = 1e-15 (R6). -/
def denormTh : F64 := F64.ofBits 0x3CD203AF9EE75616#64
/-- `QRES_MIN` = 0.001 (R6). -/
def qresMin : F64 := F64.ofBits 0x3F50624DD2F1A9FC#64
/-- `REV_AP_COEFF` = 0.7 (R6). -/
def revApCoeff : F64 := F64.ofBits 0x3FE6666666666666#64
/-- `SR_RESET` = 44100.0 (R6, R290), as register bits. -/
def srReset : Word := 0x40E5888000000000#64
/-- `TWO_PI` (R10). -/
def twoPi : F64 := F64.ofBits 0x401921FB54442D18#64
/-- `SQRT2` (R10). -/
def sqrt2 : F64 := F64.ofBits 0x3FF6A09E667F3BCD#64

/-! ### Decimal literals of the rules: the nearest binary64 (R10) -/

def quarter : F64 := F64.ofBits 0x3FD0000000000000#64
def half : F64 := F64.ofBits 0x3FE0000000000000#64
def one : F64 := F64.ofBits 0x3FF0000000000000#64
def two : F64 := F64.ofBits 0x4000000000000000#64
def minusTwo : F64 := F64.ofBits 0xC000000000000000#64
def minusThree : F64 := F64.ofBits 0xC008000000000000#64
/-- 0.3 and 0.7, the lowpass coefficients of topology B (R233). -/
def lpIn : F64 := F64.ofBits 0x3FD3333333333333#64
def lpKeep : F64 := F64.ofBits 0x3FE6666666666666#64

/-! ### Reverberator tables (R221) -/

/-- Nominal lengths of topology A. -/
def nominalA : List Nat := [1777, 1847, 1993, 2137, 389, 127, 43, 211, 179]
/-- Nominal lengths of topology B. -/
def nominalB : List Nat := [1433, 1601, 1867, 2053, 2251, 2399, 347, 113, 37, 59, 53, 43]
/-- Nominal lengths of topology C. -/
def nominalC : List Nat := [341, 613, 1557, 2137]
/-- Reference rate of A and C: 44100.0. -/
def ref44100 : F64 := F64.ofBits 0x40E5888000000000#64
/-- Reference rate of B: 25641.0. -/
def ref25641 : F64 := F64.ofBits 0x40D90A4000000000#64
/-- `MIX_DEFAULT_A` and `MIX_DEFAULT_B` = 0.3. -/
def mixDefaultAB : F64 := F64.ofBits 0x3FD3333333333333#64
/-- `MIX_DEFAULT_C` = 0.5. -/
def mixDefaultC : F64 := F64.ofBits 0x3FE0000000000000#64

/-! ### Values of `State.reset` that the platform chooses (DESIGN CHOICE, logs 1 and 5) -/

/-- `FDL_RAM_WORDS` of the reset state. -/
def fdlRamWords : Nat := 4096
/-- `REV_RAM_WORDS` of the reset state. -/
def revRamWords : Nat := 22982

/-! ### Free values -/

/-- Bits of `tanF` at an ordinary argument (R12, log 7). -/
opaque tanBits : Word → Word
/-- Bits of `cosF` at an ordinary argument (R12, log 7). -/
opaque cosBits : Word → Word
/-- Bits of `pow10F` at an ordinary argument (R12, log 7). -/
opaque pow10Bits : Word → Word
/-- Sign of the NaN computed at a draw and an operation of it (R106, U3, log 6). -/
opaque freeNanSign : Nat → Nat → Bool
/-- Payload of that NaN, before reduction to the payload range (R106, U3, log 6). -/
opaque freeNanPayload : Nat → Nat → Nat

end Sys2Proof.Config
end

