-- ==== Sys2Proof/Machine/State.lean ====
section
/-! DEFINITION. The machine's state as plain data (10_state.md), the reasons a step can stop, and the reset state
(10_state.md R37; 70_reset_and_hazards.md R290, R291). -/

namespace Sys2Proof.Machine

/-- A sample RAM (20_memory.md R66, R67): the words that do not read `+0.0`, by word index, indices strictly rising. A
word that is not listed reads `+0.0` (log 8). -/
abbrev Ram := List (Nat × F64)

/-- Warning bits, STATUS[12:8] (10_state.md R27). -/
abbrev Warnings := BitVec 5

/-- The registers every unit type has, with storage of their own (10_state.md R20). ID and CMD hold nothing; READY and
MODE are views of the body (log 13). -/
structure Regs where
  opa     : Word
  opb     : Word
  res0    : Word
  res1    : Word
  res2    : Word
  sr      : Word
  warn    : Warnings
  err     : Bool
  errcode : ErrCode
  deriving DecidableEq, Repr

/-- A circular buffer with its pointers (10_state.md R31, R36). -/
structure Line where
  cap   : Nat
  w     : Nat
  r     : Nat
  delay : F64
  last  : F64
  buf   : Ram
  deriving DecidableEq, Repr

/-- FDL state (10_state.md R31). -/
structure FdlState where
  cfg     : Bool
  variant : FdlVariant
  line    : Line
  alpha   : F64
  omalpha : F64
  coeff   : F64
  apin    : F64
  cvalid  : Bool
  cval    : F64
  deriving DecidableEq, Repr

/-- The coefficients `S.c[0..4]` (42_iir_filter.md R170). -/
structure Coeffs where
  c0 : F64
  c1 : F64
  c2 : F64
  c3 : F64
  c4 : F64
  deriving DecidableEq, Repr

/-- IIR state (10_state.md R34). -/
structure IirState where
  cfg     : Bool
  variant : IirVariant
  freq    : F64
  q       : F64
  gain    : F64
  y1      : F64
  y2      : F64
  c       : Coeffs
  deriving DecidableEq, Repr

/-- REV state (10_state.md R36). `S.n` is the length of `len`. -/
structure RevState where
  cfg   : Bool
  topo  : RevTopology
  t60   : F64
  srcfg : F64
  mix   : F64
  len   : List Nat
  cg    : List F64
  lp    : F64
  lastL : F64
  lastR : F64
  lines : List Line
  deriving DecidableEq, Repr

/-- The internal state of a unit, by its type (00_scope.md R2). -/
inductive Body where
  | fdl (S : FdlState)
  | iir (S : IirState)
  | rev (S : RevState)
  deriving DecidableEq, Repr

/-- A unit: its window's base, its registers, its internal state (10_state.md R20). The base is an unbounded natural
(DESIGN CHOICE, log 22: the spec gives BaseAddress no width, 00_scope.md R3). -/
structure DspUnit where
  base : Nat
  regs : Regs
  body : Body
  deriving DecidableEq, Repr

/-- The parameters of 00_scope.md R6 that the platform chooses and no event changes (log 5). -/
structure Params where
  fdlRamWords : Nat
  revRamWords : Nat
  deriving DecidableEq, Repr

/-- The machine: its units, the host's events still to come, the data of the last read, and the model's own fields
`sel` (the unit the current command addresses, log 3) and `draws` (free NaNs drawn so far, log 6). -/
structure State where
  units    : List DspUnit
  sel      : Nat
  bus      : List Event
  readData : List Byte
  params   : Params
  draws    : Nat
  deriving DecidableEq, Repr

/-- Why a run stops in a fault. -/
inductive Fault where
  /-- Raised by a step whose access lies in a window and is not 8 bytes at a multiple of 8 (20_memory.md R62;
  60_exceptions.md R277). Safe: the spec says the run is faulted. -/
  | busError (addr width : Nat)
  deriving DecidableEq, Repr

/-- Why a step has no meaning in this model. -/
inductive Refusal where
  /-- An instruction without a meaning yet; no arm raises it. Safe. -/
  | notModelled (mnemonic : String)
  /-- Raised by a step whose access lies in no window (60_exceptions.md R277: not this hardware's concern). Safe. -/
  | outsideWindows (addr : Nat)
  /-- Raised by `exec` when `sel` names no unit: a command is always written to some unit's CMD. No step raises it.
  Safe. -/
  | noUnitSelected
  deriving DecidableEq, Repr

/-! ### Reset -/

/-- Register reset values (10_state.md R20, R27). -/
def Regs.reset : Regs :=
  { opa := 0, opb := 0, res0 := 0, res1 := 0, res2 := 0, sr := Config.srReset, warn := 0, err := false,
    errcode := .noError }

/-- An empty line, every field 0. -/
def Line.blank : Line := { cap := 0, w := 0, r := 0, delay := F64.zero, last := F64.zero, buf := [] }

/-- FDL fields at reset (10_state.md R31). -/
def FdlState.reset : FdlState :=
  { cfg := false, variant := .fixed, line := Line.blank, alpha := F64.zero, omalpha := F64.zero, coeff := F64.zero,
    apin := F64.zero, cvalid := false, cval := F64.zero }

/-- All coefficients `+0.0`. -/
def Coeffs.zero : Coeffs := { c0 := F64.zero, c1 := F64.zero, c2 := F64.zero, c3 := F64.zero, c4 := F64.zero }

/-- IIR fields at reset (10_state.md R34). -/
def IirState.reset : IirState :=
  { cfg := false, variant := .lpf, freq := F64.zero, q := F64.zero, gain := F64.zero, y1 := F64.zero, y2 := F64.zero,
    c := Coeffs.zero }

/-- REV fields at reset (10_state.md R36; the unspecified lines: none, log 12). -/
def RevState.reset : RevState :=
  { cfg := false, topo := .a, t60 := F64.zero, srcfg := F64.zero, mix := F64.zero, len := [], cg := [], lp := F64.zero,
    lastL := F64.zero, lastR := F64.zero, lines := [] }

/-- The reset body of a unit type. -/
def Body.reset : UnitType → Body
  | .fdl => .fdl FdlState.reset
  | .iir => .iir IirState.reset
  | .rev => .rev RevState.reset

/-- The type of a unit. -/
def Body.type : Body → UnitType
  | .fdl _ => .fdl
  | .iir _ => .iir
  | .rev _ => .rev

/-- A unit right after reset (70_reset_and_hazards.md R290). -/
def DspUnit.reset (t : UnitType) (base : Nat) : DspUnit := { base := base, regs := Regs.reset, body := Body.reset t }

/-- The machine right after reset, for any instance list and any parameters (R290; 00_scope.md R3, R6). -/
def State.resetWith (l : List (UnitType × Nat)) (p : Params) : State :=
  { units := l.map (fun x => DspUnit.reset x.1 x.2), sel := 0, bus := [], readData := [], params := p, draws := 0 }

/-- The instances of `State.reset`: one of each type, in windows next to each other from address 0 (DESIGN CHOICE,
log 1). -/
def resetInstances : List (UnitType × Nat) := [(.fdl, 0x000), (.iir, 0x200), (.rev, 0x400)]

/-- The machine right after reset (R290), with the instances of log 1 and the RAM sizes of log 5. -/
def State.reset : State :=
  State.resetWith resetInstances { fdlRamWords := Config.fdlRamWords, revRamWords := Config.revRamWords }

end Sys2Proof.Machine
end

