-- ==== Sys2Proof/Machine/Flags.lean ====
section
/-! DEFINITION. STATUS: the warning bits, the error code, the register's layout and its write-one-to-clear rule
(10_state.md R27; 60_exceptions.md R263, R265). -/

namespace Sys2Proof.Machine

/-- No warning. -/
def noWarning : Warnings := 0#5
/-- W_DELAY_HI, STATUS bit 8. -/
def wDelayHi : Warnings := 1#5
/-- W_DELAY_LO, STATUS bit 9. -/
def wDelayLo : Warnings := 2#5
/-- W_TAP, STATUS bit 10. -/
def wTap : Warnings := 4#5
/-- W_MIX, STATUS bit 11. -/
def wMix : Warnings := 8#5
/-- W_RADIUS, STATUS bit 12. -/
def wRadius : Warnings := 16#5

/-- ERRCODE values (60_exceptions.md R263). -/
def errValue : ErrCode → BitVec 8
  | .noError => 0x00
  | .illegalOpcode => 0x01
  | .reservedBits => 0x02
  | .badVariant => 0x03
  | .notConfigured => 0x04
  | .wrongVariant => 0x05
  | .cfgMaxDelay => 0x10
  | .cfgRam => 0x11
  | .cfgDelayNan => 0x12
  | .cfgSampleRate => 0x13
  | .cfgT60 => 0x14
  | .cfgDesign => 0x15
  | .domainDelayNan => 0x20
  | .domainMixNan => 0x21
  | .domainDesign => 0x22

/-- A CFG error: codes 0x10 to 0x1F (60_exceptions.md R262). -/
def isCfgError (c : ErrCode) : Bool := (errValue c).extractLsb' 4 4 == 1#4

/-- The STATUS register from its fields (10_state.md R27): ERRCODE at 31:24, ERR at 16, the warnings at 12:8, READY at 0;
every other bit reads 0. -/
def statusWord (ready : Bool) (r : Regs) : Word :=
  ((((((0#32 ++ errValue r.errcode) ++ 0#7) ++ BitVec.ofBool r.err) ++ 0#3) ++ r.warn) ++ 0#7) ++ BitVec.ofBool ready

/-- A host write to STATUS (R27): a 1 clears its warning bit, a 1 in bit 16 clears ERR and ERRCODE, all else stays. -/
def Regs.writeStatus (r : Regs) (v : Word) : Regs :=
  let r' := { r with warn := r.warn &&& ~~~(v.extractLsb' 8 5) }
  if v.getLsbD 16 then { r' with err := false, errcode := .noError } else r'

/-- A completed command ORs its warnings into STATUS (40_common.md R108). -/
def Regs.commitWarnings (r : Regs) (w : Warnings) : Regs := { r with warn := r.warn ||| w }

/-- An error is recorded in ERR and ERRCODE (60_exceptions.md R260, R268). -/
def Regs.recordError (r : Regs) (c : ErrCode) : Regs := { r with err := true, errcode := c }

end Sys2Proof.Machine
end

