-- ==== Sys2Proof/Machine/Float.lean ====
section
/-! DEFINITION. binary64 arithmetic: round to nearest, ties to even, one rounding per operation (00_scope.md R8, R9;
40_common.md R106) and the exact integer comparisons and conversions (R105).

Every operation that can return a NaN takes the NaN it returns as its first argument: which NaN is open (R106, U3). -/

namespace Sys2Proof.Machine

/-- The NaNs of one command: operation `k` of the command draws `ν k` (R106, log 6). -/
abbrev NanSource := Nat → NanBits

/-- The NaN source of draw `n`: free bits, so that nothing can be proved of a sign or a payload (log 6). -/
def freeNans (n : Nat) : NanSource := fun k =>
  ⟨Config.freeNanSign n k, ⟨Config.freeNanPayload n k % nanCount, Nat.mod_lt _ (by decide)⟩⟩

/-! ### Classes, sign and order -/

def isNaN : F64 → Bool
  | .nan _ => true
  | _ => false

def isFinite : F64 → Bool
  | .fin _ _ => true
  | _ => false

/-- Unary `-v` flips the sign bit exactly, of a NaN and a zero too (R9, R106). -/
def fneg : F64 → F64
  | .nan b => .nan ⟨!b.sign, b.payload⟩
  | .inf s => .inf !s
  | .fin s m => .fin (!s) m

/-- Position on the number line of a value that is not NaN: both zeros at 0, infinities beyond every finite value. -/
def orderKey : F64 → Int
  | .nan _ => 0
  | .inf s => if s then -(infCode : Int) else infCode
  | .fin s m => if s then -(m.val : Int) else m.val

/-- `a < b`, false when either side is NaN (R9). -/
def flt (a b : F64) : Bool := !isNaN a && !isNaN b && decide (orderKey a < orderKey b)

/-- `a > b` (R9). -/
def fgt (a b : F64) : Bool := flt b a

/-- `a ≤ b`, false when either side is NaN (R9). -/
def fle (a b : F64) : Bool := !isNaN a && !isNaN b && decide (orderKey a ≤ orderKey b)

/-! ### Rounding -/

/-- Significand of a finite magnitude, an integer. -/
def significand (m : Fin infCode) : Nat :=
  if m.val / 4503599627370496 = 0 then m.val else m.val % 4503599627370496 + 4503599627370496

/-- Exponent of a finite magnitude: the value is `significand * 2^exponent`. -/
def exponent (m : Fin infCode) : Int :=
  if m.val / 4503599627370496 = 0 then -1074 else (m.val / 4503599627370496 : Nat) - 1075

/-- `m / 2^d` rounded to the nearest integer, ties to even, for `d ≥ 1`. -/
def shiftRightEven (m d : Nat) : Nat :=
  let k := m / 2 ^ d
  let r := m % 2 ^ d
  if 2 ^ d < 2 * r ∨ (2 * r = 2 ^ d ∧ k % 2 = 1) then k + 1 else k

/-- Exponent of the last place of the result for the exact value `m * 2^e`, `m > 0`. -/
def ulpExponent (m : Nat) (e : Int) : Int := max (e + Nat.log2 m - 52) (-1074)

/-- The exact value `(-1)^s * m * 2^e` rounded to binary64 (R9). Overflow goes to infinity. -/
def roundExact (s : Bool) (m : Nat) (e : Int) : F64 :=
  if m = 0 then .fin s ⟨0, by decide⟩
  else
    let q := ulpExponent m e
    let k := if q ≤ e then m * 2 ^ (e - q).toNat else shiftRightEven m (q - e).toNat
    let n := (q + 1074).toNat * 4503599627370496 + k
    if h : n < infCode then .fin s ⟨n, h⟩ else .inf s

/-- An integer that keeps the rounding of a value not exactly representable by `q`: twice `q`, odd when something is
left over. -/
def jam (q : Nat) (exact : Bool) : Nat := if exact then 2 * q else 2 * q + 1

/-! ### The four operations and the square root (R9) -/

/-- Exact signed sum of two finite values over their smaller exponent, rounded once. A zero sum is `-0.0` only when
both operands have the sign bit set. -/
def addFinite (sa : Bool) (ma : Fin infCode) (sb : Bool) (mb : Fin infCode) : F64 :=
  let e := min (exponent ma) (exponent mb)
  let a : Int := significand ma * 2 ^ (exponent ma - e).toNat
  let b : Int := significand mb * 2 ^ (exponent mb - e).toNat
  let t : Int := (if sa then -a else a) + (if sb then -b else b)
  if t = 0 then .fin (sa && sb) ⟨0, by decide⟩ else roundExact (decide (t < 0)) t.natAbs e

/-- `a + b`. -/
def fadd (n : NanBits) : F64 → F64 → F64
  | .nan _, _ => .nan n
  | _, .nan _ => .nan n
  | .inf sa, .inf sb => if sa = sb then .inf sa else .nan n
  | .inf sa, .fin _ _ => .inf sa
  | .fin _ _, .inf sb => .inf sb
  | .fin sa ma, .fin sb mb => addFinite sa ma sb mb

/-- `a - b`. -/
def fsub (n : NanBits) (a b : F64) : F64 := fadd n a (fneg b)

/-- `a * b`. -/
def fmul (n : NanBits) : F64 → F64 → F64
  | .nan _, _ => .nan n
  | _, .nan _ => .nan n
  | .inf sa, .inf sb => .inf (sa != sb)
  | .inf sa, .fin sb mb => if mb.val = 0 then .nan n else .inf (sa != sb)
  | .fin sa ma, .inf sb => if ma.val = 0 then .nan n else .inf (sa != sb)
  | .fin sa ma, .fin sb mb =>
    roundExact (sa != sb) (significand ma * significand mb) (exponent ma + exponent mb)

/-- Quotient of two finite values, the divisor not zero. -/
def divFinite (s : Bool) (ma mb : Fin infCode) : F64 :=
  let a := significand ma * 2 ^ 120
  let b := significand mb
  roundExact s (jam (a / b) (a % b = 0)) (exponent ma - exponent mb - 121)

/-- `a / b`. -/
def fdiv (n : NanBits) : F64 → F64 → F64
  | .nan _, _ => .nan n
  | _, .nan _ => .nan n
  | .inf _, .inf _ => .nan n
  | .inf sa, .fin sb _ => .inf (sa != sb)
  | .fin sa _, .inf sb => .fin (sa != sb) ⟨0, by decide⟩
  | .fin sa ma, .fin sb mb =>
    if mb.val = 0 then (if ma.val = 0 then .nan n else .inf (sa != sb)) else divFinite (sa != sb) ma mb

/-- Greatest `r` below `r + 2^b` with `r * r ≤ n`, bit by bit from bit `b - 1`. -/
def isqrtBits (n : Nat) : Nat → Nat → Nat
  | 0, r => r
  | b + 1, r => if (r + 2 ^ b) * (r + 2 ^ b) ≤ n then isqrtBits n b (r + 2 ^ b) else isqrtBits n b r

/-- Integer square root. -/
def isqrt (n : Nat) : Nat := isqrtBits n (Nat.log2 n / 2 + 1) 0

/-- The correctly rounded square root (R9). -/
def fsqrt (n : NanBits) : F64 → F64
  | .nan _ => .nan n
  | .inf s => if s then .nan n else .inf false
  | .fin s m =>
    if m.val = 0 then .fin s m
    else if s then .nan n
    else
      let odd := exponent m % 2 = 1
      let a := significand m * 2 ^ (if odd then 121 else 120)
      let e := (if odd then exponent m - 1 else exponent m) - 120
      let r := isqrt a
      roundExact false (jam r (r * r = a)) (e / 2 - 1)

/-! ### Integers (R8, R105) -/

/-- `i2f`: an integer as binary64, exact below `2^53` in magnitude. -/
def i2f (i : Int) : F64 := roundExact (decide (i < 0)) i.natAbs 0

/-- `floor` of a finite value: the greatest integer not above it, exact. The rules never take it of another value;
there it is 0 (DESIGN CHOICE, log 14). -/
def ffloor : F64 → Int
  | .fin s m =>
    let v : Int := if s then -(significand m : Int) else significand m
    if 0 ≤ exponent m then v * 2 ^ (exponent m).toNat else v / 2 ^ (-(exponent m)).toNat
  | _ => 0

/-- The exact comparison `t > x` of an integer with a binary64 (R105), false for a NaN. -/
def intGt (t : Int) : F64 → Bool
  | .nan _ => false
  | .inf s => s
  | .fin s m => decide (ffloor (.fin s m) < t)

/-! ### The denormal flush (42_iir_filter.md R171) -/

/-- `F(v)`: `+0.0` strictly between `-DENORM_TH` and `DENORM_TH`, otherwise `v` unchanged. -/
def flush (v : F64) : F64 :=
  if flt (fneg Config.denormTh) v && flt v Config.denormTh then F64.zero else v

end Sys2Proof.Machine
end

