-- ==== Sys2Proof/Machine/Operands.lean ====
section
/-! DEFINITION. Operand forms (30_encoding.md R81) and the byte order of the bus (20_memory.md R61). -/

namespace Sys2Proof.Machine

/-- The inputs a command reads once, before any check (40_common.md R107; 10_state.md R28). -/
structure Operands where
  opa : Word
  opb : Word
  sr  : Word
  deriving DecidableEq, Repr

/-- A register read as binary64 (R81). -/
abbrev asB64 (w : Word) : F64 := F64.ofBits w

/-- A register read as a two's-complement integer (R81). -/
abbrev asI64 (w : Word) : Int := w.toInt

/-- An integer field as a register shows it (40_common.md R105). -/
def intWord (n : Nat) : Word := BitVec.ofNat 64 n

/-- Byte `k` of a register: bits `[8k+7 : 8k]` (R61). -/
def byteOf (v : Word) (k : Nat) : Byte := v.extractLsb' (8 * k) 8

/-- The bytes of a register in ascending address order (R61). -/
def bytesOfWord (v : Word) : List Byte := (List.range 8).map (byteOf v)

/-- The value of bytes in ascending address order, lowest first (R61). -/
def natOfBytes : List Byte → Nat
  | [] => 0
  | b :: rest => b.toNat + 256 * natOfBytes rest

/-- The register value that eight bytes write (R61). -/
def wordOfBytes (l : List Byte) : Word := BitVec.ofNat 64 (natOfBytes l)

/-- The inputs of a command from a unit's registers (R107). -/
def Regs.operands (r : Regs) : Operands := { opa := r.opa, opb := r.opb, sr := r.sr }

end Sys2Proof.Machine
end

