-- ==== Sys2Proof/Machine/Ops.lean ====
section
/-! DEFINITION. Shared operations: the sample RAM, the FIXED line, recording an error, and the execution cycle of a
command (20_memory.md R66; 40_common.md R100; 41_delay_line.md R129; 60_exceptions.md R261, R262). -/

namespace Sys2Proof.Machine

/-! ### Sample RAM -/

/-- `BufRead(i)` (R66): the listed value, `+0.0` where nothing is listed (log 8). -/
def Ram.read : Ram → Nat → F64
  | [], _ => F64.zero
  | (j, v) :: rest, i => if i = j then v else Ram.read rest i

/-- Insertion at index `i`, in index order, replacing what was there. -/
def Ram.insert : Ram → Nat → F64 → Ram
  | [], i, v => [(i, v)]
  | (j, u) :: rest, i, v =>
    if i < j then (i, v) :: (j, u) :: rest
    else if i = j then (i, v) :: rest
    else (j, u) :: Ram.insert rest i v

/-- Removal of index `i`. -/
def Ram.erase (m : Ram) (i : Nat) : Ram := m.filter (fun c => c.1 != i)

/-- `BufWrite(i, v)` (R66). Writing `+0.0` removes the entry, so that equal contents are equal lists. -/
def Ram.write (m : Ram) (i : Nat) (v : F64) : Ram := if v = F64.zero then m.erase i else m.insert i v

/-- `+0.0` into every word below `n`. -/
def Ram.zeroBelow (m : Ram) (n : Nat) : Ram := m.filter (fun c => decide (n ≤ c.1))

/-- Indices strictly rising. -/
def Ram.sorted : Ram → Bool
  | [] => true
  | [_] => true
  | a :: b :: rest => decide (a.1 < b.1) && Ram.sorted (b :: rest)

/-- The canonical form: indices strictly rising and no entry equal to what an unlisted word reads as. -/
def Ram.wf (m : Ram) : Bool := Ram.sorted m && m.all (fun c => c.2 != F64.zero)

/-! ### The FIXED line -/

/-- `a mod C` of an exact integer (00_scope.md R8), for `C > 0` in `[0, C-1]`. -/
def modCap (a : Int) (cap : Nat) : Nat := (a % (cap : Int)).toNat

/-- `(i + 1) mod C`. -/
def nextIndex (i cap : Nat) : Nat := (i + 1) % cap

/-- Write the input at the write index and advance it. -/
def Line.push (l : Line) (x : F64) : Line := { l with buf := l.buf.write l.w x, w := nextIndex l.w l.cap }

/-- The word at the read index. -/
def Line.tap (l : Line) : F64 := l.buf.read l.r

/-- Advance the read index and record the output. -/
def Line.pop (l : Line) (y : F64) : Line := { l with r := nextIndex l.r l.cap, last := y }

/-- The FIXED tick (41_delay_line.md R129): write before read, then both indices advanced. The output is `last`. -/
def Line.tick (l : Line) (x : F64) : Line := let p := l.push x; p.pop p.tap

/-- Zero every word and the output, keep indices and delay (R126, R235). -/
def Line.clear (l : Line) : Line := { l with buf := l.buf.zeroBelow l.cap, last := F64.zero }

/-! ### Units -/

/-- READY (10_state.md R21). -/
def Body.ready : Body → Bool
  | .fdl S => S.cfg
  | .iir S => S.cfg
  | .rev S => S.cfg

/-- A rejected command (60_exceptions.md R261): the unit exactly as before, but for ERR and ERRCODE. -/
def DspUnit.reject (u : DspUnit) (c : ErrCode) : DspUnit := { u with regs := u.regs.recordError c }

/-- `ConfigFail` (60_exceptions.md R262): every internal field to its reset value, ERR and ERRCODE set, the other
registers unchanged. -/
def DspUnit.configFail (u : DspUnit) (c : ErrCode) : DspUnit :=
  { u with regs := u.regs.recordError c, body := Body.reset u.body.type }

/-- `raise Error(code)` at the end of a command (40_common.md R100): the one operation that records an error. There is
no trap and no return from one (60_exceptions.md R267, R268). -/
def DspUnit.raise (u : DspUnit) (c : ErrCode) : DspUnit := if isCfgError c then u.configFail c else u.reject c

/-- Result registers a command writes (10_state.md R26); `none` leaves the register. -/
structure Results where
  res0 : Option F64 := none
  res1 : Option F64 := none
  res2 : Option F64 := none
  deriving DecidableEq, Repr

/-- Results into the registers (40_common.md R103). -/
def Regs.writeResults (r : Regs) (o : Results) : Regs :=
  { r with
    res0 := match o.res0 with | some v => v.toBits | none => r.res0
    res1 := match o.res1 with | some v => v.toBits | none => r.res1
    res2 := match o.res2 with | some v => v.toBits | none => r.res2 }

/-- A completed command: new internal state, results, warnings (40_common.md R100, R103, R108). -/
def DspUnit.commit (u : DspUnit) (b : Body) (o : Results) (w : Warnings) : DspUnit :=
  { u with body := b, regs := (u.regs.writeResults o).commitWarnings w }

/-- What a command's body ends in (40_common.md R100). -/
inductive BodyResult (σ : Type) where
  | done (S : σ) (out : Results) (warns : Warnings)
  | error (c : ErrCode)
  deriving Repr

/-- A unit type's internal state inside `Body`. -/
structure Family (σ : Type) where
  view  : Body → Option σ
  wrap  : σ → Body
  ready : σ → Bool

/-- A command of a family: whether it is the family's CONFIG, which variants it applies to (R84 step 5), its body. -/
structure Command (σ : Type) where
  config  : Bool
  applies : σ → Bool
  body    : NanSource → Operands → σ → BodyResult σ

/-- `Execute` of 40_common.md R100 on one unit: the checks of 30_encoding.md R84 that depend on the unit (steps 1, 4,
5), then the body, then commit or raise. Steps 2 and 3 are the decoder's. -/
def DspUnit.execute {σ : Type} (fam : Family σ) (c : Command σ) (ν : NanSource) (u : DspUnit) : DspUnit :=
  match fam.view u.body with
  | none => u.raise .illegalOpcode
  | some S =>
    if !c.config && !fam.ready S then u.raise .notConfigured
    else if !c.applies S then u.raise .wrongVariant
    else
      match c.body ν u.regs.operands S with
      | .error e => u.raise e
      | .done S' out w => u.commit (fam.wrap S') out w

/-- The FDL family. -/
def fdlFamily : Family FdlState where
  view := fun | .fdl S => some S | _ => none
  wrap := .fdl
  ready := (·.cfg)

/-- The IIR family. -/
def iirFamily : Family IirState where
  view := fun | .iir S => some S | _ => none
  wrap := .iir
  ready := (·.cfg)

/-- The REV family. -/
def revFamily : Family RevState where
  view := fun | .rev S => some S | _ => none
  wrap := .rev
  ready := (·.cfg)

/-! ### Machine -/

/-- The unit the current command addresses. -/
def State.selected? (s : State) : Option DspUnit := s.units[s.sel]?

/-- The state with the addressed unit replaced and a draw of NaNs used up. -/
def State.afterCommand (s : State) (u : DspUnit) : State :=
  { s with units := s.units.set s.sel u, draws := s.draws + 1 }

/-- A command on the addressed unit (40_common.md R100). -/
def runCommand {σ : Type} (fam : Family σ) (c : Command σ) (s : State) : Host.Outcome State Fault Refusal :=
  match s.selected? with
  | none => .refused .noUnitSelected
  | some u => .next (s.afterCommand (u.execute fam c (freeNans s.draws)))

end Sys2Proof.Machine
end

