-- ==== Sys2Proof/Machine/Bus.lean ====
section
/-! DEFINITION. The register window: what a read of each offset returns and what a write of each offset does
(10_state.md R20 to R36; 20_memory.md R60 to R64), and which unit an access reaches (R62, R68). -/

namespace Sys2Proof.Machine

/-! ### Views (10_state.md R23, R29, R30, R33, R35) -/

/-- ID of a unit type (R23). -/
def idWord : UnitType → Word
  | .fdl => 0x000046444C430101#64
  | .iir => 0x000046444C430102#64
  | .rev => 0x000046444C430103#64

/-- MODE[3:0] (R29): the SUB code of the configured variant or topology. -/
def modeCode : Body → BitVec 4
  | .fdl S => match S.variant with | .fixed => 0 | .allpass => 1 | .linear => 2
  | .iir S =>
    match S.variant with
    | .lpf => 0 | .hpf => 1 | .bpf => 2 | .brf => 3 | .rlpf => 4 | .rhpf => 5 | .resonz => 6 | .biquad => 7
  | .rev S => match S.topo with | .a => 0 | .b => 1 | .c => 2

/-- FDL views (R30). -/
def fdlView (S : FdlState) (off : Nat) : Word :=
  match off with
  | 0x050 => S.line.delay.toBits
  | 0x058 => intWord S.line.cap
  | 0x060 => S.line.last.toBits
  | 0x068 => intWord S.line.w
  | 0x070 => intWord S.line.r
  | 0x078 => S.alpha.toBits
  | 0x080 => S.omalpha.toBits
  | 0x088 => S.coeff.toBits
  | 0x090 => S.apin.toBits
  | 0x098 => if S.cvalid then 1 else 0
  | 0x0A0 => S.cval.toBits
  | _ => 0

/-- IIR views (R33). -/
def iirView (S : IirState) (off : Nat) : Word :=
  match off with
  | 0x050 => S.freq.toBits
  | 0x058 => S.q.toBits
  | 0x060 => S.gain.toBits
  | 0x068 => S.y1.toBits
  | 0x070 => S.y2.toBits
  | 0x078 => S.c.c0.toBits
  | 0x080 => S.c.c1.toBits
  | 0x088 => S.c.c2.toBits
  | 0x090 => S.c.c3.toBits
  | 0x098 => S.c.c4.toBits
  | _ => 0

/-- REV views (R35): LEN[i] at `0x080 + 8*i`, CGAIN[j] at `0x100 + 8*j`, 0 beyond the lines and combs there are. -/
def revView (S : RevState) (off : Nat) : Word :=
  match off with
  | 0x050 => S.mix.toBits
  | 0x058 => S.t60.toBits
  | 0x060 => S.lastL.toBits
  | 0x068 => S.lastR.toBits
  | 0x070 => S.lp.toBits
  | 0x078 => intWord S.len.length
  | 0x130 => S.srcfg.toBits
  | _ =>
    if off % 8 ≠ 0 then 0
    else if 0x080 ≤ off ∧ off < 0x100 then intWord (S.len.getD ((off - 0x080) / 8) 0)
    else if 0x100 ≤ off ∧ off < 0x130 then (S.cg.getD ((off - 0x100) / 8) F64.zero).toBits
    else 0

/-- The view registers of a unit. -/
def viewWord (b : Body) (off : Nat) : Word :=
  match b with
  | .fdl S => fdlView S off
  | .iir S => iirView S off
  | .rev S => revView S off

/-- A register read (R20, R24, R63): no side effect, 0 where no rule names a register. -/
def DspUnit.readReg (u : DspUnit) (off : Nat) : Word :=
  match off with
  | 0x000 => idWord u.body.type
  | 0x008 => 0
  | 0x010 => u.regs.opa
  | 0x018 => u.regs.opb
  | 0x020 => u.regs.res0
  | 0x028 => u.regs.res1
  | 0x030 => u.regs.res2
  | 0x038 => statusWord u.body.ready u.regs
  | 0x040 => u.regs.sr
  | 0x048 => (modeCode u.body).setWidth 64
  | _ => viewWord u.body off

/-- A register write other than to CMD (R20, R25, R27, R28, R63): read-only and unnamed offsets ignore it. -/
def DspUnit.writeReg (u : DspUnit) (off : Nat) (v : Word) : DspUnit :=
  match off with
  | 0x010 => { u with regs := { u.regs with opa := v } }
  | 0x018 => { u with regs := { u.regs with opb := v } }
  | 0x038 => { u with regs := u.regs.writeStatus v }
  | 0x040 => { u with regs := { u.regs with sr := v } }
  | _ => u

/-! ### Which unit an access reaches -/

/-- An address lies in a unit's window (R20: 0x200 bytes from the base). The sum does not wrap (DESIGN CHOICE, log 22). -/
def DspUnit.covers (u : DspUnit) (addr : Nat) : Bool := decide (u.base ≤ addr) && decide (addr < u.base + 0x200)

/-- The index of the unit whose window holds an address, counted from `k` (windows are disjoint; log 21). -/
def findUnit : List DspUnit → Nat → Nat → Option Nat
  | [], _, _ => none
  | u :: rest, addr, k => if u.covers addr then some k else findUnit rest addr (k + 1)

/-- The index of the unit whose window holds an address. -/
def State.unitAt (s : State) (addr : Nat) : Option Nat := findUnit s.units addr 0

/-- What the next event asks of the machine. -/
inductive Request where
  | reset
  | outside (addr : Nat)
  | busError (addr width : Nat)
  | read (k off : Nat)
  | write (k off : Nat) (v : Word)
  | command (k : Nat) (v : Word)
  deriving DecidableEq, Repr

/-- The offset of an address in the window of unit `k`. -/
def State.offsetIn (s : State) (k addr : Nat) : Nat :=
  match s.units[k]? with
  | some u => addr - u.base
  | none => addr

/-- A write of `v` at an offset: the CMD register takes commands (R24). -/
def writeRequest (k off : Nat) (v : Word) : Request := if off = 0x008 then .command k v else .write k off v

/-- Sorts an event (R60, R62, R277): outside every window, not admitted, or an access to one register. -/
def State.request (s : State) : Event → Request
  | .powerOnReset => .reset
  | .read addr width =>
    match s.unitAt addr with
    | none => .outside addr
    | some k => if width = 8 ∧ addr % 8 = 0 then .read k (s.offsetIn k addr) else .busError addr width
  | .write addr data =>
    match s.unitAt addr with
    | none => .outside addr
    | some k =>
      if data.length = 8 ∧ addr % 8 = 0 then writeRequest k (s.offsetIn k addr) (wordOfBytes data)
      else .busError addr data.length

/-- A read access (R60, R64): the bytes of the register are returned, nothing else changes. -/
def State.doRead (s : State) (k off : Nat) : State :=
  match s.units[k]? with
  | some u => { s with readData := bytesOfWord (u.readReg off) }
  | none => s

/-- A write access to a register other than CMD (R60). -/
def State.doWrite (s : State) (k off : Nat) (v : Word) : State :=
  match s.units[k]? with
  | some u => { s with units := s.units.set k (u.writeReg off v) }
  | none => s

/-- Power-on reset of every unit (70_reset_and_hazards.md R290; log 17). -/
def State.powerOn (s : State) : State :=
  { s with units := s.units.map (fun u => DspUnit.reset u.body.type u.base) }

/-- A command word the decoder refuses (30_encoding.md R84, R85): the addressed unit records the error. -/
def State.rejectCommand (s : State) (k : Nat) (c : ErrCode) : State :=
  match s.units[k]? with
  | some u => { s with units := s.units.set k (u.raise c) }
  | none => s

/-- The unit a table word is written to by `State.withFetchWord`: the first of the type that accepts its opcode, the
first unit where there is none. -/
def homeUnit (l : List DspUnit) (t : UnitType) : Option DspUnit :=
  match l.find? (fun u => u.body.type = t) with
  | some u => some u
  | none => l.head?

/-- The host's write of a command word to the CMD register of a unit with this base (R24). -/
def cmdWrite (base : Nat) (v : Word) : Event := .write (base + 0x008) (bytesOfWord v)

end Sys2Proof.Machine
end

