-- ==== Sys2Proof/Machine/Common.lean ====
section
/-! DEFINITION. The command every unit has (40_common.md R102). -/

namespace Sys2Proof.Machine

/-- NOP (R102): changes nothing, legal in every unit, READY or not. -/
def execNop (s : State) : Host.Outcome State Fault Refusal :=
  match s.selected? with
  | none => .refused .noUnitSelected
  | some _ => .next s

end Sys2Proof.Machine
end

