-- ==== Sys2Proof/Machine/Fdl.lean ====
section
/-! DEFINITION. The delay line family (41_delay_line.md). Arithmetic takes a NaN source `ν`; within one command each
operation uses an index of its own (log 6). -/

namespace Sys2Proof.Machine

/-! ### SetDelay (R122, R123, R124) -/

/-- SetDelay for FIXED (R122). -/
def setDelayFixed (S : FdlState) (d : Int) : FdlState × Warnings :=
  let top : Int := (S.line.cap : Int) - 1
  let set := fun (d : Int) =>
    { S with line := { S.line with r := modCap ((S.line.w : Int) - d) S.line.cap, delay := i2f d } }
  if top < d then (set top, wDelayHi)
  else if d < 0 then (set 0, wDelayLo)
  else (set d, noWarning)

/-- The part of SetDelay for ALLPASS after `op` is known (R123): the wrap, the split into index and `alpha`, the
`alpha < 0.5` adjustment, the coefficient. -/
def setAllpassPointer (ν : NanSource) (S : FdlState) (op delay : F64) : FdlState :=
  let op := if flt op F64.zero then fadd (ν 2) op (i2f S.line.cap) else op
  let rr := ffloor op
  let alpha := fsub (ν 4) (fadd (ν 3) Config.one (i2f rr)) op
  let r := modCap rr S.line.cap
  let early := flt alpha Config.half
  let r := if early then nextIndex r S.line.cap else r
  let alpha := if early then fadd (ν 5) alpha Config.one else alpha
  { S with
    line := { S.line with r := r, delay := delay }
    alpha := alpha
    coeff := fdiv (ν 8) (fsub (ν 6) Config.one alpha) (fadd (ν 7) Config.one alpha) }

/-- SetDelay for ALLPASS (R123), `d` not NaN. -/
def setDelayAllpass (ν : NanSource) (S : FdlState) (d : F64) : FdlState × Warnings :=
  let top := i2f ((S.line.cap : Int) - 1)
  let back := fun (d : F64) => fadd (ν 1) (fsub (ν 0) (i2f S.line.w) d) Config.one
  if fgt d top then (setAllpassPointer ν S (back top) top, wDelayHi)
  else if flt d Config.apMinDelay then
    (setAllpassPointer ν S (fadd (ν 0) (i2f S.line.w) Config.apMinOffset) Config.apMinDelay, wDelayLo)
  else (setAllpassPointer ν S (back d) d, noWarning)

/-- The part of SetDelay for LINEAR after the clamp (R124). -/
def setLinearPointer (ν : NanSource) (S : FdlState) (d : F64) : FdlState :=
  let op := fsub (ν 0) (i2f S.line.w) d
  let op := if flt op F64.zero then fadd (ν 1) op (i2f S.line.cap) else op
  let rr := ffloor op
  let alpha := fsub (ν 2) op (i2f rr)
  { S with
    line := { S.line with r := modCap rr S.line.cap, delay := d }
    alpha := alpha
    omalpha := fsub (ν 3) Config.one alpha }

/-- SetDelay for LINEAR (R124), `d` not NaN. -/
def setDelayLinear (ν : NanSource) (S : FdlState) (d : F64) : FdlState × Warnings :=
  let top := i2f ((S.line.cap : Int) - 1)
  if fgt d top then (setLinearPointer ν S top, wDelayHi)
  else if flt d F64.zero then (setLinearPointer ν S F64.zero, wDelayLo)
  else (setLinearPointer ν S d, noWarning)

/-- SetDelay of a variant, OPA read in the variant's form (30_encoding.md R81). -/
def setDelay (ν : NanSource) (v : FdlVariant) (S : FdlState) (a : Word) : FdlState × Warnings :=
  match v with
  | .fixed => setDelayFixed S (asI64 a)
  | .allpass => setDelayAllpass ν S (asB64 a)
  | .linear => setDelayLinear ν S (asB64 a)

/-- A NaN delay where the delay is a binary64 (R121, R125). -/
def nanDelay (v : FdlVariant) (a : Word) : Bool := v != .fixed && isNaN (asB64 a)

/-! ### FDL_CONFIG (R121) -/

/-- The fields FDL_CONFIG sets before SetDelay (R121; 10_state.md R31). -/
def freshFdl (v : FdlVariant) (cap : Nat) (ram : Ram) : FdlState :=
  { cfg := true, variant := v,
    line := { cap := cap, w := 0, r := 0, delay := F64.zero, last := F64.zero, buf := ram.zeroBelow cap },
    alpha := F64.zero, omalpha := Config.one, coeff := F64.zero, apin := F64.zero, cvalid := false, cval := F64.zero }

/-- FDL_CONFIG (R121): the checks in order, then the fresh line, then SetDelay. -/
def fdlConfigBody (v : FdlVariant) (ramWords : Nat) (ν : NanSource) (o : Operands) (S : FdlState) :
    BodyResult FdlState :=
  let m := asI64 o.opb
  if m < 1 then .error .cfgMaxDelay
  else if (ramWords : Int) < m + 1 then .error .cfgRam
  else if nanDelay v o.opa then .error .cfgDelayNan
  else
    let p := setDelay ν v (freshFdl v (m + 1).toNat S.line.buf) o.opa
    .done p.1 {} p.2

/-- FDL_CONFIG as a command of the family. -/
def fdlConfig (v : FdlVariant) (ramWords : Nat) : Command FdlState :=
  { config := true, applies := fun _ => true, body := fdlConfigBody v ramWords }

/-- FDL_CONFIG.FIXED (R121, R122). -/
def execFdlConfigFixed (s : State) : Host.Outcome State Fault Refusal :=
  runCommand fdlFamily (fdlConfig .fixed s.params.fdlRamWords) s

/-- FDL_CONFIG.ALLPASS (R121, R123). -/
def execFdlConfigAllpass (s : State) : Host.Outcome State Fault Refusal :=
  runCommand fdlFamily (fdlConfig .allpass s.params.fdlRamWords) s

/-- FDL_CONFIG.LINEAR (R121, R124). -/
def execFdlConfigLinear (s : State) : Host.Outcome State Fault Refusal :=
  runCommand fdlFamily (fdlConfig .linear s.params.fdlRamWords) s

/-! ### FDL_SET_DELAY, FDL_CLEAR (R125, R126) -/

/-- FDL_SET_DELAY (R125): buffer, write index, output and cache kept. -/
def fdlSetDelayBody (ν : NanSource) (o : Operands) (S : FdlState) : BodyResult FdlState :=
  if nanDelay S.variant o.opa then .error .domainDelayNan
  else
    let p := setDelay ν S.variant S o.opa
    .done p.1 {} p.2

/-- FDL_SET_DELAY. -/
def execFdlSetDelay (s : State) : Host.Outcome State Fault Refusal :=
  runCommand fdlFamily { config := false, applies := fun _ => true, body := fdlSetDelayBody } s

/-- FDL_CLEAR (R126): buffer and output state, not the pointers. -/
def clearFdl (S : FdlState) : FdlState :=
  { S with line := S.line.clear, apin := F64.zero, cval := F64.zero, cvalid := false }

/-- FDL_CLEAR. -/
def execFdlClear (s : State) : Host.Outcome State Fault Refusal :=
  runCommand fdlFamily
    { config := false, applies := fun _ => true, body := fun _ _ S => .done (clearFdl S) {} noWarning } s

/-! ### The output cache and the tick (R127 to R132) -/

/-- The pending output computed from the buffer (R127). A FIXED line has none; the arm is never reached from a command. -/
def pendingOutput (ν : NanSource) (S : FdlState) : F64 :=
  match S.variant with
  | .fixed => S.line.tap
  | .allpass =>
    fadd (ν 3) (fneg (fmul (ν 0) S.coeff S.line.last)) (fadd (ν 2) S.apin (fmul (ν 1) S.coeff S.line.tap))
  | .linear =>
    fadd (ν 2) (fmul (ν 0) S.line.tap S.omalpha)
      (fmul (ν 1) (S.line.buf.read (nextIndex S.line.r S.line.cap)) S.alpha)

/-- NextOut (R127): the cached value if the cache is valid, else the pending output, cached. The value is `cval` of the
result. -/
def nextOut (ν : NanSource) (S : FdlState) : FdlState :=
  if S.cvalid then S else { S with cval := pendingOutput ν S, cvalid := true }

/-- FDL_TICK on a FIXED line (R129). -/
def tickFixed (S : FdlState) (x : F64) : FdlState := { S with line := S.line.tick x }

/-- FDL_TICK on an ALLPASS or LINEAR line (R130, R131): write the input, take NextOut, invalidate the cache, update the
memory term (ALLPASS only), advance the read index. -/
def tickInterpolating (ν : NanSource) (S : FdlState) (x : F64) : FdlState :=
  let S1 := nextOut ν { S with line := S.line.push x }
  { S1 with
    cvalid := false
    apin := if S.variant = .allpass then S1.line.tap else S.apin
    line := S1.line.pop S1.cval }

/-- FDL_TICK (R129, R130, R131). -/
def tickFdl (ν : NanSource) (S : FdlState) (x : F64) : FdlState :=
  match S.variant with
  | .fixed => tickFixed S x
  | .allpass | .linear => tickInterpolating ν S x

/-- FDL_TICK: the output is `S.last` after the tick. -/
def fdlTickBody (ν : NanSource) (o : Operands) (S : FdlState) : BodyResult FdlState :=
  let S' := tickFdl ν S (asB64 o.opa)
  .done S' { res0 := some S'.line.last } noWarning

/-- FDL_TICK. -/
def execFdlTick (s : State) : Host.Outcome State Fault Refusal :=
  runCommand fdlFamily { config := false, applies := fun _ => true, body := fdlTickBody } s

/-- FDL_NEXT_OUT (R132). -/
def fdlNextOutBody (ν : NanSource) (_ : Operands) (S : FdlState) : BodyResult FdlState :=
  let S' := nextOut ν S
  .done S' { res0 := some S'.cval } noWarning

/-- FDL_NEXT_OUT: WRONG_VARIANT on a FIXED line (30_encoding.md R84 step 5). -/
def execFdlNextOut (s : State) : Host.Outcome State Fault Refusal :=
  runCommand fdlFamily { config := false, applies := fun S => S.variant != .fixed, body := fdlNextOutBody } s

/-! ### Non-destructive reads (R133, R134) -/

/-- The tap FDL_CONTENTS_AT reads, and its warning (R133). -/
def clampTap (S : FdlState) (t : Int) : Int × Warnings :=
  if t < 1 then (1, wTap)
  else if intGt t S.line.delay then (max 1 (ffloor S.line.delay), wTap)
  else (t, noWarning)

/-- FDL_CONTENTS_AT (R133). -/
def fdlContentsAtBody (_ : NanSource) (o : Operands) (S : FdlState) : BodyResult FdlState :=
  let p := clampTap S (asI64 o.opa)
  .done S { res0 := some (S.line.buf.read (modCap ((S.line.w : Int) - p.1) S.line.cap)) } p.2

/-- FDL_CONTENTS_AT. -/
def execFdlContentsAt (s : State) : Host.Outcome State Fault Refusal :=
  runCommand fdlFamily { config := false, applies := fun _ => true, body := fdlContentsAtBody } s

/-- The word indices FDL_ENERGY sums, in order (R134): `[r, w)`, split at the buffer boundary. -/
def energyIndices (l : Line) : List Nat :=
  if l.r ≤ l.w then List.range' l.r (l.w - l.r) else List.range' l.r (l.cap - l.r) ++ List.range l.w

/-- The sum of squares, rounded at each step (R134). -/
def energy (ν : NanSource) (l : Line) : F64 :=
  (energyIndices l).foldl
    (fun e i => fadd (ν (2 * i + 1)) e (fmul (ν (2 * i)) (l.buf.read i) (l.buf.read i))) F64.zero

/-- FDL_ENERGY (R134). -/
def fdlEnergyBody (ν : NanSource) (_ : Operands) (S : FdlState) : BodyResult FdlState :=
  .done S { res0 := some (energy ν S.line) } noWarning

/-- FDL_ENERGY. -/
def execFdlEnergy (s : State) : Host.Outcome State Fault Refusal :=
  runCommand fdlFamily { config := false, applies := fun _ => true, body := fdlEnergyBody } s

end Sys2Proof.Machine
end

