-- ==== Sys2Proof/Machine/Functions.lean ====
section
/-! DEFINITION. The configuration functions `tanF`, `cosF` and `pow10F` (00_scope.md R12, log 7). Each returns a free value
of its argument inside an interval around the true value, narrow enough for R12's accuracy. The interval is computed from
integer approximations: the tangent and the cosine by doubling an angle, the power of ten by taking square roots.
Laws/Functions.lean proves how near they are to the real functions. -/

namespace Sys2Proof.Machine

/-! ### Free values in an interval -/

/-- The NaN a configuration function returns, determined by its argument alone through free bits `w`. -/
def argNan (w : Word) : F64 :=
  .nan ⟨w.msb, ⟨w.toNat % nanCount, Nat.mod_lt _ (by decide)⟩⟩

/-- A free value with sign bit `s` and bits `[62:0]` from `lo` to `hi`. -/
def freeCode (s : Bool) (lo hi : Nat) (w : Word) : F64 := F64.ofCode s (lo + w.toNat % (hi - lo + 1))

/-- A free value whose place on the number line (`orderKey`) is from `lo` to `hi`. -/
def freeBetween (lo hi : Int) (w : Word) : F64 :=
  let k := lo + (w.toNat : Int) % (hi - lo + 1)
  F64.ofCode (decide (k < 0) || decide (k = 0) && w.msb) k.natAbs

/-- Bits `[62:0]` of `n / d` rounded to binary64. -/
def quotientCode (n d : Nat) : Nat :=
  F64.code (roundExact false (jam (n * 2 ^ 1200 / d) (n * 2 ^ 1200 % d = 0)) (-1201))

/-- Place on the number line of `n / d` rounded to binary64. -/
def quotientKey (n : Int) (d : Nat) : Int :=
  if n < 0 then -(quotientCode n.natAbs d : Int) else quotientCode n.natAbs d

/-! ### Angles -/

/-- `cos` and `sin` of twice an angle from those of the angle, `p` bits after the point. -/
def doubleAngle (p : Nat) (z : Int × Int) : Int × Int :=
  ((z.1 * z.1 - z.2 * z.2) / 2 ^ p, 2 * z.1 * z.2 / 2 ^ p)

/-- The angle doubled `k` times. -/
def doubleAngles (p : Nat) : Nat → Int × Int → Int × Int
  | 0, z => z
  | k + 1, z => doubleAngles p k (doubleAngle p z)

/-- How often the angle of a magnitude is halved, so that `1 + iy` is near enough to `cos y + i sin y`. -/
def halvings (m : Fin infCode) : Nat := 2 * (exponent m + 53).toNat + 160

/-- Bits after the point of `cosSin`. -/
def anglePrecision (m : Fin infCode) : Nat := halvings m + 166

/-- `cos` and `sin` of a magnitude of at least `2^-25`, `anglePrecision` bits after the point. -/
def cosSin (m : Fin infCode) : Int × Int :=
  doubleAngles (anglePrecision m) (halvings m)
    (2 ^ anglePrecision m, (significand m * 2 ^ (exponent m + 166).toNat : Nat))

/-- The code of `2^-25`. Below it `cos x` is 1 and `tan x` is `x`, to the accuracy needed. -/
def smallAngle : Nat := 0x3E60000000000000

/-- `cos` of a magnitude as a quotient. -/
def cosRatio (m : Fin infCode) : Int × Nat :=
  if m.val < smallAngle then (2 ^ 46, 2 ^ 46) else ((cosSin m).1, 2 ^ anglePrecision m)

/-- `tan` of a magnitude as a quotient. -/
def tanRatio (m : Fin infCode) : Int × Int :=
  if m.val < smallAngle then ((significand m * 2 ^ 40 : Nat), 2 ^ (40 - exponent m).toNat)
  else ((cosSin m).2, (cosSin m).1)

/-- Half the width of the interval of `tanF` around a tangent of magnitude `a / b` and sign `neg`, over `b`. With `t` the
tangent it is `2^-36` of the larger of 1 and `|t|`, and of `(1 + t)^2`, since the designs of R175 to R178 divide by `1 + t`;
not below `2^-53`, the distance of neighbouring binary64 values there; and at most half of `|t|`, so that the sign is kept
(42_iir_filter.md R190). -/
def tanTolerance (neg : Bool) (a b : Nat) : Nat :=
  let e := if neg then (a - b) + (b - a) else a + b
  min (a / 2) (max (min (max a b) (e * e / b) / 2 ^ 36) (b / 2 ^ 53))

/-- `tanF` (R12): NaN at NaN and the infinities, exact at both zeros. -/
def tanF : F64 → F64
  | .fin s m =>
    if m.val = 0 then .fin s m
    else
      let w := Config.tanBits (F64.toBits (.fin s m))
      let neg := s != (decide ((tanRatio m).1 < 0) != decide ((tanRatio m).2 < 0))
      let a := (tanRatio m).1.natAbs
      let b := (tanRatio m).2.natAbs
      freeCode neg (quotientCode (a - tanTolerance neg a b) b) (quotientCode (a + tanTolerance neg a b) b) w
  | x => argNan (Config.tanBits x.toBits)

/-- `cosF` (R12): NaN at NaN and the infinities, 1.0 at both zeros. Otherwise within `2^-46` of the cosine, and at most half
as far again towards 1 or -1 as the cosine is from it, so that it stays inside where the cosine is (42_iir_filter.md
R190). -/
def cosF : F64 → F64
  | .fin s m =>
    if m.val = 0 then Config.one
    else
      let d : Nat := (cosRatio m).2
      let n : Int := max (-d) (min d (cosRatio m).1)
      freeBetween (quotientKey (max (n - d / 2 ^ 46) (-((d - n) / 2))) d)
        (quotientKey (min (n + d / 2 ^ 46) ((d + n) / 2)) d) (Config.cosBits (F64.toBits (.fin s m)))
  | x => argNan (Config.cosBits x.toBits)

/-! ### Powers of ten -/

/-- `acc * 10^(x / 2^b)` where `r` is `10` to the power `1`, halved as often as bits were taken; 128 bits after the
point. The `b` bits of `x` are taken from the highest on. -/
def pow10Bits128 : Nat → Nat → Nat → Nat → Nat
  | 0, _, _, acc => acc
  | b + 1, r, x, acc =>
    let r := isqrt (r * 2 ^ 128)
    if 2 ^ b ≤ x then pow10Bits128 b r (x - 2 ^ b) (acc * r / 2 ^ 128) else pow10Bits128 b r x acc

/-- `floor(x * 2^64)` of a magnitude. -/
def fixed64 (m : Fin infCode) : Nat :=
  if 0 ≤ exponent m + 64 then significand m * 2 ^ (exponent m + 64).toNat
  else significand m / 2 ^ (-(exponent m + 64)).toNat

/-- `10^x` of a magnitude below 400, 128 bits after the point. -/
def pow10Approx (m : Fin infCode) : Nat :=
  let x := fixed64 m
  pow10Bits128 64 (10 * 2 ^ 128) (x % 2 ^ 64) (10 ^ (x / 2 ^ 64) * 2 ^ 128)

/-- The code of 400.0. From there on `10^x` overflows and `10^-x` is below the least subnormal. -/
def largePower : Nat := 0x4079000000000000

/-- `10^-x` of a magnitude as a quotient. -/
def tenthsRatio (m : Fin infCode) : Nat × Nat :=
  if m.val < largePower then (2 ^ 256, pow10Approx m * 2 ^ 128) else (0, 2 ^ 32)

/-- `pow10F` (R12): NaN at NaN, `+inf` at `+inf`, `+0.0` at `-inf`, 1.0 at both zeros. Otherwise within `2^-32` of the power
of ten for a negative argument, and in [0, 1] (43_reverberator.md R225), and within `2^-32` of itself for a positive
one. -/
def pow10F : F64 → F64
  | .fin s m =>
    if m.val = 0 then Config.one
    else
      let w := Config.pow10Bits (F64.toBits (.fin s m))
      if s then
        let n := (tenthsRatio m).1
        let d := (tenthsRatio m).2
        freeCode false (quotientCode (n - d / 2 ^ 32) d) (quotientCode (min d (n + d / 2 ^ 32)) d) w
      else if m.val < largePower then
        let n := pow10Approx m
        freeCode false (quotientCode (n - n / 2 ^ 32) (2 ^ 128)) (quotientCode (n + n / 2 ^ 32) (2 ^ 128)) w
      else .inf false
  | .inf s => if s then F64.zero else .inf false
  | .nan b => argNan (Config.pow10Bits (F64.toBits (.nan b)))

end Sys2Proof.Machine
end

