-- ==== Sys2Proof/Machine/Iir.lean ====
section
/-! DEFINITION. The recursive filter bank (42_iir_filter.md). Arithmetic takes a NaN source `ν`; within one command each
operation uses an index of its own (log 6). -/

namespace Sys2Proof.Machine

/-! ### Coefficient designs (R172 to R180) -/

/-- `rps`, radians per sample (R172). -/
def radiansPerSample (ν : NanSource) (sr : F64) : F64 := fdiv (ν 0) Config.twoPi sr

/-- The coefficients of a designed variant: `c[3] = c[4] = +0.0` (R170). -/
def designed (a0 b1 b2 : F64) : Coeffs := { c0 := a0, c1 := b1, c2 := b2, c3 := F64.zero, c4 := F64.zero }

/-- `a0`, `b1`, `b2` of LPF and HPF from `C` and the first factor of `b1` (R173, R174). -/
def butterworth (ν : NanSource) (c b1Factor : F64) : Coeffs :=
  let c2 := fmul (ν 10) c c
  let s2c := fmul (ν 11) c Config.sqrt2
  let a0 := fdiv (ν 14) Config.one (fadd (ν 13) (fadd (ν 12) Config.one s2c) c2)
  let b1 := fmul (ν 17) (fmul (ν 16) b1Factor (fsub (ν 15) Config.one c2)) a0
  let b2 := fmul (ν 20) (fneg (fadd (ν 19) (fsub (ν 18) Config.one s2c) c2)) a0
  designed a0 b1 b2

/-- The prewarped half angle `pf` of LPF and HPF (R173). -/
def halfAngle (ν : NanSource) (f sr : F64) : F64 :=
  fmul (ν 2) (fmul (ν 1) f (radiansPerSample ν sr)) Config.half

/-- LPF design (R173). -/
def designLpf (ν : NanSource) (f sr : F64) : Coeffs :=
  butterworth ν (fdiv (ν 3) Config.one (tanF (halfAngle ν f sr))) Config.minusTwo

/-- HPF design (R174). -/
def designHpf (ν : NanSource) (f sr : F64) : Coeffs :=
  butterworth ν (tanF (halfAngle ν f sr)) Config.two

/-- `pf` of the centre-frequency designs (R175). -/
def centreAngle (ν : NanSource) (f sr : F64) : F64 := fmul (ν 1) f (radiansPerSample ν sr)

/-- `pbw` of BPF and BRF (R175). -/
def halfBandwidth (ν : NanSource) (f q sr : F64) : F64 :=
  fmul (ν 4) (fmul (ν 3) (fdiv (ν 2) Config.one q) (centreAngle ν f sr)) Config.half

/-- BPF design (R175). -/
def designBpf (ν : NanSource) (f q sr : F64) : Coeffs :=
  let c := fdiv (ν 5) Config.one (tanF (halfBandwidth ν f q sr))
  let d := fmul (ν 6) Config.two (cosF (centreAngle ν f sr))
  let a0 := fdiv (ν 8) Config.one (fadd (ν 7) Config.one c)
  designed a0 (fmul (ν 10) (fmul (ν 9) c d) a0) (fmul (ν 12) (fsub (ν 11) Config.one c) a0)

/-- BRF design (R176). -/
def designBrf (ν : NanSource) (f q sr : F64) : Coeffs :=
  let c := tanF (halfBandwidth ν f q sr)
  let d := fmul (ν 6) Config.two (cosF (centreAngle ν f sr))
  let a0 := fdiv (ν 8) Config.one (fadd (ν 7) Config.one c)
  designed a0 (fmul (ν 9) (fneg d) a0) (fmul (ν 12) (fsub (ν 11) Config.one c) a0)

/-- `qres` (R177): the larger of `1/q` and `QRES_MIN`, `QRES_MIN` for a NaN. -/
def qres (ν : NanSource) (q : F64) : F64 :=
  let inv := fdiv (ν 2) Config.one q
  if fgt inv Config.qresMin then inv else Config.qresMin

/-- `C` of RLPF and RHPF (R177). -/
def resonantC (ν : NanSource) (f q sr : F64) : F64 :=
  let d := tanF (fmul (ν 4) (fmul (ν 3) (centreAngle ν f sr) (qres ν q)) Config.half)
  fdiv (ν 7) (fsub (ν 5) Config.one d) (fadd (ν 6) Config.one d)

/-- `b1` of RLPF and RHPF (R177). -/
def resonantB1 (ν : NanSource) (f sr c : F64) : F64 :=
  fmul (ν 9) (fadd (ν 8) Config.one c) (cosF (centreAngle ν f sr))

/-- RLPF design (R177). -/
def designRlpf (ν : NanSource) (f q sr : F64) : Coeffs :=
  let c := resonantC ν f q sr
  let b1 := resonantB1 ν f sr c
  designed (fmul (ν 12) (fsub (ν 11) (fadd (ν 10) Config.one c) b1) Config.quarter) b1 (fneg c)

/-- RHPF design (R178). -/
def designRhpf (ν : NanSource) (f q sr : F64) : Coeffs :=
  let c := resonantC ν f q sr
  let b1 := resonantB1 ν f sr c
  designed (fmul (ν 12) (fadd (ν 11) (fadd (ν 10) Config.one c) b1) Config.quarter) b1 (fneg c)

/-- RESONZ design (R179). -/
def designResonz (ν : NanSource) (f q sr : F64) : Coeffs :=
  let ff := centreAngle ν f sr
  let b := fmul (ν 3) ff (fdiv (ν 2) Config.one q)
  let r := fsub (ν 5) Config.one (fmul (ν 4) b Config.half)
  let twoR := fmul (ν 6) Config.two r
  let r2 := fmul (ν 7) r r
  let cost := fdiv (ν 10) (fmul (ν 8) twoR (cosF ff)) (fadd (ν 9) Config.one r2)
  designed (fmul (ν 12) (fsub (ν 11) Config.one r2) Config.half) (fmul (ν 13) twoR cost) (fneg r2)

/-- The pass-through of BIQUAD (R180). -/
def passThrough : Coeffs := { c0 := Config.one, c1 := F64.zero, c2 := F64.zero, c3 := F64.zero, c4 := F64.zero }

/-- `Design_variant(f, q, sr)` (R173 to R180). -/
def design (ν : NanSource) (v : IirVariant) (f q sr : F64) : Coeffs :=
  match v with
  | .lpf => designLpf ν f sr
  | .hpf => designHpf ν f sr
  | .bpf => designBpf ν f q sr
  | .brf => designBrf ν f q sr
  | .rlpf => designRlpf ν f q sr
  | .rhpf => designRhpf ν f q sr
  | .resonz => designResonz ν f q sr
  | .biquad => passThrough

/-- Every coefficient finite (R191). -/
def Coeffs.finite (c : Coeffs) : Bool :=
  isFinite c.c0 && isFinite c.c1 && isFinite c.c2 && isFinite c.c3 && isFinite c.c4

/-- The sample rate is usable: finite and above 0 (R191, R192). -/
def validRate (sr : F64) : Bool := isFinite sr && fgt sr F64.zero

/-- A design, or nothing where it fails (R191). -/
def tryDesign (ν : NanSource) (v : IirVariant) (f q sr : F64) : Option Coeffs :=
  if validRate sr && isFinite f && isFinite q && (design ν v f q sr).finite then some (design ν v f q sr) else none

/-! ### The sample step (R181 to R188) -/

/-- `y0` of LPF, HPF, BPF and RESONZ (R183, R184). -/
def recursionAdded (ν : NanSource) (c : Coeffs) (x y1 y2 : F64) : F64 :=
  fadd (ν 4) (fadd (ν 2) x (fmul (ν 1) c.c1 y1)) (fmul (ν 3) c.c2 y2)

/-- `(y0, out)` of a variant (R183 to R187). -/
def iirStep (ν : NanSource) (v : IirVariant) (c : Coeffs) (x y1 y2 : F64) : F64 × F64 :=
  match v with
  | .lpf =>
    let y0 := recursionAdded ν c x y1 y2
    (y0, fmul (ν 8) c.c0 (fadd (ν 7) (fadd (ν 6) y0 (fmul (ν 5) Config.two y1)) y2))
  | .hpf =>
    let y0 := recursionAdded ν c x y1 y2
    (y0, fmul (ν 8) c.c0 (fadd (ν 7) (fsub (ν 6) y0 (fmul (ν 5) Config.two y1)) y2))
  | .bpf | .resonz =>
    let y0 := recursionAdded ν c x y1 y2
    (y0, fmul (ν 6) c.c0 (fsub (ν 5) y0 y2))
  | .brf =>
    let ay := fmul (ν 1) c.c1 y1
    let y0 := fsub (ν 4) (fsub (ν 2) x ay) (fmul (ν 3) c.c2 y2)
    (y0, fadd (ν 7) (fmul (ν 6) c.c0 (fadd (ν 5) y0 y2)) ay)
  | .rlpf =>
    let y0 := fadd (ν 5) (fadd (ν 3) (fmul (ν 1) c.c0 x) (fmul (ν 2) c.c1 y1)) (fmul (ν 4) c.c2 y2)
    (y0, fadd (ν 8) (fadd (ν 7) y0 (fmul (ν 6) Config.two y1)) y2)
  | .rhpf =>
    let y0 := fadd (ν 5) (fadd (ν 3) (fmul (ν 1) c.c0 x) (fmul (ν 2) c.c1 y1)) (fmul (ν 4) c.c2 y2)
    (y0, fadd (ν 8) (fsub (ν 7) y0 (fmul (ν 6) Config.two y1)) y2)
  | .biquad =>
    let y0 := fsub (ν 4) (fsub (ν 2) x (fmul (ν 1) c.c3 y1)) (fmul (ν 3) c.c4 y2)
    (y0, fadd (ν 9) (fadd (ν 7) (fmul (ν 5) c.c0 y0) (fmul (ν 6) c.c1 y1)) (fmul (ν 8) c.c2 y2))

/-- `x` of R181: the gain applies to the input. -/
def gained (ν : NanSource) (S : IirState) (a : F64) : F64 := fmul (ν 0) S.gain a

/-- IIR_SAMPLE (R181, R188): the output is unflushed, the stored history is flushed. -/
def iirSampleBody (ν : NanSource) (o : Operands) (S : IirState) : BodyResult IirState :=
  let p := iirStep ν S.variant S.c (gained ν S (asB64 o.opa)) S.y1 S.y2
  .done { S with y2 := flush S.y1, y1 := flush p.1 } { res0 := some p.2 } noWarning

/-! ### IIR_CONFIG (R192) -/

/-- The fields IIR_CONFIG sets (R192; 10_state.md R34). -/
def freshIir (v : IirVariant) (f q : F64) (c : Coeffs) : IirState :=
  { cfg := true, variant := v, freq := f, q := q, gain := Config.one, y1 := F64.zero, y2 := F64.zero, c := c }

/-- IIR_CONFIG of a variant (R192): the rate check, then the design; BIQUAD takes its operands unchecked. -/
def iirConfigBody (v : IirVariant) (ν : NanSource) (o : Operands) (_ : IirState) : BodyResult IirState :=
  let f := asB64 o.opa
  let q := asB64 o.opb
  let sr := asB64 o.sr
  if !validRate sr then .error .cfgSampleRate
  else if v = .biquad then .done (freshIir v f q passThrough) {} noWarning
  else
    match tryDesign ν v f q sr with
    | none => .error .cfgDesign
    | some c => .done (freshIir v f q c) {} noWarning

/-- IIR_CONFIG as a command of the family. -/
def iirConfig (v : IirVariant) : Command IirState :=
  { config := true, applies := fun _ => true, body := iirConfigBody v }

/-- IIR_CONFIG.LPF (R192, R173). -/
def execIirConfigLpf (s : State) : Host.Outcome State Fault Refusal := runCommand iirFamily (iirConfig .lpf) s

/-- IIR_CONFIG.HPF (R192, R174). -/
def execIirConfigHpf (s : State) : Host.Outcome State Fault Refusal := runCommand iirFamily (iirConfig .hpf) s

/-- IIR_CONFIG.BPF (R192, R175). -/
def execIirConfigBpf (s : State) : Host.Outcome State Fault Refusal := runCommand iirFamily (iirConfig .bpf) s

/-- IIR_CONFIG.BRF (R192, R176). -/
def execIirConfigBrf (s : State) : Host.Outcome State Fault Refusal := runCommand iirFamily (iirConfig .brf) s

/-- IIR_CONFIG.RLPF (R192, R177). -/
def execIirConfigRlpf (s : State) : Host.Outcome State Fault Refusal := runCommand iirFamily (iirConfig .rlpf) s

/-- IIR_CONFIG.RHPF (R192, R178). -/
def execIirConfigRhpf (s : State) : Host.Outcome State Fault Refusal := runCommand iirFamily (iirConfig .rhpf) s

/-- IIR_CONFIG.RESONZ (R192, R179). -/
def execIirConfigResonz (s : State) : Host.Outcome State Fault Refusal := runCommand iirFamily (iirConfig .resonz) s

/-- IIR_CONFIG.BIQUAD (R192, R180). -/
def execIirConfigBiquad (s : State) : Host.Outcome State Fault Refusal := runCommand iirFamily (iirConfig .biquad) s

/-! ### Setters (R193 to R197, R201) -/

/-- IIR_SET_FREQ (R193): history kept. -/
def iirSetFreqBody (ν : NanSource) (o : Operands) (S : IirState) : BodyResult IirState :=
  match tryDesign ν S.variant (asB64 o.opa) S.q (asB64 o.sr) with
  | none => .error .domainDesign
  | some c => .done { S with freq := asB64 o.opa, c := c } {} noWarning

/-- IIR_SET_FREQ: WRONG_VARIANT on BIQUAD. -/
def execIirSetFreq (s : State) : Host.Outcome State Fault Refusal :=
  runCommand iirFamily { config := false, applies := fun S => S.variant != .biquad, body := iirSetFreqBody } s

/-- IIR_SET_Q (R194): history kept. -/
def iirSetQBody (ν : NanSource) (o : Operands) (S : IirState) : BodyResult IirState :=
  match tryDesign ν S.variant S.freq (asB64 o.opa) (asB64 o.sr) with
  | none => .error .domainDesign
  | some c => .done { S with q := asB64 o.opa, c := c } {} noWarning

/-- IIR_SET_Q: WRONG_VARIANT on BIQUAD. -/
def execIirSetQ (s : State) : Host.Outcome State Fault Refusal :=
  runCommand iirFamily { config := false, applies := fun S => S.variant != .biquad, body := iirSetQBody } s

/-- ClampRadius (R201), `r` not NaN. -/
def clampRadius (r : F64) : F64 × Warnings :=
  if flt r F64.zero then (F64.zero, wRadius)
  else if fgt r Config.one then (Config.one, wRadius)
  else (r, noWarning)

/-- The operand check of IIR_SET_RESONANCE and IIR_SET_NOTCH (R195, R196). -/
def radiusOperandsValid (o : Operands) : Bool :=
  validRate (asB64 o.sr) && isFinite (asB64 o.opa) && !isNaN (asB64 o.opb)

/-- `(-2.0 * r) * cosF((TWO_PI * f) / sr)` (R195, R196). -/
def radiusTerm (ν : NanSource) (r f sr : F64) : F64 :=
  fmul (ν 3) (fmul (ν 0) Config.minusTwo r) (cosF (fdiv (ν 2) (fmul (ν 1) Config.twoPi f) sr))

/-- The coefficients after IIR_SET_RESONANCE with clamped radius `r` (R195). -/
def withResonance (ν : NanSource) (norm : Bool) (c : Coeffs) (r f sr : F64) : Coeffs :=
  let a2 := fmul (ν 4) r r
  let c := { c with c4 := a2, c3 := radiusTerm ν r f sr }
  if norm then
    let b0 := fsub (ν 6) Config.half (fmul (ν 5) Config.half a2)
    { c with c0 := b0, c1 := F64.zero, c2 := fneg b0 }
  else c

/-- IIR_SET_RESONANCE (R195). -/
def iirSetResonanceBody (norm : Bool) (ν : NanSource) (o : Operands) (S : IirState) : BodyResult IirState :=
  if !radiusOperandsValid o then .error .domainDesign
  else
    let p := clampRadius (asB64 o.opb)
    let c := withResonance ν norm S.c p.1 (asB64 o.opa) (asB64 o.sr)
    if c.finite then .done { S with c := c } {} p.2 else .error .domainDesign

/-- IIR_SET_RESONANCE, NORM = 0: WRONG_VARIANT unless BIQUAD. -/
def execIirSetResonance (s : State) : Host.Outcome State Fault Refusal :=
  runCommand iirFamily
    { config := false, applies := fun S => S.variant == .biquad, body := iirSetResonanceBody false } s

/-- IIR_SET_RESONANCE, NORM = 1. -/
def execIirSetResonanceNorm (s : State) : Host.Outcome State Fault Refusal :=
  runCommand iirFamily
    { config := false, applies := fun S => S.variant == .biquad, body := iirSetResonanceBody true } s

/-- The coefficients after IIR_SET_NOTCH with clamped radius `r` (R196). -/
def withNotch (ν : NanSource) (c : Coeffs) (r f sr : F64) : Coeffs :=
  { c with c2 := fmul (ν 4) r r, c1 := radiusTerm ν r f sr }

/-- IIR_SET_NOTCH (R196). -/
def iirSetNotchBody (ν : NanSource) (o : Operands) (S : IirState) : BodyResult IirState :=
  if !radiusOperandsValid o then .error .domainDesign
  else
    let p := clampRadius (asB64 o.opb)
    let c := withNotch ν S.c p.1 (asB64 o.opa) (asB64 o.sr)
    if c.finite then .done { S with c := c } {} p.2 else .error .domainDesign

/-- IIR_SET_NOTCH: WRONG_VARIANT unless BIQUAD. -/
def execIirSetNotch (s : State) : Host.Outcome State Fault Refusal :=
  runCommand iirFamily { config := false, applies := fun S => S.variant == .biquad, body := iirSetNotchBody } s

/-- IIR_SET_GAIN (R197). -/
def iirSetGainBody (_ : NanSource) (o : Operands) (S : IirState) : BodyResult IirState :=
  if isFinite (asB64 o.opa) then .done { S with gain := asB64 o.opa } {} noWarning else .error .domainDesign

/-- IIR_SET_GAIN. -/
def execIirSetGain (s : State) : Host.Outcome State Fault Refusal :=
  runCommand iirFamily { config := false, applies := fun _ => true, body := iirSetGainBody } s

/-! ### IIR_SAMPLE, IIR_CLEAR (R198, R199) -/

/-- IIR_SAMPLE (R198). -/
def execIirSample (s : State) : Host.Outcome State Fault Refusal :=
  runCommand iirFamily { config := false, applies := fun _ => true, body := iirSampleBody } s

/-- IIR_CLEAR (R199): the history only. -/
def clearIir (S : IirState) : IirState := { S with y1 := F64.zero, y2 := F64.zero }

/-- IIR_CLEAR. -/
def execIirClear (s : State) : Host.Outcome State Fault Refusal :=
  runCommand iirFamily
    { config := false, applies := fun _ => true, body := fun _ _ S => .done (clearIir S) {} noWarning } s

end Sys2Proof.Machine
end

