-- ==== Sys2Proof/Machine/Rev.lean ====
section
/-! DEFINITION. The reverberator networks (43_reverberator.md). Arithmetic takes a NaN source `ν`; within one tick each
operation uses an index of its own: the stage on line `k` those from `16 * k`, the sums and the mix those from 256
(log 6). -/

namespace Sys2Proof.Machine

/-! ### Lengths (R221, R222, R223) -/

/-- No odd number from `i` below `lim` divides `n` (the loop of R222); `fuel` bounds the iterations. -/
def noOddDivisor (n lim : Nat) : Nat → Nat → Bool
  | 0, _ => true
  | fuel + 1, i => if i < lim then (if n % i = 0 then false else noOddDivisor n lim fuel (i + 2)) else true

/-- `floor(sqrt(i2f(n))) + 1` (R222). The square root of an integer is never NaN, so no NaN is drawn. -/
def divisorLimit (n : Nat) : Nat := (ffloor (fsqrt ⟨false, ⟨0, by decide⟩⟩ (i2f n))).toNat + 1

/-- `isPrime` (R222). -/
def isPrime (n : Nat) : Bool :=
  if n = 2 then true
  else if n % 2 = 0 then false
  else noOddDivisor n (divisorLimit n) (divisorLimit n) 3

/-- The loop of R223: add 2 until `isPrime`; `fuel` bounds the iterations (log 15). -/
def nextPrime : Nat → Nat → Nat
  | 0, n => n
  | fuel + 1, n => if isPrime n then n else nextPrime fuel (n + 2)

/-- `floor((sr / ref) * L)`, made odd (R223). `sr` and `ref` are finite and above 0, so the NaN arguments are never
used. -/
def oddLength (sr ref : F64) (l : Nat) : Nat :=
  let n := (ffloor (fmul ⟨false, ⟨0, by decide⟩⟩ (fdiv ⟨false, ⟨0, by decide⟩⟩ sr ref) (i2f l))).toNat
  if n % 2 = 0 then n + 1 else n

/-- `Rescale(L, sr, ref)` (R223). -/
def rescale (l : Nat) (sr ref : F64) : Nat := nextPrime (oddLength sr ref l) (oddLength sr ref l)

/-- Nominal lengths of a topology (R221). -/
def nominal : RevTopology → List Nat
  | .a => Config.nominalA
  | .b => Config.nominalB
  | .c => Config.nominalC

/-- Reference rate of a topology (R221). -/
def refRate : RevTopology → F64
  | .a | .c => Config.ref44100
  | .b => Config.ref25641

/-- Default mix of a topology (R221). -/
def mixDefault : RevTopology → F64
  | .a | .b => Config.mixDefaultAB
  | .c => Config.mixDefaultC

/-- The line indices of the combs, in comb order (R225). -/
def combLines : RevTopology → List Nat
  | .a => [0, 1, 2, 3]
  | .b => [0, 1, 2, 3, 4, 5]
  | .c => [2, 3]

/-- The words lines of these lengths take (R228). -/
def ramNeed (lens : List Nat) : Nat := (lens.map (· + 1)).sum

/-- The rescaled lengths, or nothing where they need more than `ramWords` words (R227). A length is never below its
starting point, so the search is not begun when the starting points alone need too much (R227, U19; log 15). -/
def fittingLengths (t : RevTopology) (sr : F64) (ramWords : Nat) : Option (List Nat) :=
  if ramWords < ramNeed ((nominal t).map (oddLength sr (refRate t))) then none
  else
    let lens := (nominal t).map (fun l => rescale l sr (refRate t))
    if ramWords < ramNeed lens then none else some lens

/-! ### Gains and lines (R224, R225, R226) -/

/-- The gain of a comb on a line of length `l` (R225), `k` its number. -/
def combGain (ν : NanSource) (k : Nat) (l : Nat) (t60 sr : F64) : F64 :=
  pow10F (fdiv (ν (16 * k + 2)) (fmul (ν (16 * k)) Config.minusThree (i2f l)) (fmul (ν (16 * k + 1)) t60 sr))

/-- The gains of all combs, in comb order (R225). -/
def combGains (ν : NanSource) (t : RevTopology) (lens : List Nat) (t60 sr : F64) : List F64 :=
  (combLines t).map (fun k => combGain ν k (lens.getD k 0) t60 sr)

/-- An internal line of length `l` after REV_CONFIG (R224). -/
def freshLine (l : Nat) : Line :=
  { cap := l + 1, w := 0, r := 1 % (l + 1), delay := i2f l, last := F64.zero, buf := [] }

/-- `line[k]`. -/
def lineAt (ls : List Line) (k : Nat) : Line := ls.getD k Line.blank

/-- `line[k].Tick(x)` (R224). The returned value is `(lineAt _ k).last` of the result. -/
def tickLine (ls : List Line) (k : Nat) (x : F64) : List Line := ls.set k ((lineAt ls k).tick x)

/-- A stage's value with the lines it leaves. -/
structure Staged where
  val   : F64
  lines : List Line
  deriving DecidableEq, Repr

/-- `AP(k, x)` (R226). -/
def allpassStage (ν : NanSource) (k : Nat) (x : F64) (ls : List Line) : Staged :=
  let t := (lineAt ls k).last
  let u := flush (fadd (ν (16 * k + 1)) (fmul (ν (16 * k)) Config.revApCoeff t) x)
  { val := fadd (ν (16 * k + 3)) (fneg (fmul (ν (16 * k + 2)) Config.revApCoeff u)) t, lines := tickLine ls k u }

/-- `v <- F(AP(k, v))` for each `k` in turn (R232, R233, R234). -/
def allpassChain (ν : NanSource) (ks : List Nat) (x : F64) (ls : List Line) : Staged :=
  ks.foldl (fun a k => let b := allpassStage ν k a.val a.lines; { b with val := flush b.val }) ⟨x, ls⟩

/-- A comb's input `F(v + g * line[k].last)` (R232, R233, R234). -/
def combInput (ν : NanSource) (k : Nat) (g v : F64) (ls : List Line) : F64 :=
  flush (fadd (ν (16 * k + 1)) v (fmul (ν (16 * k)) g (lineAt ls k).last))

/-- `(m * wet) + ((1.0 - m) * x)` (R232, R233, R234), with NaNs from `b`. -/
def mixOut (ν : NanSource) (b : Nat) (m wet x : F64) : F64 :=
  fadd (ν (b + 3)) (fmul (ν b) m wet) (fmul (ν (b + 2)) (fsub (ν (b + 1)) Config.one m) x)

/-- What a tick computes: the outputs, the lines, the lowpass state. -/
structure RevOut where
  left  : F64
  right : F64
  lines : List Line
  lp    : F64
  deriving DecidableEq, Repr

/-- Tick of topology A (R232). -/
def tickA (ν : NanSource) (S : RevState) (x : F64) : RevOut :=
  let v := allpassChain ν [4, 5, 6] x S.lines
  let c := fun (j : Nat) => combInput ν j (S.cg.getD j F64.zero) v.val v.lines
  let ls := [0, 1, 2, 3].foldl (fun l j => tickLine l j (c j)) v.lines
  let s := flush (fadd (ν 258) (fadd (ν 257) (fadd (ν 256) (c 0) (c 1)) (c 2)) (c 3))
  let ls := tickLine ls 7 s
  let ls := tickLine ls 8 s
  { left := mixOut ν 264 S.mix (lineAt ls 7).last x
    right := mixOut ν 272 S.mix (lineAt ls 8).last x
    lines := ls
    lp := S.lp }

/-- One comb of topology B (R233): the comb sum takes the comb's output. -/
def combB (ν : NanSource) (S : RevState) (x : F64) (a : Staged) (j : Nat) : Staged :=
  let ls := tickLine a.lines j (combInput ν j (S.cg.getD j F64.zero) x a.lines)
  { val := flush (fadd (ν (16 * j + 2)) a.val (lineAt ls j).last), lines := ls }

/-- Tick of topology B (R233). -/
def tickB (ν : NanSource) (S : RevState) (x : F64) : RevOut :=
  let s := [0, 1, 2, 3, 4, 5].foldl (combB ν S x) ⟨F64.zero, S.lines⟩
  let s := allpassChain ν [6, 7, 8] s.val s.lines
  let lp := flush (fadd (ν 258) (fmul (ν 256) Config.lpKeep S.lp) (fmul (ν 257) Config.lpIn s.val))
  let v := allpassChain ν [9] lp s.lines
  let l := allpassStage ν 10 v.val v.lines
  let r := allpassStage ν 11 v.val l.lines
  { left := mixOut ν 264 S.mix l.val x, right := mixOut ν 272 S.mix r.val x, lines := r.lines, lp := lp }

/-- Tick of topology C (R234). -/
def tickC (ν : NanSource) (S : RevState) (x : F64) : RevOut :=
  let v := allpassChain ν [0, 1] x S.lines
  let c0 := combInput ν 2 (S.cg.getD 0 F64.zero) v.val v.lines
  let c1 := combInput ν 3 (S.cg.getD 1 F64.zero) v.val v.lines
  let ls := tickLine v.lines 2 c0
  let ls := tickLine ls 3 c1
  { left := mixOut ν 264 S.mix (lineAt ls 2).last x
    right := mixOut ν 272 S.mix (lineAt ls 3).last x
    lines := ls
    lp := S.lp }

/-- `Tick_topology` (R231). -/
def tickRev (ν : NanSource) (S : RevState) (x : F64) : RevOut :=
  match S.topo with
  | .a => tickA ν S x
  | .b => tickB ν S x
  | .c => tickC ν S x

/-- The mono output `(L + R) * 0.5` (R231). -/
def monoOut (ν : NanSource) (l r : F64) : F64 := fmul (ν 281) (fadd (ν 280) l r) Config.half

/-! ### Commands (R227, R230, R231, R235) -/

/-- The fields REV_CONFIG sets (R227). -/
def freshRev (ν : NanSource) (t : RevTopology) (t60 sr : F64) (lens : List Nat) : RevState :=
  { cfg := true, topo := t, t60 := t60, srcfg := sr, mix := mixDefault t, len := lens,
    cg := combGains ν t lens t60 sr, lp := F64.zero, lastL := F64.zero, lastR := F64.zero,
    lines := lens.map freshLine }

/-- Finite and above 0 (R227). -/
def positiveFinite (v : F64) : Bool := isFinite v && fgt v F64.zero

/-- REV_CONFIG (R227): the checks in order, then everything fresh. -/
def revConfigBody (t : RevTopology) (ramWords : Nat) (ν : NanSource) (o : Operands) (_ : RevState) :
    BodyResult RevState :=
  if !positiveFinite (asB64 o.sr) then .error .cfgSampleRate
  else if !positiveFinite (asB64 o.opa) then .error .cfgT60
  else
    match fittingLengths t (asB64 o.sr) ramWords with
    | none => .error .cfgRam
    | some lens => .done (freshRev ν t (asB64 o.opa) (asB64 o.sr) lens) {} noWarning

/-- REV_CONFIG as a command of the family. -/
def revConfig (t : RevTopology) (ramWords : Nat) : Command RevState :=
  { config := true, applies := fun _ => true, body := revConfigBody t ramWords }

/-- REV_CONFIG.A (R227). -/
def execRevConfigA (s : State) : Host.Outcome State Fault Refusal :=
  runCommand revFamily (revConfig .a s.params.revRamWords) s

/-- REV_CONFIG.B (R227). -/
def execRevConfigB (s : State) : Host.Outcome State Fault Refusal :=
  runCommand revFamily (revConfig .b s.params.revRamWords) s

/-- REV_CONFIG.C (R227). -/
def execRevConfigC (s : State) : Host.Outcome State Fault Refusal :=
  runCommand revFamily (revConfig .c s.params.revRamWords) s

/-- The clamp of REV_SET_MIX (R230), `m` not NaN. -/
def clampMix (m : F64) : F64 × Warnings :=
  if flt m F64.zero then (F64.zero, wMix)
  else if fgt m Config.one then (Config.one, wMix)
  else (m, noWarning)

/-- REV_SET_MIX (R230). -/
def revSetMixBody (_ : NanSource) (o : Operands) (S : RevState) : BodyResult RevState :=
  if isNaN (asB64 o.opa) then .error .domainMixNan
  else
    let p := clampMix (asB64 o.opa)
    .done { S with mix := p.1 } {} p.2

/-- REV_SET_MIX. -/
def execRevSetMix (s : State) : Host.Outcome State Fault Refusal :=
  runCommand revFamily { config := false, applies := fun _ => true, body := revSetMixBody } s

/-- REV_TICK (R231). -/
def revTickBody (ν : NanSource) (o : Operands) (S : RevState) : BodyResult RevState :=
  let p := tickRev ν S (asB64 o.opa)
  .done { S with lines := p.lines, lp := p.lp, lastL := p.left, lastR := p.right }
    { res0 := some (monoOut ν p.left p.right), res1 := some p.left, res2 := some p.right } noWarning

/-- REV_TICK. -/
def execRevTick (s : State) : Host.Outcome State Fault Refusal :=
  runCommand revFamily { config := false, applies := fun _ => true, body := revTickBody } s

/-- REV_CLEAR (R235): lines, lowpass state and last outputs; indices, lengths, gains and mix kept. -/
def clearRev (S : RevState) : RevState :=
  { S with lines := S.lines.map Line.clear, lp := F64.zero, lastL := F64.zero, lastR := F64.zero }

/-- REV_CLEAR. -/
def execRevClear (s : State) : Host.Outcome State Fault Refusal :=
  runCommand revFamily
    { config := false, applies := fun _ => true, body := fun _ _ S => .done (clearRev S) {} noWarning } s

end Sys2Proof.Machine
end

