-- ==== Sys2Proof/Machine/Dispatch.lean ====
section
/-! DEFINITION. One arm per command: its meaning on the unit the command addresses. -/

namespace Sys2Proof.Machine

def exec (i : Instr) (s : State) : Host.Outcome State Fault Refusal :=
  match i with
  | .nop => Sys2Proof.Machine.execNop s
  | .fdlConfigFixed => Sys2Proof.Machine.execFdlConfigFixed s
  | .fdlConfigAllpass => Sys2Proof.Machine.execFdlConfigAllpass s
  | .fdlConfigLinear => Sys2Proof.Machine.execFdlConfigLinear s
  | .fdlSetDelay => Sys2Proof.Machine.execFdlSetDelay s
  | .fdlClear => Sys2Proof.Machine.execFdlClear s
  | .fdlTick => Sys2Proof.Machine.execFdlTick s
  | .fdlNextOut => Sys2Proof.Machine.execFdlNextOut s
  | .fdlContentsAt => Sys2Proof.Machine.execFdlContentsAt s
  | .fdlEnergy => Sys2Proof.Machine.execFdlEnergy s
  | .iirConfigLpf => Sys2Proof.Machine.execIirConfigLpf s
  | .iirConfigHpf => Sys2Proof.Machine.execIirConfigHpf s
  | .iirConfigBpf => Sys2Proof.Machine.execIirConfigBpf s
  | .iirConfigBrf => Sys2Proof.Machine.execIirConfigBrf s
  | .iirConfigRlpf => Sys2Proof.Machine.execIirConfigRlpf s
  | .iirConfigRhpf => Sys2Proof.Machine.execIirConfigRhpf s
  | .iirConfigResonz => Sys2Proof.Machine.execIirConfigResonz s
  | .iirConfigBiquad => Sys2Proof.Machine.execIirConfigBiquad s
  | .iirSetFreq => Sys2Proof.Machine.execIirSetFreq s
  | .iirSetQ => Sys2Proof.Machine.execIirSetQ s
  | .iirSetResonance => Sys2Proof.Machine.execIirSetResonance s
  | .iirSetResonanceNorm => Sys2Proof.Machine.execIirSetResonanceNorm s
  | .iirSetNotch => Sys2Proof.Machine.execIirSetNotch s
  | .iirSetGain => Sys2Proof.Machine.execIirSetGain s
  | .iirSample => Sys2Proof.Machine.execIirSample s
  | .iirClear => Sys2Proof.Machine.execIirClear s
  | .revConfigA => Sys2Proof.Machine.execRevConfigA s
  | .revConfigB => Sys2Proof.Machine.execRevConfigB s
  | .revConfigC => Sys2Proof.Machine.execRevConfigC s
  | .revSetMix => Sys2Proof.Machine.execRevSetMix s
  | .revTick => Sys2Proof.Machine.execRevTick s
  | .revClear => Sys2Proof.Machine.execRevClear s

end Sys2Proof.Machine
end

