-- ==== Sys2Proof/Machine/Issue.lean ====
section
/-! DEFINITION. What a CMD write does (40_common.md R100): decode for the addressed unit's type, then reject or run. -/

namespace Sys2Proof.Machine

/-- The command word `v` written to CMD of unit `k` (R24, R84, R100). -/
def issue (k : Nat) (v : Word) (s : State) : Host.Outcome State Fault Refusal :=
  match s.units[k]? with
  | none => .refused .noUnitSelected
  | some u =>
    match decode u.body.type v with
    | .error c => .next (State.rejectCommand { s with sel := k } k c)
    | .ok i => exec i { s with sel := k }

/-- A request carried out on the state with its event taken off the schedule. -/
def perform (s : State) : Request → Host.Outcome State Fault Refusal
  | .reset => .next s.powerOn
  | .outside addr => .refused (.outsideWindows addr)
  | .busError addr width => .fault (.busError addr width)
  | .read k off => .next (s.doRead k off)
  | .write k off v => .next (s.doWrite k off v)
  | .command k v => issue k v s

/-- The next event, if any, carried out (20_memory.md R70). With nothing to do the machine idles (log 2). -/
def nextEvent (s : State) : Host.Outcome State Fault Refusal :=
  match s.bus with
  | [] => .next s
  | e :: rest => perform { s with bus := rest } (s.request e)

/-- The schedule with a write of a table word in front, addressed to the CMD register of the unit that accepts it. -/
def State.withCommand (s : State) (v : Word) : State :=
  match homeUnit s.units (homeOf v) with
  | some u => { s with bus := cmdWrite u.base v :: s.bus }
  | none => { s with bus := cmdWrite 0 v :: s.bus }

end Sys2Proof.Machine
end

