-- ==== Sys2Proof/Machine/Step.lean ====
section
/-! DEFINITION. One step: one host event, a command run to its end within it (20_memory.md R65, R70; 40_common.md
R100). -/

namespace Sys2Proof.Machine

/-- One step of the machine: the next event of the host's schedule. -/
def step (s : State) : Host.Outcome State Fault Refusal := nextEvent s

/-- `s` with the host about to write the command word of the low `nbits` bits of `w` to the CMD register of the unit
whose type accepts it (log 2: a program comes from outside, as host accesses). -/
def State.withFetchWord (s : State) (nbits w : Nat) : State := s.withCommand (BitVec.ofNat 64 (w % 2 ^ nbits))

end Sys2Proof.Machine
end

