-- ==== Sys2Proof/Machine/Asm.lean ====
section
/-! DEFINITION. Assembler command lines and pseudo-instructions as the host accesses they expand to (30_encoding.md
R88, R89). -/

namespace Sys2Proof.Machine

/-- `off(reg)` (10_state.md R20, R30, R33, R35). -/
def regOffset : Reg → Nat
  | .id => 0x000
  | .cmd => 0x008
  | .opa => 0x010
  | .opb => 0x018
  | .res0 => 0x020
  | .res1 => 0x028
  | .res2 => 0x030
  | .status => 0x038
  | .sr => 0x040
  | .mode => 0x048
  | .delay => 0x050
  | .cap => 0x058
  | .lastout => 0x060
  | .wptr => 0x068
  | .rptr => 0x070
  | .alpha => 0x078
  | .omalpha => 0x080
  | .coeff => 0x088
  | .apin => 0x090
  | .cache => 0x098
  | .cval => 0x0A0
  | .freq => 0x050
  | .q => 0x058
  | .gain => 0x060
  | .y1 => 0x068
  | .y2 => 0x070
  | .coef i => 0x078 + 8 * i
  | .mix => 0x050
  | .t60 => 0x058
  | .lastl => 0x060
  | .lastr => 0x068
  | .lpstate => 0x070
  | .nlines => 0x078
  | .len i => 0x080 + 8 * i
  | .cgain j => 0x100 + 8 * j
  | .srcfg => 0x130

/-- `MemWrite(base + off, 8, v)` (20_memory.md R60). -/
def memWrite (base off : Nat) (v : Word) : Event := .write (base + off) (bytesOfWord v)

/-- `MemRead(base + off, 8)` (20_memory.md R60). -/
def memRead (base off : Nat) : Event := .read (base + off) 8

/-- An operand write, where the operand is present (R88). -/
def operandWrite (base off : Nat) : Option Word → List Event
  | some v => [memWrite base off v]
  | none => []

/-- The accesses of a command line, in order: OPA, OPB, CMD (R88). -/
def expandLine (l : CommandLine) : List Event :=
  operandWrite l.base 0x010 l.opa ++ (operandWrite l.base 0x018 l.opb ++ [cmdWrite l.base (encode l.instr)])

/-- The accesses of a pseudo-instruction addressed to the unit at `base` (R89). -/
def expandPseudo (base : Nat) : Pseudo → List Event
  | .wr reg v => [memWrite base (regOffset reg) v]
  | .rd reg => [memRead base (regOffset reg)]
  | .clrStatus => [memWrite base (regOffset .status) 0x0000000000011F00#64]
  | .fdlPush x => expandLine ⟨base, .fdlTick, x, none⟩ ++ [memRead base (regOffset .res0)]
  | .iirPush x => expandLine ⟨base, .iirSample, x, none⟩ ++ [memRead base (regOffset .res0)]
  | .revPush x =>
    expandLine ⟨base, .revTick, x, none⟩ ++ [memRead base (regOffset .res1), memRead base (regOffset .res2)]
  | .revDry => expandLine ⟨base, .revSetMix, some 0x0000000000000000#64, none⟩
  | .revWet => expandLine ⟨base, .revSetMix, some 0x3FF0000000000000#64, none⟩
  | .setSr f => [memWrite base (regOffset .sr) f]
  | .check => [memRead base (regOffset .status)]

end Sys2Proof.Machine
end

