-- ==== Sys2Proof/Safety.lean ====
section
/-! DEFINITION. What a safe run is, and the invariants of the machine that the spec's rules give (10_state.md R32;
20_memory.md R66, R67; 41_delay_line.md R136; 42_iir_filter.md R188, R191; 43_reverberator.md R224, R230, R236;
60_exceptions.md R263, R268), in the terms the statements use. -/

namespace Sys2Proof.Machine

/-! ### Safe steps -/

/-- The state a step answers, if it answers one. -/
def nextState? : Host.Outcome State Fault Refusal → Option State
  | .next s => some s
  | .fault _ => none
  | .refused _ => none

/-- An event the machine takes without stopping: a reset, or an access of the admitted form inside a window
(20_memory.md R62; 60_exceptions.md R277). -/
def State.admits (s : State) : Event → Bool
  | .powerOnReset => true
  | .read addr width => (s.unitAt addr).isSome && (Event.read addr width).wellFormed
  | .write addr data => (s.unitAt addr).isSome && (Event.write addr data).wellFormed

/-- A schedule a correct host may issue: every event admitted. -/
def State.SafeSchedule (s : State) : Prop := ∀ e ∈ s.bus, s.admits e = true

/-! ### Terms of the statements -/

/-- The addressed unit. -/
def State.Addresses (s : State) (u : DspUnit) : Prop := s.units[s.sel]? = some u

/-- The CONFIG command of a delay-line variant (30_encoding.md R83). -/
def fdlConfigOf : FdlVariant → Instr
  | .fixed => .fdlConfigFixed
  | .allpass => .fdlConfigAllpass
  | .linear => .fdlConfigLinear

/-- The CONFIG command of a filter variant (30_encoding.md R83). -/
def iirConfigOf : IirVariant → Instr
  | .lpf => .iirConfigLpf
  | .hpf => .iirConfigHpf
  | .bpf => .iirConfigBpf
  | .brf => .iirConfigBrf
  | .rlpf => .iirConfigRlpf
  | .rhpf => .iirConfigRhpf
  | .resonz => .iirConfigResonz
  | .biquad => .iirConfigBiquad

/-- The CONFIG command of a topology (30_encoding.md R83). -/
def revConfigOf : RevTopology → Instr
  | .a => .revConfigA
  | .b => .revConfigB
  | .c => .revConfigC

/-- A command that runs in the UNCONFIGURED state too: NOP and the CONFIGs (10_state.md R21). -/
def runsUnconfigured (i : Instr) : Bool :=
  i.opcode == .nop || i.opcode == .fdlConfig || i.opcode == .iirConfig || i.opcode == .revConfig

/-- The last offset of a window that a rule names (10_state.md R20, R30, R33, R35); offsets above it are unnamed, and
so is every offset that is no multiple of 8. -/
def lastOffset : UnitType → Nat
  | .fdl => 0x0A0
  | .iir => 0x098
  | .rev => 0x130

/-! ### Invariants -/

/-- ERR and ERRCODE agree (60_exceptions.md R263, R268; 10_state.md R27). -/
def Regs.StatusInv (r : Regs) : Prop := r.err = false ↔ r.errcode = .noError

/-- `lo ≤ v ≤ hi`, so `v` is not NaN. -/
def InRange (lo v hi : F64) : Prop := fle lo v = true ∧ fle v hi = true

/-- The configured delay and the read index of each variant (10_state.md R32; 41_delay_line.md R136). -/
def FdlState.DelayInv (S : FdlState) : Prop :=
  match S.variant with
  | .fixed => ∃ d : Nat, d < S.line.cap ∧ S.line.delay = i2f d ∧ S.line.r = modCap ((S.line.w : Int) - d) S.line.cap
  | .allpass => InRange Config.apMinDelay S.line.delay (i2f ((S.line.cap : Int) - 1))
  | .linear => InRange F64.zero S.line.delay (i2f ((S.line.cap : Int) - 1))

/-- FDL invariant (10_state.md R32; 41_delay_line.md R136; 20_memory.md R66), `n` being `FDL_RAM_WORDS`. -/
def FdlState.Inv (n : Nat) (S : FdlState) : Prop :=
  S.line.buf.wf = true ∧ (∀ c ∈ S.line.buf, c.1 < n) ∧
  (S.cfg = true →
    2 ≤ S.line.cap ∧ S.line.cap ≤ n ∧ S.line.w < S.line.cap ∧ S.line.r < S.line.cap ∧ S.DelayInv)

/-- IIR invariant (42_iir_filter.md R188, R191, R197): flushed history, finite coefficients and gain, and finite
frequency and Q of a designed filter. -/
def IirState.Inv (S : IirState) : Prop :=
  flush S.y1 = S.y1 ∧ flush S.y2 = S.y2 ∧ S.c.finite = true ∧ isFinite S.gain = true ∧
  (S.variant ≠ .biquad → isFinite S.freq = true ∧ isFinite S.q = true)

/-- An internal line of a reverberator (43_reverberator.md R224, R236): read index one ahead of the write index, words
inside the line, every word and the output flushed. -/
def Line.RevInv (l : Line) : Prop :=
  l.w < l.cap ∧ l.r = nextIndex l.w l.cap ∧ l.buf.wf = true ∧ (∀ c ∈ l.buf, c.1 < l.cap ∧ flush c.2 = c.2) ∧
  flush l.last = l.last

/-- The number of internal lines of a topology (43_reverberator.md R220). -/
def lineCount : RevTopology → Nat
  | .a => 9
  | .b => 12
  | .c => 4

/-- REV invariant (43_reverberator.md R220, R224, R228, R230, R236), `n` being `REV_RAM_WORDS`. -/
def RevState.Inv (n : Nat) (S : RevState) : Prop :=
  S.lines.map (·.cap) = S.len.map (· + 1) ∧ (∀ l ∈ S.lines, l.RevInv) ∧ flush S.lp = S.lp ∧
  InRange F64.zero S.mix Config.one ∧
  (S.cfg = true →
    S.len.length = lineCount S.topo ∧ S.cg.length = (combLines S.topo).length ∧ ramNeed S.len ≤ n)

/-- The invariant of a unit's internal state. -/
def Body.Inv (p : Params) : Body → Prop
  | .fdl S => S.Inv p.fdlRamWords
  | .iir S => S.Inv
  | .rev S => S.Inv p.revRamWords

/-- Every unit's registers agree (R268). -/
def State.StatusInv (s : State) : Prop := ∀ u ∈ s.units, u.regs.StatusInv

/-- Every FDL unit keeps its invariant. -/
def State.FdlInv (s : State) : Prop := ∀ u ∈ s.units, ∀ S, u.body = .fdl S → S.Inv s.params.fdlRamWords

/-- Every IIR unit keeps its invariant. -/
def State.IirInv (s : State) : Prop := ∀ u ∈ s.units, ∀ S, u.body = .iir S → S.Inv

/-- Every REV unit keeps its invariant. -/
def State.RevInv (s : State) : Prop := ∀ u ∈ s.units, ∀ S, u.body = .rev S → S.Inv s.params.revRamWords

/-- What the platform fixed: the windows with their unit types, and the parameters. -/
def State.platform (s : State) : List (UnitType × Nat) × Params :=
  (s.units.map (fun u => (u.body.type, u.base)), s.params)

/-! ### Exact value of a number -/

/-- The real number a finite value stands for, as a rational; 0 for the others. -/
def valueOf : F64 → Rat
  | .fin s m => (if s then -1 else 1) * (significand m : Rat) * (2 : Rat) ^ (exponent m)
  | _ => 0

end Sys2Proof.Machine
end

