-- ==== Sys2Proof/Certificates/Slice0/Obligations.lean ====
section
/-! DEFINITION. The statements for the provers. Each docstring names the rules of spec/ it formalises. `s.afterCommand u`
is `s` with the addressed unit replaced by `u` and one draw of NaNs used; a conclusion `exec i s = .next (s.afterCommand
{ u with … })` therefore says the instruction's whole effect: every field not written out is unchanged. -/

open Sys2Proof Sys2Proof.Machine

/-! ### Encoding (30_encoding.md) -/

/-- R83: a unit decodes the word of every command it accepts to that command. -/
def Obligations.DecodeOfEncodeIsTheCommand : Prop :=
  ∀ (t : UnitType) (i : Instr), i.legalIn t = true → decode t (encode i) = .ok i

/-- R80, R83: a word that decodes is the one encoding of its command, and the unit accepts the command. -/
def Obligations.DecodedWordIsTheEncoding : Prop :=
  ∀ (t : UnitType) (w : Word) (i : Instr), decode t w = .ok i → w = encode i ∧ i.legalIn t = true

/-- R84 steps 1 to 3, R82, R85: which error a word that decodes to nothing gives. `o` is the opcode whose value stands
in OP, of a type the unit accepts. -/
def Obligations.DecodeErrorsComeInOrder : Prop :=
  ∀ (t : UnitType) (w : Word),
    ((∀ o : Opcode, opValue o = w.extractLsb' 0 8 → o.owner ≠ none ∧ o.owner ≠ some t) →
      decode t w = .error .illegalOpcode) ∧
    (∀ o : Opcode, opValue o = w.extractLsb' 0 8 → (o.owner = none ∨ o.owner = some t) →
      (w.extractLsb' 12 52 ≠ 0 → decode t w = .error .reservedBits) ∧
      (w.extractLsb' 12 52 = 0 → o.subCount ≤ (w.extractLsb' 8 4).toNat →
        decode t w = .error (if o = .fdlConfig ∨ o = .iirConfig ∨ o = .revConfig then .badVariant else .reservedBits)))

/-- R83: words written out from the opcode map decode to their commands. -/
def Obligations.WordsOfTheMapDecode : Prop :=
  decode .fdl 0x0000000000000000#64 = .ok .nop ∧ decode .fdl 0x0000000000000101#64 = .ok .fdlConfigAllpass ∧
  decode .fdl 0x0000000000000004#64 = .ok .fdlTick ∧ decode .iir 0x0000000000000611#64 = .ok .iirConfigResonz ∧
  decode .iir 0x0000000000000114#64 = .ok .iirSetResonanceNorm ∧ decode .iir 0x0000000000000018#64 = .ok .iirClear ∧
  decode .rev 0x0000000000000221#64 = .ok .revConfigC ∧ decode .rev 0x0000000000000023#64 = .ok .revTick

/-! ### Steps (20_memory.md, 40_common.md R100) -/

/-- R24, R100: a step whose event is an admitted write to CMD of a unit runs the command the word decodes to, on that
unit, with the event taken off the schedule. -/
def Obligations.StepRunsTheDecodedCommand : Prop :=
  ∀ (s : State) (a k : Nat) (data : List Byte) (rest : List Event) (u : DspUnit) (i : Instr),
    s.bus = .write a data :: rest → s.unitAt a = some k → s.units[k]? = some u → a = u.base + 0x008 → a % 8 = 0 →
    data.length = 8 → decode u.body.type (wordOfBytes data) = .ok i →
    step s = exec i { s with bus := rest, sel := k }

/-- R85, R261: a step whose event writes a word the unit does not decode sets ERR and ERRCODE of that unit and changes
nothing else of it. -/
def Obligations.StepRecordsARefusedWord : Prop :=
  ∀ (s : State) (a k : Nat) (data : List Byte) (rest : List Event) (u : DspUnit) (c : ErrCode),
    s.bus = .write a data :: rest → s.unitAt a = some k → s.units[k]? = some u → a = u.base + 0x008 → a % 8 = 0 →
    data.length = 8 → decode u.body.type (wordOfBytes data) = .error c →
    step s = .next { s with
      bus := rest
      sel := k
      units := s.units.set k { u with regs := { u.regs with err := true, errcode := c } } }

/-- R62, R277: an access inside a window of another width or alignment is a fault of the run. An access outside every
window is refused (the model's choice, log 9). -/
def Obligations.UnadmittedAccessesStop : Prop :=
  ∀ (s : State) (a k n : Nat) (data : List Byte) (rest : List Event),
    (s.unitAt a = some k → (n ≠ 8 ∨ a % 8 ≠ 0) → s.bus = .read a n :: rest → step s = .fault (.busError a n)) ∧
    (s.unitAt a = some k → (data.length ≠ 8 ∨ a % 8 ≠ 0) → s.bus = .write a data :: rest →
      step s = .fault (.busError a data.length)) ∧
    (s.unitAt a = none → s.bus = .read a n :: rest → step s = .refused (.outsideWindows a)) ∧
    (s.unitAt a = none → s.bus = .write a data :: rest → step s = .refused (.outsideWindows a))

/-- R60, R64, and the maps of R20, R23, R26, R29, R30, R33, R35: an admitted read returns the register's bytes and changes
nothing else; which field of the unit each offset shows, by unit type. STATUS (0x038) is `StatusFieldsReadAndClear`'s. -/
def Obligations.ReadReturnsTheRegister : Prop :=
  ∀ (s : State) (a k off : Nat) (rest : List Event) (u : DspUnit) (v : Word),
    s.bus = .read a 8 :: rest → s.unitAt a = some k → s.units[k]? = some u → a % 8 = 0 → off = a - u.base →
    v =
      (if off = 0x000 then
        (match u.body.type with
         | .fdl => 0x000046444C430101#64
         | .iir => 0x000046444C430102#64
         | .rev => 0x000046444C430103#64)
       else if off = 0x008 then 0
       else if off = 0x010 then u.regs.opa
       else if off = 0x018 then u.regs.opb
       else if off = 0x020 then u.regs.res0
       else if off = 0x028 then u.regs.res1
       else if off = 0x030 then u.regs.res2
       else if off = 0x038 then u.readReg 0x038
       else if off = 0x040 then u.regs.sr
       else match u.body with
        | .fdl S =>
          if off = 0x048 then (match S.variant with | .fixed => 0 | .allpass => 1 | .linear => 2)
          else if off = 0x050 then S.line.delay.toBits
          else if off = 0x058 then BitVec.ofNat 64 S.line.cap
          else if off = 0x060 then S.line.last.toBits
          else if off = 0x068 then BitVec.ofNat 64 S.line.w
          else if off = 0x070 then BitVec.ofNat 64 S.line.r
          else if off = 0x078 then S.alpha.toBits
          else if off = 0x080 then S.omalpha.toBits
          else if off = 0x088 then S.coeff.toBits
          else if off = 0x090 then S.apin.toBits
          else if off = 0x098 then (if S.cvalid then 1 else 0)
          else if off = 0x0A0 then S.cval.toBits
          else 0
        | .iir S =>
          if off = 0x048 then (match S.variant with
            | .lpf => 0 | .hpf => 1 | .bpf => 2 | .brf => 3 | .rlpf => 4 | .rhpf => 5 | .resonz => 6 | .biquad => 7)
          else if off = 0x050 then S.freq.toBits
          else if off = 0x058 then S.q.toBits
          else if off = 0x060 then S.gain.toBits
          else if off = 0x068 then S.y1.toBits
          else if off = 0x070 then S.y2.toBits
          else if off = 0x078 then S.c.c0.toBits
          else if off = 0x080 then S.c.c1.toBits
          else if off = 0x088 then S.c.c2.toBits
          else if off = 0x090 then S.c.c3.toBits
          else if off = 0x098 then S.c.c4.toBits
          else 0
        | .rev S =>
          if off = 0x048 then (match S.topo with | .a => 0 | .b => 1 | .c => 2)
          else if off = 0x050 then S.mix.toBits
          else if off = 0x058 then S.t60.toBits
          else if off = 0x060 then S.lastL.toBits
          else if off = 0x068 then S.lastR.toBits
          else if off = 0x070 then S.lp.toBits
          else if off = 0x078 then BitVec.ofNat 64 S.len.length
          else if off % 8 = 0 ∧ 0x080 ≤ off ∧ off < 0x100 then BitVec.ofNat 64 (S.len.getD ((off - 0x080) / 8) 0)
          else if off % 8 = 0 ∧ 0x100 ≤ off ∧ off < 0x130 then (S.cg.getD ((off - 0x100) / 8) F64.zero).toBits
          else if off = 0x130 then S.srcfg.toBits
          else 0) →
    step s = .next { s with bus := rest, readData := bytesOfWord v }

/-- R61: byte `k` of a register on the bus carries bits `[8k+7 : 8k]`, and eight bytes and a register value determine
each other. -/
def Obligations.RegisterBytesAreLittleEndian : Prop :=
  (∀ (v : Word) (k : Nat), k < 8 → (bytesOfWord v)[k]? = some (v.extractLsb' (8 * k) 8)) ∧
  (∀ v : Word, (bytesOfWord v).length = 8 ∧ wordOfBytes (bytesOfWord v) = v) ∧
  (∀ l : List Byte, l.length = 8 → bytesOfWord (wordOfBytes l) = l)

/-- R20, R25, R28, R63: an admitted write to a register other than CMD. OPA, OPB and SR store the value, STATUS follows
its own rule, every other offset ignores the write. -/
def Obligations.RegisterWritesStoreOrAreIgnored : Prop :=
  ∀ (s : State) (a k : Nat) (data : List Byte) (rest : List Event) (u : DspUnit),
    s.bus = .write a data :: rest → s.unitAt a = some k → s.units[k]? = some u → a % 8 = 0 → data.length = 8 →
    a ≠ u.base + 0x008 →
    step s = .next { s with
      bus := rest
      units := s.units.set k (
        if a = u.base + 0x010 then { u with regs := { u.regs with opa := wordOfBytes data } }
        else if a = u.base + 0x018 then { u with regs := { u.regs with opb := wordOfBytes data } }
        else if a = u.base + 0x038 then { u with regs := u.regs.writeStatus (wordOfBytes data) }
        else if a = u.base + 0x040 then { u with regs := { u.regs with sr := wordOfBytes data } }
        else u) }

/-- R63: an aligned 8-byte access to an offset no rule names is admitted, reads 0 and ignores a write; a read of CMD returns
0; a write to a read-only register is ignored; a 0 written to a W1C bit changes nothing. -/
def Obligations.ReservedOffsetsReadZeroAndIgnoreWrites : Prop :=
  ∀ (s : State) (a k off : Nat) (data : List Byte) (rest : List Event) (u : DspUnit),
    s.unitAt a = some k → s.units[k]? = some u → a % 8 = 0 → off = a - u.base → data.length = 8 →
    (lastOffset u.body.type < off ∨ off = 0x008 → s.bus = .read a 8 :: rest →
      step s = .next { s with bus := rest, readData := List.replicate 8 0#8 }) ∧
    (off ∉ [0x008, 0x010, 0x018, 0x038, 0x040] → s.bus = .write a data :: rest →
      step s = .next { s with bus := rest }) ∧
    (off = 0x038 → wordOfBytes data = 0 → s.bus = .write a data :: rest → step s = .next { s with bus := rest }) ∧
    (∀ (v : Word) (i : Nat), v.getLsbD i = false → i < 24 →
      ((u.writeReg 0x038 v).readReg 0x038).getLsbD i = (u.readReg 0x038).getLsbD i)

/-- R27: where each field of STATUS stands, READY mirroring `S.cfg` and every other bit reading 0; a write clears exactly
the warning bits and ERR written as 1, ERRCODE with ERR, and nothing else of the unit. R263: the codes' values. -/
def Obligations.StatusFieldsReadAndClear : Prop :=
  [ErrCode.noError, .illegalOpcode, .reservedBits, .badVariant, .notConfigured, .wrongVariant, .cfgMaxDelay, .cfgRam,
    .cfgDelayNan, .cfgSampleRate, .cfgT60, .cfgDesign, .domainDelayNan, .domainMixNan, .domainDesign].map errValue =
    [0x00, 0x01, 0x02, 0x03, 0x04, 0x05, 0x10, 0x11, 0x12, 0x13, 0x14, 0x15, 0x20, 0x21, 0x22] ∧
  ∀ (u : DspUnit) (v : Word) (i : Nat), i < 64 →
    (u.readReg 0x038).getLsbD i =
      (if i = 0 then u.body.ready
       else if 8 ≤ i ∧ i ≤ 12 then u.regs.warn.getLsbD (i - 8)
       else if i = 16 then u.regs.err
       else if 24 ≤ i ∧ i ≤ 31 then (errValue u.regs.errcode).getLsbD (i - 24)
       else false) ∧
    ((u.writeReg 0x038 v).readReg 0x038).getLsbD i =
      (if (8 ≤ i ∧ i ≤ 12) ∨ i = 16 then (u.readReg 0x038).getLsbD i && !v.getLsbD i
       else if 24 ≤ i ∧ i ≤ 31 then (u.readReg 0x038).getLsbD i && !v.getLsbD 16
       else (u.readReg 0x038).getLsbD i) ∧
    (∀ off : Nat, off ≠ 0x038 → (u.writeReg 0x038 v).readReg off = u.readReg off) ∧
    (u.writeReg 0x038 v).body = u.body ∧ (u.writeReg 0x038 v).base = u.base

/-- R20, R23, R290: what every register reads after reset, for any instance list and any parameters; power-on reset puts
every unit in that state and moves no window. (The schedule, the last read and the model's counters stay: log 17. That the
units are the model's reset units, with no RAM word and no REV line listed, is its form of what R291 leaves unspecified: logs
8 and 12.) -/
def Obligations.ResetPutsEveryUnitInItsResetState : Prop :=
  (∀ (l : List (UnitType × Nat)) (p : Params) (u : DspUnit) (off : Nat), u ∈ (State.resetWith l p).units →
    (u.body.type, u.base) ∈ l ∧ u.body.ready = false ∧
    u.readReg off =
      (if off = 0x000 then
        (match u.body.type with
         | .fdl => 0x000046444C430101#64
         | .iir => 0x000046444C430102#64
         | .rev => 0x000046444C430103#64)
       else if off = 0x040 then 0x40E5888000000000#64
       else 0)) ∧
  (∀ (s : State) (rest : List Event), s.bus = .powerOnReset :: rest →
    step s = .next { s with
      bus := rest, units := (State.resetWith (s.units.map (fun u => (u.body.type, u.base))) s.params).units })

/-- R62, R100, R277: a host whose accesses are all admitted runs to the end of its schedule; no command stops the
machine. -/
def Obligations.AdmittedScheduleNeverStops : Prop :=
  ∀ (s : State), s.SafeSchedule → ∀ n : Nat, ∃ t : State, Host.Core.run Sys2Proof.core n s = .next t

/-! ### Errors and warnings (60_exceptions.md) -/

/-- R84 steps 1, 4 and 5, R21, R261: the checks that depend on the unit, each with its code and its place in the order. A
command of another type is rejected with ILLEGAL_OPCODE, configured or not; then every command but NOP and CONFIG with
NOT_CONFIGURED in the UNCONFIGURED state; then the five commands that do not apply to every variant. -/
def Obligations.UnitChecksRejectInOrder : Prop :=
  ∀ (i : Instr) (s : State) (u : DspUnit) (c : ErrCode), s.Addresses u →
    ((i.legalIn u.body.type = false ∧ c = .illegalOpcode) ∨
     (i.legalIn u.body.type = true ∧ runsUnconfigured i = false ∧ u.body.ready = false ∧ c = .notConfigured) ∨
     (u.body.ready = true ∧ c = .wrongVariant ∧
       ((∃ S, u.body = .fdl S ∧ S.variant = .fixed ∧ i = .fdlNextOut) ∨
        (∃ S, u.body = .iir S ∧ S.variant = .biquad ∧ (i = .iirSetFreq ∨ i = .iirSetQ)) ∨
        (∃ S, u.body = .iir S ∧ S.variant ≠ .biquad ∧
          (i = .iirSetResonance ∨ i = .iirSetResonanceNorm ∨ i = .iirSetNotch))))) →
    exec i s = .next (s.afterCommand { u with regs := { u.regs with err := true, errcode := c } })

/-- R261, R262, R108: an instruction that leaves ERR set in a unit where it was clear leaves every register but ERR and
ERRCODE as it was. Unless the code is a CFG error it leaves the internal state too; with a CFG error, which only a CONFIG
raises, the unit is UNCONFIGURED, with MODE and every view reading 0. -/
def Obligations.ErrorsRestoreOrReset : Prop :=
  ∀ (i : Instr) (s t : State) (u u' : DspUnit), s.Addresses u → exec i s = .next t → t.Addresses u' →
    u.regs.err = false → u'.regs.err = true →
    u'.base = u.base ∧ u'.body.type = u.body.type ∧ u'.regs.errcode ≠ .noError ∧
    u'.regs = { u.regs with err := true, errcode := u'.regs.errcode } ∧
    (isCfgError u'.regs.errcode = false → u'.body = u.body) ∧
    (isCfgError u'.regs.errcode = true →
      (i.opcode = .fdlConfig ∨ i.opcode = .iirConfig ∨ i.opcode = .revConfig) ∧ u'.body.ready = false ∧
      u'.readReg 0x048 = 0 ∧ ∀ off : Nat, 0x050 ≤ off → u'.readReg off = 0)

/-- R266: no command clears a warning bit of any unit. -/
def Obligations.CommandsKeepWarnings : Prop :=
  ∀ (i : Instr) (s t : State) (k : Nat) (u : DspUnit), exec i s = .next t → s.units[k]? = some u →
    ∃ u', t.units[k]? = some u' ∧ ∀ b : Nat, u.regs.warn.getLsbD b = true → u'.regs.warn.getLsbD b = true

/-- R25, R26, R28, R103, R107: no command writes OPA, OPB or SR of any unit, only the six commands of R26's table write
RES0, and only REV_TICK writes RES1 and RES2. -/
def Obligations.OnlyResultCommandsWriteDataRegisters : Prop :=
  ∀ (i : Instr) (s t : State) (k : Nat) (u : DspUnit), exec i s = .next t → s.units[k]? = some u →
    ∃ u', t.units[k]? = some u' ∧ u'.regs.opa = u.regs.opa ∧ u'.regs.opb = u.regs.opb ∧ u'.regs.sr = u.regs.sr ∧
      (i ∉ [Instr.fdlTick, .fdlNextOut, .fdlContentsAt, .fdlEnergy, .iirSample, .revTick] →
        u'.regs.res0 = u.regs.res0) ∧
      (i ≠ .revTick → u'.regs.res1 = u.regs.res1 ∧ u'.regs.res2 = u.regs.res2)

/-- R276: a command changes no unit but the one it addresses, and nothing of the schedule, the parameters or the last
read. -/
def Obligations.OtherUnitsAreUntouched : Prop :=
  ∀ (i : Instr) (s t : State), exec i s = .next t →
    (∀ k : Nat, k ≠ s.sel → t.units[k]? = s.units[k]?) ∧ t.units.length = s.units.length ∧ t.sel = s.sel ∧
    t.bus = s.bus ∧ t.params = s.params ∧ t.readData = s.readData

/-- R3, R6, R68: no step moves a window, changes a unit's type or a parameter. -/
def Obligations.StepKeepsThePlatform : Prop :=
  ∀ (s t : State), step s = .next t → t.platform = s.platform

/-- R102: NOP is the word 0; with OP 0 any other word is RESERVED_BITS, in every unit type; it changes nothing, in every
unit, READY or not, with ERR set or not. -/
def Obligations.NopChangesNothing : Prop :=
  encode .nop = 0x0000000000000000#64 ∧
  (∀ (t : UnitType) (w : Word), w.extractLsb' 0 8 = 0 →
    decode t w = if w.extractLsb' 8 56 = 0 then .ok .nop else .error .reservedBits) ∧
  (∀ (s : State) (u : DspUnit), s.Addresses u → exec .nop s = .next s)

/-! ### Delay line (41_delay_line.md) -/

/-- R121: a valid FDL_CONFIG starts a fresh line of capacity `maxDelay + 1`, all words `+0.0`, and sets the delay from
OPA, whatever state the unit was in. -/
def Obligations.FdlConfigStartsAFreshLine : Prop :=
  ∀ (v : FdlVariant) (s : State) (u : DspUnit) (S : FdlState) (m : Nat), s.Addresses u → u.body = .fdl S →
    u.regs.opb.toInt = m → 1 ≤ m → m + 1 ≤ s.params.fdlRamWords →
    (v = .fixed ∨ isNaN (F64.ofBits u.regs.opa) = false) →
    ∃ (S' : FdlState) (w : Warnings),
      exec (fdlConfigOf v) s = .next (s.afterCommand { u with
        body := .fdl S', regs := { u.regs with warn := u.regs.warn ||| w } }) ∧
      (∀ i : Nat, S'.line.buf.read i = if i ≤ m then F64.zero else S.line.buf.read i) ∧
      (S', w) = setDelay (freeNans s.draws) v
        { cfg := true, variant := v,
          line := { cap := m + 1, w := 0, r := 0, delay := F64.zero, last := F64.zero, buf := S'.line.buf },
          alpha := F64.zero, omalpha := Config.one, coeff := F64.zero, apin := F64.zero, cvalid := false,
          cval := F64.zero } u.regs.opa

/-- R121, R192, R227, R228, R262, R264: the operand errors of the three CONFIGs in their order; each leaves the unit
UNCONFIGURED, whatever it was, with the buffer words `m` and the lines `ls` that R291 leaves unspecified. -/
def Obligations.ConfigErrorsComeInOrder : Prop :=
  ∀ (s : State) (u : DspUnit) (c : ErrCode) (a b sr : F64), s.Addresses u → a = F64.ofBits u.regs.opa →
    b = F64.ofBits u.regs.opb → sr = F64.ofBits u.regs.sr →
    (∀ (v : FdlVariant) (S : FdlState), u.body = .fdl S →
      ((u.regs.opb.toInt < 1 ∧ c = .cfgMaxDelay) ∨
       (1 ≤ u.regs.opb.toInt ∧ (s.params.fdlRamWords : Int) < u.regs.opb.toInt + 1 ∧ c = .cfgRam) ∨
       (1 ≤ u.regs.opb.toInt ∧ u.regs.opb.toInt + 1 ≤ (s.params.fdlRamWords : Int) ∧ v ≠ .fixed ∧
         isNaN a = true ∧ c = .cfgDelayNan)) →
      ∃ m : Ram, exec (fdlConfigOf v) s = .next (s.afterCommand { u with
        body := .fdl { FdlState.reset with line := { Line.blank with buf := m } }
        regs := { u.regs with err := true, errcode := c } })) ∧
    (∀ (v : IirVariant) (S : IirState), u.body = .iir S →
      (((isFinite sr = false ∨ fgt sr F64.zero = false) ∧ c = .cfgSampleRate) ∨
       (isFinite sr = true ∧ fgt sr F64.zero = true ∧ v ≠ .biquad ∧ c = .cfgDesign ∧
         (isFinite a = false ∨ isFinite b = false ∨ (design (freeNans s.draws) v a b sr).finite = false))) →
      exec (iirConfigOf v) s = .next (s.afterCommand { u with
        body := .iir IirState.reset, regs := { u.regs with err := true, errcode := c } })) ∧
    (∀ (v : RevTopology) (S : RevState), u.body = .rev S →
      (((isFinite sr = false ∨ fgt sr F64.zero = false) ∧ c = .cfgSampleRate) ∨
       (isFinite sr = true ∧ fgt sr F64.zero = true ∧ (isFinite a = false ∨ fgt a F64.zero = false) ∧ c = .cfgT60) ∨
       (isFinite sr = true ∧ fgt sr F64.zero = true ∧ isFinite a = true ∧ fgt a F64.zero = true ∧
         s.params.revRamWords < (((nominal v).map (fun l => rescale l sr (refRate v))).map (· + 1)).sum ∧
         c = .cfgRam)) →
      ∃ ls : List Line, exec (revConfigOf v) s = .next (s.afterCommand { u with
        body := .rev { RevState.reset with lines := ls }
        regs := { u.regs with err := true, errcode := c } }))

/-- R122, R125: FDL_SET_DELAY on a FIXED line. -/
def Obligations.SetDelayFixedClampsAndPoints : Prop :=
  ∀ (s : State) (u : DspUnit) (S : FdlState) (d : Int) (w : Warnings), s.Addresses u → u.body = .fdl S →
    S.cfg = true → S.variant = .fixed →
    (d, w) = (if (S.line.cap : Int) - 1 < u.regs.opa.toInt then ((S.line.cap : Int) - 1, 1#5)
      else if u.regs.opa.toInt < 0 then (0, 2#5) else (u.regs.opa.toInt, 0#5)) →
    exec .fdlSetDelay s = .next (s.afterCommand { u with
      body := .fdl { S with line := { S.line with
        r := (((S.line.w : Int) - d) % (S.line.cap : Int)).toNat, delay := i2f d } }
      regs := { u.regs with warn := u.regs.warn ||| w } })

/-- R123, R125: FDL_SET_DELAY on an ALLPASS line. -/
def Obligations.SetDelayAllpassSplitsTheDelay : Prop :=
  ∀ (s : State) (u : DspUnit) (S : FdlState) (d top op0 op alpha0 alpha : F64) (w : Warnings) (r0 r : Nat)
    (ν : NanSource), s.Addresses u → u.body = .fdl S → S.cfg = true → S.variant = .allpass →
    isNaN (F64.ofBits u.regs.opa) = false → ν = freeNans s.draws → top = i2f ((S.line.cap : Int) - 1) →
    (d, w, op0) =
      (if fgt (F64.ofBits u.regs.opa) top then
        (top, 1#5, fadd (ν 1) (fsub (ν 0) (i2f S.line.w) top) Config.one)
      else if flt (F64.ofBits u.regs.opa) Config.half then
        (Config.half, 2#5, fadd (ν 0) (i2f S.line.w) Config.apMinOffset)
      else (F64.ofBits u.regs.opa, 0#5, fadd (ν 1) (fsub (ν 0) (i2f S.line.w) (F64.ofBits u.regs.opa)) Config.one)) →
    op = (if flt op0 F64.zero then fadd (ν 2) op0 (i2f S.line.cap) else op0) →
    alpha0 = fsub (ν 4) (fadd (ν 3) Config.one (i2f (ffloor op))) op →
    r0 = (ffloor op % (S.line.cap : Int)).toNat →
    (r, alpha) = (if flt alpha0 Config.half then ((r0 + 1) % S.line.cap, fadd (ν 5) alpha0 Config.one)
      else (r0, alpha0)) →
    exec .fdlSetDelay s = .next (s.afterCommand { u with
      body := .fdl { S with
        line := { S.line with r := r, delay := d }, alpha := alpha
        coeff := fdiv (ν 8) (fsub (ν 6) Config.one alpha) (fadd (ν 7) Config.one alpha) }
      regs := { u.regs with warn := u.regs.warn ||| w } })

/-- R124, R125: FDL_SET_DELAY on a LINEAR line. -/
def Obligations.SetDelayLinearSplitsTheDelay : Prop :=
  ∀ (s : State) (u : DspUnit) (S : FdlState) (d top op0 op alpha : F64) (w : Warnings) (ν : NanSource),
    s.Addresses u → u.body = .fdl S → S.cfg = true → S.variant = .linear →
    isNaN (F64.ofBits u.regs.opa) = false → ν = freeNans s.draws → top = i2f ((S.line.cap : Int) - 1) →
    (d, w) = (if fgt (F64.ofBits u.regs.opa) top then (top, 1#5)
      else if flt (F64.ofBits u.regs.opa) F64.zero then (F64.zero, 2#5) else (F64.ofBits u.regs.opa, 0#5)) →
    op0 = fsub (ν 0) (i2f S.line.w) d →
    op = (if flt op0 F64.zero then fadd (ν 1) op0 (i2f S.line.cap) else op0) →
    alpha = fsub (ν 2) op (i2f (ffloor op)) →
    exec .fdlSetDelay s = .next (s.afterCommand { u with
      body := .fdl { S with
        line := { S.line with r := (ffloor op % (S.line.cap : Int)).toNat, delay := d }
        alpha := alpha, omalpha := fsub (ν 3) Config.one alpha }
      regs := { u.regs with warn := u.regs.warn ||| w } })

/-- R126: FDL_CLEAR zeroes the buffer and the output state and keeps pointers, delay and coefficients; a following FDL_ENERGY
answers exactly `+0.0`. (The words at `S.C` and above, unobservable by R66, are kept: log 18.) -/
def Obligations.FdlClearZeroesBufferAndOutput : Prop :=
  encode .fdlClear = 0x0000000000000003#64 ∧
  ∀ (s : State) (u : DspUnit) (S : FdlState), s.Addresses u → u.body = .fdl S → S.cfg = true →
    (∃ m : Ram, (∀ i : Nat, m.read i = if i < S.line.cap then F64.zero else S.line.buf.read i) ∧
      exec .fdlClear s = .next (s.afterCommand { u with
        body := .fdl { S with
          line := { S.line with buf := m, last := F64.zero }
          apin := F64.zero, cval := F64.zero, cvalid := false } })) ∧
    (S.Inv s.params.fdlRamWords → ∃ (t t' : State) (u' : DspUnit), exec .fdlClear s = .next t ∧
      exec .fdlEnergy t = .next t' ∧ t'.Addresses u' ∧ u'.regs.res0 = 0)

/-- R129: FDL_TICK on a FIXED line writes the input at `w`, advances `w`, answers the word at `r`, advances `r`; no other
word changes. -/
def Obligations.TickFixedWritesThenReads : Prop :=
  encode .fdlTick = 0x0000000000000004#64 ∧
  ∀ (s : State) (u : DspUnit) (S : FdlState), s.Addresses u → u.body = .fdl S → S.cfg = true → S.variant = .fixed →
    ∃ (m : Ram) (y : F64),
      (∀ i : Nat, m.read i = if i = S.line.w then F64.ofBits u.regs.opa else S.line.buf.read i) ∧
      y = m.read S.line.r ∧
      exec .fdlTick s = .next (s.afterCommand { u with
        body := .fdl { S with line := { S.line with
          buf := m, w := (S.line.w + 1) % S.line.cap, r := (S.line.r + 1) % S.line.cap, last := y } }
        regs := { u.regs with res0 := y.toBits } })

/-- R127, R128, R130, R131: FDL_TICK on an ALLPASS or LINEAR line writes the input, answers the cached value if the cache is
valid, else the interpolated one with the input written, invalidates the cache, updates the memory term (ALLPASS only)
and advances both indices. -/
def Obligations.TickInterpolatingConsumesTheCache : Prop :=
  ∀ (s : State) (u : DspUnit) (S : FdlState) (ν : NanSource), s.Addresses u → u.body = .fdl S → S.cfg = true →
    S.variant ≠ .fixed → ν = freeNans s.draws →
    ∃ (m : Ram) (y : F64),
      (∀ i : Nat, m.read i = if i = S.line.w then F64.ofBits u.regs.opa else S.line.buf.read i) ∧
      y = (if S.cvalid then S.cval
        else if S.variant = .allpass then
          fadd (ν 3) (fneg (fmul (ν 0) S.coeff S.line.last))
            (fadd (ν 2) S.apin (fmul (ν 1) S.coeff (m.read S.line.r)))
        else
          fadd (ν 2) (fmul (ν 0) (m.read S.line.r) S.omalpha)
            (fmul (ν 1) (m.read ((S.line.r + 1) % S.line.cap)) S.alpha)) ∧
      exec .fdlTick s = .next (s.afterCommand { u with
        body := .fdl { S with
          line := { S.line with
            buf := m, w := (S.line.w + 1) % S.line.cap, r := (S.line.r + 1) % S.line.cap, last := y }
          apin := if S.variant = .allpass then m.read S.line.r else S.apin
          cvalid := false, cval := y }
        regs := { u.regs with res0 := y.toBits } })

/-- R127, R132: FDL_NEXT_OUT answers the pending output and caches it; with a valid cache it answers the cached value. -/
def Obligations.NextOutFillsTheCache : Prop :=
  encode .fdlNextOut = 0x0000000000000005#64 ∧
  ∀ (s : State) (u : DspUnit) (S : FdlState) (ν : NanSource) (y : F64), s.Addresses u → u.body = .fdl S →
    S.cfg = true → S.variant ≠ .fixed → ν = freeNans s.draws →
    y = (if S.cvalid then S.cval
      else if S.variant = .allpass then
        fadd (ν 3) (fneg (fmul (ν 0) S.coeff S.line.last))
          (fadd (ν 2) S.apin (fmul (ν 1) S.coeff (S.line.buf.read S.line.r)))
      else
        fadd (ν 2) (fmul (ν 0) (S.line.buf.read S.line.r) S.omalpha)
          (fmul (ν 1) (S.line.buf.read ((S.line.r + 1) % S.line.cap)) S.alpha)) →
    exec .fdlNextOut s = .next (s.afterCommand { u with
      body := .fdl { S with cval := y, cvalid := true }, regs := { u.regs with res0 := y.toBits } })

/-- From R133's pseudocode: FDL_CONTENTS_AT clamps the tap and answers the word at index `(w - t) mod C`; nothing else
changes. -/
def Obligations.ContentsAtReadsThePast : Prop :=
  encode .fdlContentsAt = 0x0000000000000006#64 ∧
  ∀ (s : State) (u : DspUnit) (S : FdlState) (t : Int) (w : Warnings), s.Addresses u → u.body = .fdl S →
    S.cfg = true →
    (t, w) = (if u.regs.opa.toInt < 1 then (1, 4#5)
      else if intGt u.regs.opa.toInt S.line.delay then (max 1 (ffloor S.line.delay), 4#5)
      else (u.regs.opa.toInt, 0#5)) →
    exec .fdlContentsAt s = .next (s.afterCommand { u with
      regs := { u.regs with
        res0 := (S.line.buf.read (((S.line.w : Int) - t) % (S.line.cap : Int)).toNat).toBits
        warn := u.regs.warn ||| w } })

/-- R134: FDL_ENERGY sums the squares of the words from `r` up to `w`, in ascending order, split at the end of the buffer,
rounded at each step; nothing else changes. -/
def Obligations.EnergySumsReadToWrite : Prop :=
  encode .fdlEnergy = 0x0000000000000007#64 ∧
  ∀ (s : State) (u : DspUnit) (S : FdlState) (ix : List Nat), s.Addresses u → u.body = .fdl S → S.cfg = true →
    ix = (if S.line.r ≤ S.line.w then (List.range S.line.w).filter (fun i => decide (S.line.r ≤ i))
      else (List.range S.line.cap).filter (fun i => decide (S.line.r ≤ i)) ++ List.range S.line.w) →
    exec .fdlEnergy s = .next (s.afterCommand { u with
      regs := { u.regs with
        res0 := (ix.foldl (fun e i => fadd (freeNans s.draws (2 * i + 1)) e
          (fmul (freeNans s.draws (2 * i)) (S.line.buf.read i) (S.line.buf.read i))) F64.zero).toBits } })

/-- R122, R135: a FIXED line with delay `d` answers each input exactly `d` ticks later, whatever the buffer held and
whatever is fed in between. -/
def Obligations.FixedLineDelaysByD : Prop :=
  ∀ (l : Line) (d : Nat) (x : F64) (later : List F64), d < l.cap → l.w < l.cap →
    l.r = modCap ((l.w : Int) - d) l.cap → later.length = d → (later.foldl Line.tick (l.tick x)).last = x

/-! ### Recursive filters (42_iir_filter.md) -/

/-- R192, R173, R174: IIR_CONFIG.LPF and IIR_CONFIG.HPF with a valid rate and a finite design. -/
def Obligations.IirConfigLowAndHighPass : Prop :=
  ∀ (v : IirVariant) (s : State) (u : DspUnit) (S : IirState) (ν : NanSource)
    (f q sr pf c c2 s2c a0 b1 b2 : F64), s.Addresses u → u.body = .iir S → (v = .lpf ∨ v = .hpf) →
    ν = freeNans s.draws → f = F64.ofBits u.regs.opa → q = F64.ofBits u.regs.opb → sr = F64.ofBits u.regs.sr →
    isFinite sr = true → fgt sr F64.zero = true → isFinite f = true → isFinite q = true →
    pf = fmul (ν 2) (fmul (ν 1) f (fdiv (ν 0) Config.twoPi sr)) Config.half →
    c = (if v = .lpf then fdiv (ν 3) Config.one (tanF pf) else tanF pf) →
    c2 = fmul (ν 10) c c → s2c = fmul (ν 11) c Config.sqrt2 →
    a0 = fdiv (ν 14) Config.one (fadd (ν 13) (fadd (ν 12) Config.one s2c) c2) →
    b1 = fmul (ν 17) (fmul (ν 16) (if v = .lpf then Config.minusTwo else Config.two) (fsub (ν 15) Config.one c2)) a0 →
    b2 = fmul (ν 20) (fneg (fadd (ν 19) (fsub (ν 18) Config.one s2c) c2)) a0 →
    isFinite a0 = true → isFinite b1 = true → isFinite b2 = true →
    exec (iirConfigOf v) s = .next (s.afterCommand { u with
      body := .iir { cfg := true, variant := v, freq := f, q := q, gain := Config.one, y1 := F64.zero, y2 := F64.zero,
                     c := { c0 := a0, c1 := b1, c2 := b2, c3 := F64.zero, c4 := F64.zero } } })

/-- R192, R175, R176: IIR_CONFIG.BPF and IIR_CONFIG.BRF with a valid rate and a finite design. -/
def Obligations.IirConfigBandPassAndReject : Prop :=
  ∀ (v : IirVariant) (s : State) (u : DspUnit) (S : IirState) (ν : NanSource)
    (f q sr pf pbw c d a0 b1 b2 : F64), s.Addresses u → u.body = .iir S → (v = .bpf ∨ v = .brf) →
    ν = freeNans s.draws → f = F64.ofBits u.regs.opa → q = F64.ofBits u.regs.opb → sr = F64.ofBits u.regs.sr →
    isFinite sr = true → fgt sr F64.zero = true → isFinite f = true → isFinite q = true →
    pf = fmul (ν 1) f (fdiv (ν 0) Config.twoPi sr) →
    pbw = fmul (ν 4) (fmul (ν 3) (fdiv (ν 2) Config.one q) pf) Config.half →
    c = (if v = .bpf then fdiv (ν 5) Config.one (tanF pbw) else tanF pbw) →
    d = fmul (ν 6) Config.two (cosF pf) → a0 = fdiv (ν 8) Config.one (fadd (ν 7) Config.one c) →
    b1 = (if v = .bpf then fmul (ν 10) (fmul (ν 9) c d) a0 else fmul (ν 9) (fneg d) a0) →
    b2 = fmul (ν 12) (fsub (ν 11) Config.one c) a0 →
    isFinite a0 = true → isFinite b1 = true → isFinite b2 = true →
    exec (iirConfigOf v) s = .next (s.afterCommand { u with
      body := .iir { cfg := true, variant := v, freq := f, q := q, gain := Config.one, y1 := F64.zero, y2 := F64.zero,
                     c := { c0 := a0, c1 := b1, c2 := b2, c3 := F64.zero, c4 := F64.zero } } })

/-- R192, R177, R178: IIR_CONFIG.RLPF and IIR_CONFIG.RHPF with a valid rate and a finite design. -/
def Obligations.IirConfigResonantPasses : Prop :=
  ∀ (v : IirVariant) (s : State) (u : DspUnit) (S : IirState) (ν : NanSource)
    (f q sr inv qres pf d c a0 b1 : F64), s.Addresses u → u.body = .iir S → (v = .rlpf ∨ v = .rhpf) →
    ν = freeNans s.draws → f = F64.ofBits u.regs.opa → q = F64.ofBits u.regs.opb → sr = F64.ofBits u.regs.sr →
    isFinite sr = true → fgt sr F64.zero = true → isFinite f = true → isFinite q = true →
    inv = fdiv (ν 2) Config.one q → qres = (if fgt inv Config.qresMin then inv else Config.qresMin) →
    pf = fmul (ν 1) f (fdiv (ν 0) Config.twoPi sr) →
    d = tanF (fmul (ν 4) (fmul (ν 3) pf qres) Config.half) →
    c = fdiv (ν 7) (fsub (ν 5) Config.one d) (fadd (ν 6) Config.one d) →
    b1 = fmul (ν 9) (fadd (ν 8) Config.one c) (cosF pf) →
    a0 = fmul (ν 12) (if v = .rlpf then fsub (ν 11) (fadd (ν 10) Config.one c) b1
      else fadd (ν 11) (fadd (ν 10) Config.one c) b1) Config.quarter →
    isFinite a0 = true → isFinite b1 = true → isFinite c = true →
    exec (iirConfigOf v) s = .next (s.afterCommand { u with
      body := .iir { cfg := true, variant := v, freq := f, q := q, gain := Config.one, y1 := F64.zero, y2 := F64.zero,
                     c := { c0 := a0, c1 := b1, c2 := fneg c, c3 := F64.zero, c4 := F64.zero } } })

/-- R192, R179, R180: IIR_CONFIG.RESONZ with a valid rate and a finite design, and IIR_CONFIG.BIQUAD with a valid rate,
which starts the pass-through and stores its operands unchecked. -/
def Obligations.IirConfigResonzAndBiquad : Prop :=
  ∀ (s : State) (u : DspUnit) (S : IirState) (ν : NanSource) (f q sr ff b r twoR r2 cost a0 b1 : F64),
    s.Addresses u → u.body = .iir S →
    ν = freeNans s.draws → f = F64.ofBits u.regs.opa → q = F64.ofBits u.regs.opb → sr = F64.ofBits u.regs.sr →
    isFinite sr = true → fgt sr F64.zero = true →
    ff = fmul (ν 1) f (fdiv (ν 0) Config.twoPi sr) → b = fmul (ν 3) ff (fdiv (ν 2) Config.one q) →
    r = fsub (ν 5) Config.one (fmul (ν 4) b Config.half) → twoR = fmul (ν 6) Config.two r → r2 = fmul (ν 7) r r →
    cost = fdiv (ν 10) (fmul (ν 8) twoR (cosF ff)) (fadd (ν 9) Config.one r2) →
    a0 = fmul (ν 12) (fsub (ν 11) Config.one r2) Config.half → b1 = fmul (ν 13) twoR cost →
    (isFinite f = true → isFinite q = true → isFinite a0 = true → isFinite b1 = true → isFinite r2 = true →
      exec .iirConfigResonz s = .next (s.afterCommand { u with
        body := .iir { cfg := true, variant := .resonz, freq := f, q := q, gain := Config.one, y1 := F64.zero,
                       y2 := F64.zero, c := { c0 := a0, c1 := b1, c2 := fneg r2, c3 := F64.zero, c4 := F64.zero } } })) ∧
    exec .iirConfigBiquad s = .next (s.afterCommand { u with
      body := .iir { cfg := true, variant := .biquad, freq := f, q := q, gain := Config.one, y1 := F64.zero,
                     y2 := F64.zero, c := { c0 := Config.one, c1 := F64.zero, c2 := F64.zero, c3 := F64.zero,
                                            c4 := F64.zero } } })

/-- R193, R194: IIR_SET_FREQ and IIR_SET_Q recompute the coefficients from the new parameter and keep the history, the
gain and the other parameter. The `design` they use is the one IIR_CONFIG stores, which the statements above write out. -/
def Obligations.IirSettersRedesignAndKeepHistory : Prop :=
  ∀ (s : State) (u : DspUnit) (S : IirState) (x : F64) (cf cq : Coeffs), s.Addresses u → u.body = .iir S →
    S.cfg = true → S.variant ≠ .biquad → x = F64.ofBits u.regs.opa → isFinite (F64.ofBits u.regs.sr) = true →
    fgt (F64.ofBits u.regs.sr) F64.zero = true → isFinite x = true →
    cf = design (freeNans s.draws) S.variant x S.q (F64.ofBits u.regs.sr) →
    cq = design (freeNans s.draws) S.variant S.freq x (F64.ofBits u.regs.sr) →
    (isFinite S.q = true → cf.finite = true →
      exec .iirSetFreq s = .next (s.afterCommand { u with body := .iir { S with freq := x, c := cf } })) ∧
    (isFinite S.freq = true → cq.finite = true →
      exec .iirSetQ s = .next (s.afterCommand { u with body := .iir { S with q := x, c := cq } })) ∧
    (∀ (v : IirVariant) (q : F64) (c : Coeffs), v ≠ .biquad → q = F64.ofBits u.regs.opb → isFinite q = true →
      c = design (freeNans s.draws) v x q (F64.ofBits u.regs.sr) → c.finite = true →
      exec (iirConfigOf v) s = .next (s.afterCommand { u with
        body := .iir { cfg := true, variant := v, freq := x, q := q, gain := Config.one, y1 := F64.zero, y2 := F64.zero,
                       c := c } }))

/-- R195, R196, R201: IIR_SET_RESONANCE, IIR_SET_RESONANCE.NORM and IIR_SET_NOTCH on a BIQUAD, where the coefficients
they compute are finite. -/
def Obligations.BiquadSettersPlacePolesAndZeros : Prop :=
  ∀ (s : State) (u : DspUnit) (S : IirState) (ν : NanSource) (f sr r rr term b0 : F64) (w : Warnings),
    s.Addresses u → u.body = .iir S → S.cfg = true → S.variant = .biquad → ν = freeNans s.draws →
    f = F64.ofBits u.regs.opa → sr = F64.ofBits u.regs.sr → isFinite sr = true → fgt sr F64.zero = true →
    isFinite f = true → isNaN (F64.ofBits u.regs.opb) = false → S.c.finite = true →
    (r, w) = (if flt (F64.ofBits u.regs.opb) F64.zero then (F64.zero, 16#5)
      else if fgt (F64.ofBits u.regs.opb) Config.one then (Config.one, 16#5) else (F64.ofBits u.regs.opb, 0#5)) →
    rr = fmul (ν 4) r r →
    term = fmul (ν 3) (fmul (ν 0) Config.minusTwo r) (cosF (fdiv (ν 2) (fmul (ν 1) Config.twoPi f) sr)) →
    b0 = fsub (ν 6) Config.half (fmul (ν 5) Config.half rr) →
    isFinite rr = true → isFinite term = true →
    exec .iirSetResonance s = .next (s.afterCommand { u with
      body := .iir { S with c := { S.c with c4 := rr, c3 := term } }
      regs := { u.regs with warn := u.regs.warn ||| w } }) ∧
    (isFinite b0 = true → exec .iirSetResonanceNorm s = .next (s.afterCommand { u with
      body := .iir { S with c := { c0 := b0, c1 := F64.zero, c2 := fneg b0, c3 := term, c4 := rr } }
      regs := { u.regs with warn := u.regs.warn ||| w } })) ∧
    exec .iirSetNotch s = .next (s.afterCommand { u with
      body := .iir { S with c := { S.c with c2 := rr, c1 := term } }
      regs := { u.regs with warn := u.regs.warn ||| w } })

/-- R197: IIR_SET_GAIN stores a finite gain and rejects the others with DOMAIN_DESIGN. -/
def Obligations.SetGainStoresAFiniteGain : Prop :=
  encode .iirSetGain = 0x0000000000000016#64 ∧
  ∀ (s : State) (u : DspUnit) (S : IirState), s.Addresses u → u.body = .iir S → S.cfg = true →
    exec .iirSetGain s = .next (s.afterCommand (
      if isFinite (F64.ofBits u.regs.opa) then { u with body := .iir { S with gain := F64.ofBits u.regs.opa } }
      else { u with regs := { u.regs with err := true, errcode := .domainDesign } }))

/-- R125, R193 to R197, R230, R261: the operand errors of the setters, and coefficients that come out not finite, reject
the command and change nothing but ERR and ERRCODE; no warning is committed (R108). -/
def Obligations.InvalidOperandsRejectTheSetter : Prop :=
  ∀ (i : Instr) (s : State) (u : DspUnit) (c : ErrCode) (a b sr : F64), s.Addresses u → u.body.ready = true →
    a = F64.ofBits u.regs.opa → b = F64.ofBits u.regs.opb → sr = F64.ofBits u.regs.sr →
    ((∃ S, u.body = .fdl S ∧ S.variant ≠ .fixed ∧ isNaN a = true ∧ i = .fdlSetDelay ∧ c = .domainDelayNan) ∨
     (∃ S, u.body = .rev S ∧ isNaN a = true ∧ i = .revSetMix ∧ c = .domainMixNan) ∨
     (∃ S, u.body = .iir S ∧ isFinite a = false ∧ i = .iirSetGain ∧ c = .domainDesign) ∨
     (∃ S, u.body = .iir S ∧ S.variant ≠ .biquad ∧ c = .domainDesign ∧ (i = .iirSetFreq ∨ i = .iirSetQ) ∧
       (isFinite sr = false ∨ fgt sr F64.zero = false ∨ isFinite a = false ∨
        (i = .iirSetFreq ∧ (design (freeNans s.draws) S.variant a S.q sr).finite = false) ∨
        (i = .iirSetQ ∧ (design (freeNans s.draws) S.variant S.freq a sr).finite = false))) ∨
     (∃ S, u.body = .iir S ∧ S.variant = .biquad ∧ c = .domainDesign ∧
       (i = .iirSetResonance ∨ i = .iirSetResonanceNorm ∨ i = .iirSetNotch) ∧
       (isFinite sr = false ∨ fgt sr F64.zero = false ∨ isFinite a = false ∨ isNaN b = true)) ∨
     (∃ (S : IirState) (ν : NanSource) (r rr term b0 : F64), u.body = .iir S ∧ S.variant = .biquad ∧ c = .domainDesign ∧
       ν = freeNans s.draws ∧
       r = (if flt b F64.zero then F64.zero else if fgt b Config.one then Config.one else b) ∧ rr = fmul (ν 4) r r ∧
       term = fmul (ν 3) (fmul (ν 0) Config.minusTwo r) (cosF (fdiv (ν 2) (fmul (ν 1) Config.twoPi a) sr)) ∧
       b0 = fsub (ν 6) Config.half (fmul (ν 5) Config.half rr) ∧
       ((i = .iirSetResonance ∧ ∃ v ∈ [S.c.c0, S.c.c1, S.c.c2, term, rr], isFinite v = false) ∨
        (i = .iirSetResonanceNorm ∧ ∃ v ∈ [b0, term, rr], isFinite v = false) ∨
        (i = .iirSetNotch ∧ ∃ v ∈ [S.c.c0, term, rr, S.c.c3, S.c.c4], isFinite v = false)))) →
    exec i s = .next (s.afterCommand { u with regs := { u.regs with err := true, errcode := c } })

/-- R171, R181, R183 to R188, R198: IIR_SAMPLE answers the unflushed output of the variant's step and stores the flushed
history; the flush gives `+0.0` exactly strictly between `-1e-15` and `1e-15` (the binary64 nearest) and else its
argument. -/
def Obligations.SampleRunsTheVariantsStep : Prop :=
  (∀ v : F64, flush v =
    if isFinite v = true ∧ |valueOf v| < valueOf (F64.ofBits 0x3CD203AF9EE75616#64) then F64.zero else v) ∧
  ∀ (s : State) (u : DspUnit) (S : IirState) (ν : NanSource) (x y0 out : F64), s.Addresses u → u.body = .iir S →
    S.cfg = true → ν = freeNans s.draws → x = fmul (ν 0) S.gain (F64.ofBits u.regs.opa) →
    (y0, out) =
      (match S.variant with
       | .lpf =>
         let y0 := fadd (ν 4) (fadd (ν 2) x (fmul (ν 1) S.c.c1 S.y1)) (fmul (ν 3) S.c.c2 S.y2)
         (y0, fmul (ν 8) S.c.c0 (fadd (ν 7) (fadd (ν 6) y0 (fmul (ν 5) Config.two S.y1)) S.y2))
       | .hpf =>
         let y0 := fadd (ν 4) (fadd (ν 2) x (fmul (ν 1) S.c.c1 S.y1)) (fmul (ν 3) S.c.c2 S.y2)
         (y0, fmul (ν 8) S.c.c0 (fadd (ν 7) (fsub (ν 6) y0 (fmul (ν 5) Config.two S.y1)) S.y2))
       | .bpf | .resonz =>
         let y0 := fadd (ν 4) (fadd (ν 2) x (fmul (ν 1) S.c.c1 S.y1)) (fmul (ν 3) S.c.c2 S.y2)
         (y0, fmul (ν 6) S.c.c0 (fsub (ν 5) y0 S.y2))
       | .brf =>
         let ay := fmul (ν 1) S.c.c1 S.y1
         let y0 := fsub (ν 4) (fsub (ν 2) x ay) (fmul (ν 3) S.c.c2 S.y2)
         (y0, fadd (ν 7) (fmul (ν 6) S.c.c0 (fadd (ν 5) y0 S.y2)) ay)
       | .rlpf =>
         let y0 := fadd (ν 5) (fadd (ν 3) (fmul (ν 1) S.c.c0 x) (fmul (ν 2) S.c.c1 S.y1)) (fmul (ν 4) S.c.c2 S.y2)
         (y0, fadd (ν 8) (fadd (ν 7) y0 (fmul (ν 6) Config.two S.y1)) S.y2)
       | .rhpf =>
         let y0 := fadd (ν 5) (fadd (ν 3) (fmul (ν 1) S.c.c0 x) (fmul (ν 2) S.c.c1 S.y1)) (fmul (ν 4) S.c.c2 S.y2)
         (y0, fadd (ν 8) (fsub (ν 7) y0 (fmul (ν 6) Config.two S.y1)) S.y2)
       | .biquad =>
         let y0 := fsub (ν 4) (fsub (ν 2) x (fmul (ν 1) S.c.c3 S.y1)) (fmul (ν 3) S.c.c4 S.y2)
         (y0, fadd (ν 9) (fadd (ν 7) (fmul (ν 5) S.c.c0 y0) (fmul (ν 6) S.c.c1 S.y1)) (fmul (ν 8) S.c.c2 S.y2))) →
    exec .iirSample s = .next (s.afterCommand { u with
      body := .iir { S with y2 := flush S.y1, y1 := flush y0 }, regs := { u.regs with res0 := out.toBits } })

/-- R199: IIR_CLEAR zeroes the history and keeps coefficients, frequency, Q and gain. -/
def Obligations.IirClearZeroesTheHistory : Prop :=
  encode .iirClear = 0x0000000000000018#64 ∧
  ∀ (s : State) (u : DspUnit) (S : IirState), s.Addresses u → u.body = .iir S → S.cfg = true →
    exec .iirClear s = .next (s.afterCommand { u with
      body := .iir { S with y1 := F64.zero, y2 := F64.zero } })

/-! ### Reverberators (43_reverberator.md) -/

/-- R227, R221, R224, R225: REV_CONFIG with valid rate and T60 and lengths that fit starts fresh lines of the rescaled
lengths of R221's tables, one gain for each comb, and the default mix. (That a line's own `delay` field is its length
is log 11's reading, that a fresh line lists no word is the model's form of words that read `+0.0`, log 8.) -/
def Obligations.RevConfigStartsFreshLines : Prop :=
  ∀ (v : RevTopology) (s : State) (u : DspUnit) (S : RevState) (ν : NanSource) (t60 sr ref mix : F64)
    (nom combs lens : List Nat),
    s.Addresses u → u.body = .rev S → ν = freeNans s.draws → t60 = F64.ofBits u.regs.opa →
    sr = F64.ofBits u.regs.sr → isFinite sr = true → fgt sr F64.zero = true → isFinite t60 = true →
    fgt t60 F64.zero = true →
    (nom, ref, mix, combs) =
      (match v with
       | .a => ([1777, 1847, 1993, 2137, 389, 127, 43, 211, 179], F64.ofBits 0x40E5888000000000#64,
                F64.ofBits 0x3FD3333333333333#64, [0, 1, 2, 3])
       | .b => ([1433, 1601, 1867, 2053, 2251, 2399, 347, 113, 37, 59, 53, 43], F64.ofBits 0x40D90A4000000000#64,
                F64.ofBits 0x3FD3333333333333#64, [0, 1, 2, 3, 4, 5])
       | .c => ([341, 613, 1557, 2137], F64.ofBits 0x40E5888000000000#64, F64.ofBits 0x3FE0000000000000#64, [2, 3])) →
    lens = nom.map (fun l => rescale l sr ref) → (lens.map (· + 1)).sum ≤ s.params.revRamWords →
    exec (revConfigOf v) s = .next (s.afterCommand { u with
      body := .rev { cfg := true, topo := v, t60 := t60, srcfg := sr, mix := mix, len := lens,
                     cg := combs.map (fun k => pow10F (fdiv (ν (16 * k + 2))
                       (fmul (ν (16 * k)) Config.minusThree (i2f (lens.getD k 0))) (fmul (ν (16 * k + 1)) t60 sr))),
                     lp := F64.zero, lastL := F64.zero, lastR := F64.zero,
                     lines := lens.map (fun l => { cap := l + 1, w := 0, r := 1 % (l + 1), delay := i2f l,
                                                   last := F64.zero, buf := [] }) } })

/-- R223: the rescaled length is the least odd number that passes the primality test at or above
`floor((sr / ref) * i2f(L))`, with 1 added where that is even. -/
def Obligations.RescaledLengthsAreOddAndPassTheTest : Prop :=
  ∀ (l n0 : Nat) (sr ref : F64) (n n' : NanBits), n0 = ⌊valueOf (fmul n (fdiv n' sr ref) (i2f l))⌋.toNat →
    rescale l sr ref % 2 = 1 ∧ isPrime (rescale l sr ref) = true ∧ n0 ≤ rescale l sr ref ∧
    ∀ m : Nat, n0 ≤ m → m % 2 = 1 → isPrime m = true → rescale l sr ref ≤ m

/-- R222, R223: below `2^53` the test of R222 accepts exactly 1 and the primes. -/
def Obligations.TrialDivisionAcceptsOneAndThePrimes : Prop :=
  ∀ n : Nat, 1 ≤ n → n < 2 ^ 53 → (isPrime n = true ↔ n = 1 ∨ n.Prime)

/-- R230: REV_SET_MIX rejects a NaN with DOMAIN_MIX_NAN and clamps every other mix to [0, 1] with W_MIX, keeping `-0.0`. -/
def Obligations.SetMixClamps : Prop :=
  encode .revSetMix = 0x0000000000000022#64 ∧
  ∀ (s : State) (u : DspUnit) (S : RevState) (m : F64) (w : Warnings), s.Addresses u → u.body = .rev S →
    S.cfg = true →
    (m, w) = (if flt (F64.ofBits u.regs.opa) F64.zero then (F64.zero, 8#5)
      else if fgt (F64.ofBits u.regs.opa) Config.one then (Config.one, 8#5) else (F64.ofBits u.regs.opa, 0#5)) →
    exec .revSetMix s = .next (s.afterCommand (
      if isNaN (F64.ofBits u.regs.opa) then { u with regs := { u.regs with err := true, errcode := .domainMixNan } }
      else { u with body := .rev { S with mix := m }, regs := { u.regs with warn := u.regs.warn ||| w } }))

/-- R231, R226, R232: REV_TICK on topology A: three series allpasses, four combs summed from their inputs, two output
delays, the mix, and the three results. -/
def Obligations.RevTickTopologyA : Prop :=
  ∀ (s : State) (u : DspUnit) (S : RevState) (ν : NanSource) (x : F64)
    (ap : Nat → F64 → List Line → F64 × List Line) (put : List Line → Nat → F64 → List Line)
    (last : List Line → Nat → F64) (v4 v5 v6 c0 c1 c2 c3 sum l r : F64) (l4 l5 l6 lc lo : List Line),
    s.Addresses u → u.body = .rev S → S.cfg = true → S.topo = .a → ν = freeNans s.draws → x = F64.ofBits u.regs.opa →
    last = (fun ls k => (ls.getD k Line.blank).last) →
    put = (fun ls k y => ls.set k ((ls.getD k Line.blank).tick y)) →
    ap = (fun k y ls =>
      let a := flush (fadd (ν (16 * k + 1)) (fmul (ν (16 * k)) Config.revApCoeff (last ls k)) y)
      (fadd (ν (16 * k + 3)) (fneg (fmul (ν (16 * k + 2)) Config.revApCoeff a)) (last ls k), put ls k a)) →
    (v4, l4) = ap 4 x S.lines → (v5, l5) = ap 5 (flush v4) l4 → (v6, l6) = ap 6 (flush v5) l5 →
    c0 = flush (fadd (ν 1) (flush v6) (fmul (ν 0) (S.cg.getD 0 F64.zero) (last l6 0))) →
    c1 = flush (fadd (ν 17) (flush v6) (fmul (ν 16) (S.cg.getD 1 F64.zero) (last l6 1))) →
    c2 = flush (fadd (ν 33) (flush v6) (fmul (ν 32) (S.cg.getD 2 F64.zero) (last l6 2))) →
    c3 = flush (fadd (ν 49) (flush v6) (fmul (ν 48) (S.cg.getD 3 F64.zero) (last l6 3))) →
    lc = put (put (put (put l6 0 c0) 1 c1) 2 c2) 3 c3 →
    sum = flush (fadd (ν 258) (fadd (ν 257) (fadd (ν 256) c0 c1) c2) c3) →
    lo = put (put lc 7 sum) 8 sum →
    l = fadd (ν 267) (fmul (ν 264) S.mix (last lo 7)) (fmul (ν 266) (fsub (ν 265) Config.one S.mix) x) →
    r = fadd (ν 275) (fmul (ν 272) S.mix (last lo 8)) (fmul (ν 274) (fsub (ν 273) Config.one S.mix) x) →
    exec .revTick s = .next (s.afterCommand { u with
      body := .rev { S with lines := lo, lastL := l, lastR := r }
      regs := { u.regs with
        res0 := (fmul (ν 281) (fadd (ν 280) l r) Config.half).toBits, res1 := l.toBits, res2 := r.toBits } })

/-- R231, R226, R233: REV_TICK on topology B: six combs summed from their outputs, three series allpasses, the lowpass,
one more allpass, the two output allpasses, the mix, and the three results. -/
def Obligations.RevTickTopologyB : Prop :=
  ∀ (s : State) (u : DspUnit) (S : RevState) (ν : NanSource) (x : F64)
    (ap comb : Nat → F64 → List Line → F64 × List Line) (put : List Line → Nat → F64 → List Line)
    (last : List Line → Nat → F64) (s0 s1 s2 s3 s4 s5 v6 v7 v8 lp v9 v10 v11 l r : F64)
    (l0 l1 l2 l3 l4 l5 l6 l7 l8 l9 l10 l11 : List Line),
    s.Addresses u → u.body = .rev S → S.cfg = true → S.topo = .b → ν = freeNans s.draws → x = F64.ofBits u.regs.opa →
    last = (fun ls k => (ls.getD k Line.blank).last) →
    put = (fun ls k y => ls.set k ((ls.getD k Line.blank).tick y)) →
    ap = (fun k y ls =>
      let a := flush (fadd (ν (16 * k + 1)) (fmul (ν (16 * k)) Config.revApCoeff (last ls k)) y)
      (fadd (ν (16 * k + 3)) (fneg (fmul (ν (16 * k + 2)) Config.revApCoeff a)) (last ls k), put ls k a)) →
    comb = (fun j y ls =>
      let c := flush (fadd (ν (16 * j + 1)) x (fmul (ν (16 * j)) (S.cg.getD j F64.zero) (last ls j)))
      (flush (fadd (ν (16 * j + 2)) y (last (put ls j c) j)), put ls j c)) →
    (s0, l0) = comb 0 F64.zero S.lines → (s1, l1) = comb 1 s0 l0 → (s2, l2) = comb 2 s1 l1 →
    (s3, l3) = comb 3 s2 l2 → (s4, l4) = comb 4 s3 l3 → (s5, l5) = comb 5 s4 l4 →
    (v6, l6) = ap 6 s5 l5 → (v7, l7) = ap 7 (flush v6) l6 → (v8, l8) = ap 8 (flush v7) l7 →
    lp = flush (fadd (ν 258) (fmul (ν 256) Config.lpKeep S.lp) (fmul (ν 257) Config.lpIn (flush v8))) →
    (v9, l9) = ap 9 lp l8 → (v10, l10) = ap 10 (flush v9) l9 → (v11, l11) = ap 11 (flush v9) l10 →
    l = fadd (ν 267) (fmul (ν 264) S.mix v10) (fmul (ν 266) (fsub (ν 265) Config.one S.mix) x) →
    r = fadd (ν 275) (fmul (ν 272) S.mix v11) (fmul (ν 274) (fsub (ν 273) Config.one S.mix) x) →
    exec .revTick s = .next (s.afterCommand { u with
      body := .rev { S with lines := l11, lp := lp, lastL := l, lastR := r }
      regs := { u.regs with
        res0 := (fmul (ν 281) (fadd (ν 280) l r) Config.half).toBits, res1 := l.toBits, res2 := r.toBits } })

/-- R231, R226, R234: REV_TICK on topology C: two series allpasses, one comb to each side, the mix, and the three
results. -/
def Obligations.RevTickTopologyC : Prop :=
  ∀ (s : State) (u : DspUnit) (S : RevState) (ν : NanSource) (x : F64)
    (ap : Nat → F64 → List Line → F64 × List Line) (put : List Line → Nat → F64 → List Line)
    (last : List Line → Nat → F64) (v0 v1 c0 c1 l r : F64) (l0 l1 lo : List Line),
    s.Addresses u → u.body = .rev S → S.cfg = true → S.topo = .c → ν = freeNans s.draws → x = F64.ofBits u.regs.opa →
    last = (fun ls k => (ls.getD k Line.blank).last) →
    put = (fun ls k y => ls.set k ((ls.getD k Line.blank).tick y)) →
    ap = (fun k y ls =>
      let a := flush (fadd (ν (16 * k + 1)) (fmul (ν (16 * k)) Config.revApCoeff (last ls k)) y)
      (fadd (ν (16 * k + 3)) (fneg (fmul (ν (16 * k + 2)) Config.revApCoeff a)) (last ls k), put ls k a)) →
    (v0, l0) = ap 0 x S.lines → (v1, l1) = ap 1 (flush v0) l0 →
    c0 = flush (fadd (ν 33) (flush v1) (fmul (ν 32) (S.cg.getD 0 F64.zero) (last l1 2))) →
    c1 = flush (fadd (ν 49) (flush v1) (fmul (ν 48) (S.cg.getD 1 F64.zero) (last l1 3))) →
    lo = put (put l1 2 c0) 3 c1 →
    l = fadd (ν 267) (fmul (ν 264) S.mix (last lo 2)) (fmul (ν 266) (fsub (ν 265) Config.one S.mix) x) →
    r = fadd (ν 275) (fmul (ν 272) S.mix (last lo 3)) (fmul (ν 274) (fsub (ν 273) Config.one S.mix) x) →
    exec .revTick s = .next (s.afterCommand { u with
      body := .rev { S with lines := lo, lastL := l, lastR := r }
      regs := { u.regs with
        res0 := (fmul (ν 281) (fadd (ν 280) l r) Config.half).toBits, res1 := l.toBits, res2 := r.toBits } })

/-- R225: with a valid T60 and rate every comb gain lies in [0, 1]. (Lengths are below `2^53`, R8. At an ordinary argument
this rests on the interval the model gives `pow10F`, log 7.) -/
def Obligations.CombGainsLieInZeroOne : Prop :=
  ∀ (ν : NanSource) (k l : Nat) (t60 sr : F64), 1 ≤ l → l < 2 ^ 53 → isFinite t60 = true → fgt t60 F64.zero = true →
    isFinite sr = true → fgt sr F64.zero = true → InRange F64.zero (combGain ν k l t60 sr) Config.one

/-- R237, for the mix expression of each side. Mix `+0.0` and a finite wet term: an input that is not NaN comes out
unchanged, but for `-0.0` beside a wet term with a clear sign, which gives `+0.0`. Mix 1.0 and a finite input: likewise
for the wet term. An infinite or NaN term is not cancelled by a zero weight. -/
def Obligations.MixBoundaryLaw : Prop :=
  ∀ (ν : NanSource) (b : Nat) (wet x : F64),
    (isFinite wet = true → isNaN x = false →
      mixOut ν b F64.zero wet x = (if x = F64.negZero ∧ wet.signBit = false then F64.zero else x)) ∧
    (isFinite x = true → isNaN wet = false →
      mixOut ν b Config.one wet x = (if wet = F64.negZero ∧ x.signBit = false then F64.zero else wet)) ∧
    (isFinite wet = false → isNaN (mixOut ν b F64.zero wet x) = true) ∧
    (isFinite x = false → isNaN (mixOut ν b Config.one wet x) = true)

/-- R235: REV_CLEAR zeroes every line's words and output, the lowpass state and the last outputs, and keeps indices,
lengths, gains, T60, SRCFG and mix. -/
def Obligations.RevClearZeroesTheLines : Prop :=
  encode .revClear = 0x0000000000000024#64 ∧
  ∀ (s : State) (u : DspUnit) (S : RevState), s.Addresses u → u.body = .rev S → S.cfg = true →
    ∃ ls : List Line, ls.length = S.lines.length ∧
      (∀ (k : Nat) (l l' : Line), S.lines[k]? = some l → ls[k]? = some l' →
        l'.cap = l.cap ∧ l'.w = l.w ∧ l'.r = l.r ∧ l'.delay = l.delay ∧ l'.last = F64.zero ∧
        ∀ i : Nat, l'.buf.read i = if i < l.cap then F64.zero else l.buf.read i) ∧
      exec .revClear s = .next (s.afterCommand { u with
        body := .rev { S with lines := ls, lp := F64.zero, lastL := F64.zero, lastR := F64.zero } })

/-! ### Invariants -/

/-- R263, R268: ERR and ERRCODE of every unit agree after every step. -/
def Obligations.StepKeepsStatusAgreement : Prop :=
  ∀ (s t : State), s.StatusInv → step s = .next t → t.StatusInv

/-- R32, R136, R66: every step keeps the FDL invariant: words inside the RAM, indices inside the line, delay in the
variant's range, FIXED read index at the delay behind the write index. (The RAM's canonical form, also of an UNCONFIGURED
unit, is the model's own, log 8.) -/
def Obligations.StepKeepsFdlInvariant : Prop :=
  ∀ (s t : State), s.FdlInv → step s = .next t → t.FdlInv

/-- R188, R191, R197: every step keeps the IIR invariant: flushed history, finite coefficients, gain, frequency and Q. -/
def Obligations.StepKeepsIirInvariant : Prop :=
  ∀ (s t : State), s.IirInv → step s = .next t → t.IirInv

/-- R224, R228, R230, R236: every step keeps the REV invariant: lines of their lengths, indices one apart, every stored
word flushed, mix in [0, 1], RAM enough. (The canonical form of a line's words is the model's own, log 8. That the clauses
on the lines hold of an UNCONFIGURED unit too, of which the spec leaves the lines unspecified, rests on the model's
choice to list none there, log 12.) -/
def Obligations.StepKeepsRevInvariant : Prop :=
  ∀ (s t : State), s.RevInv → step s = .next t → t.RevInv

/-- The four invariants hold after reset, for any instance list and any parameters. -/
def Obligations.InvariantsHoldAtReset : Prop :=
  ∀ (l : List (UnitType × Nat)) (p : Params),
    (State.resetWith l p).StatusInv ∧ (State.resetWith l p).FdlInv ∧ (State.resetWith l p).IirInv ∧
    (State.resetWith l p).RevInv

/-! ### Memory and arithmetic -/

/-- R66: a word reads what was last written to it, a write leaves every other word alone and keeps the canonical form,
and two RAMs in canonical form with the same contents are the same list. -/
def Obligations.RamWritesOneWord : Prop :=
  (∀ (m : Ram) (i j : Nat) (v : F64), (m.write i v).read j = if j = i then v else m.read j) ∧
  (∀ (m : Ram) (i : Nat) (v : F64), m.wf = true → (m.write i v).wf = true) ∧
  (∀ m m' : Ram, m.wf = true → m'.wf = true → (∀ i, m.read i = m'.read i) → m = m')

/-- R9: a sum, difference, product or quotient of finite values is the binary64 value nearest to the exact one, the even
one of two equally near, and infinite from halfway above the largest finite value on; and its sign. Comparisons of finite
values, and, by R8 and R105, integers up to `2^53` and floors, are exact. -/
def Obligations.SumsAndProductsRoundToNearest : Prop :=
  (∀ (n : NanBits) (a b z : F64) (exact : Rat) (zeroSign : Bool), isFinite a = true → isFinite b = true →
    ((z = fadd n a b ∧ exact = valueOf a + valueOf b ∧ zeroSign = (a.signBit && b.signBit)) ∨
     (z = fsub n a b ∧ exact = valueOf a - valueOf b ∧ zeroSign = (a.signBit && !b.signBit)) ∨
     (z = fmul n a b ∧ exact = valueOf a * valueOf b ∧ zeroSign = (a.signBit != b.signBit)) ∨
     (z = fdiv n a b ∧ valueOf b ≠ 0 ∧ exact = valueOf a / valueOf b ∧ zeroSign = (a.signBit != b.signBit))) →
    z.signBit = (if exact = 0 then zeroSign else decide (exact < 0)) ∧
    (2 ^ 1024 - 2 ^ 970 ≤ |exact| → z = .inf (decide (exact < 0))) ∧
    (|exact| < 2 ^ 1024 - 2 ^ 970 → isFinite z = true ∧ ∀ y : F64, isFinite y = true →
      |valueOf z - exact| ≤ |valueOf y - exact| ∧
      (|valueOf z - exact| = |valueOf y - exact| → valueOf y = valueOf z ∨ z.toBits.getLsbD 0 = false))) ∧
  (∀ a b : F64, isFinite a = true → isFinite b = true → (flt a b = true ↔ valueOf a < valueOf b)) ∧
  (∀ i : Int, |i| ≤ 2 ^ 53 → isFinite (i2f i) = true ∧ valueOf (i2f i) = i) ∧
  (∀ a : F64, isFinite a = true → ffloor a = ⌊valueOf a⌋)
end

