-- ==== Sys2Proof/Laws/Float.lean ====
section
/-! SUPPORT. Magnitude bounds of the arithmetic: how large a result can be, so that it is finite (00_scope.md R9), and the
flush (42_iir_filter.md R171). -/

namespace Sys2Proof.Machine

/-- `|x| < 2^k`, with a witness exponent of the significand. -/
def Below (k : Int) (x : F64) : Prop :=
  ∃ s m, x = .fin s m ∧ ∃ a : Nat, significand m < 2 ^ a ∧ (a : Int) + exponent m ≤ k

/-- `2^k ≤ x`. -/
def AtLeast (k : Int) (x : F64) : Prop :=
  ∃ m, x = .fin false m ∧ ∃ a : Nat, 2 ^ a ≤ significand m ∧ k ≤ (a : Int) + exponent m

/-- `x` is finite with a clear sign bit. -/
def Plus (x : F64) : Prop := ∃ m, x = .fin false m

theorem Below.finite {k : Int} {x : F64} (h : Below k x) : isFinite x = true := by
  obtain ⟨s, m, rfl, -⟩ := h; rfl

theorem Below.of_fin {k : Int} {s : Bool} {m : Fin infCode} (h : Below k (.fin s m)) :
    ∃ a : Nat, significand m < 2 ^ a ∧ (a : Int) + exponent m ≤ k := by
  obtain ⟨s', m', h, h'⟩ := h
  obtain ⟨-, rfl⟩ := F64.fin.inj h
  exact h'

theorem AtLeast.plus {k : Int} {x : F64} (h : AtLeast k x) : Plus x := by
  obtain ⟨m, rfl, -⟩ := h; exact ⟨m, rfl⟩

theorem Below.mono {j k : Int} {x : F64} (h : Below j x) (hjk : j ≤ k) : Below k x := by
  obtain ⟨s, m, rfl, a, h1, h2⟩ := h
  exact ⟨s, m, rfl, a, h1, by omega⟩

/-! ### From the code of a magnitude -/

theorem significand_lt (m : Fin infCode) : significand m < 2 ^ 53 := by
  unfold significand
  split <;> omega

theorem below_of_code {s : Bool} {m : Fin infCode} {k : Int} (hk : -1022 ≤ k)
    (h : (m.val : Int) < (k + 1023) * 4503599627370496) : Below k (.fin s m) := by
  refine ⟨s, m, rfl, ?_⟩
  by_cases h0 : m.val / 4503599627370496 = 0
  · refine ⟨52, ?_, ?_⟩
    · unfold significand; rw [if_pos h0]; omega
    · unfold exponent; rw [if_pos h0]; omega
  · refine ⟨53, significand_lt m, ?_⟩
    unfold exponent; rw [if_neg h0]; omega

theorem atLeast_of_code {m : Fin infCode} {k : Int} (hk : -1022 ≤ k)
    (h : (k + 1023) * 4503599627370496 ≤ (m.val : Int)) : AtLeast k (.fin false m) := by
  refine ⟨m, rfl, 52, ?_, ?_⟩
  · unfold significand; split <;> omega
  · unfold exponent; split <;> omega

/-! ### Rounding -/

theorem shiftRightEven_le {m a d : Nat} (h : m < 2 ^ a) (hd : d ≤ a) : shiftRightEven m d ≤ 2 ^ (a - d) := by
  have h1 : m / 2 ^ d < 2 ^ (a - d) := by
    rw [Nat.div_lt_iff_lt_mul (by positivity), ← pow_add, Nat.sub_add_cancel hd]; exact h
  unfold shiftRightEven
  dsimp only
  split <;> omega

theorem le_shiftRightEven (m d : Nat) : m / 2 ^ d ≤ shiftRightEven m d := by
  unfold shiftRightEven
  dsimp only
  split <;> omega

/-- Rounding a value below `2^k`, with the sign it is given. -/
theorem roundExact_below {s : Bool} {m a : Nat} {e k : Int} (h : m < 2 ^ a) (hk : (a : Int) + e ≤ k)
    (h1 : -1022 ≤ k) (h2 : k ≤ 1023) :
    ∃ n : Fin infCode, roundExact s m e = .fin s n ∧ (n.val : Int) ≤ (k + 1023) * 4503599627370496 := by
  unfold roundExact
  by_cases hm : m = 0
  · rw [if_pos hm]; exact ⟨⟨0, by decide⟩, rfl, by show (0 : Int) ≤ _; omega⟩
  rw [if_neg hm]
  dsimp only
  have hl : Nat.log2 m < a := (Nat.log2_lt hm).2 h
  have hml : m < 2 ^ (Nat.log2 m + 1) := Nat.lt_log2_self
  have hq1 : -1074 ≤ ulpExponent m e := by unfold ulpExponent; omega
  have hq2 : e + Nat.log2 m - 52 ≤ ulpExponent m e := by unfold ulpExponent; omega
  have hq3 : ulpExponent m e ≤ k - 53 ∨ ulpExponent m e = -1074 := by unfold ulpExponent; omega
  generalize ulpExponent m e = q at *
  have hk53 : (if q ≤ e then m * 2 ^ (e - q).toNat else shiftRightEven m (q - e).toNat) ≤ 2 ^ 53 ∧
      (q = -1074 → (if q ≤ e then m * 2 ^ (e - q).toNat else shiftRightEven m (q - e).toNat) ≤
        2 ^ (k + 1074).toNat) := by
    split
    · rename_i hqe
      have hpow : ∀ b : Nat, Nat.log2 m + 1 + (e - q).toNat ≤ b → m * 2 ^ (e - q).toNat ≤ 2 ^ b := by
        intro b hb
        calc m * 2 ^ (e - q).toNat ≤ 2 ^ (Nat.log2 m + 1) * 2 ^ (e - q).toNat := Nat.mul_le_mul_right _ hml.le
          _ = 2 ^ (Nat.log2 m + 1 + (e - q).toNat) := (pow_add ..).symm
          _ ≤ 2 ^ b := Nat.pow_le_pow_right (by decide) hb
      exact ⟨hpow 53 (by omega), fun _ => hpow _ (by omega)⟩
    · rename_i hqe
      have hpow : ∀ b : Nat, Nat.log2 m + 1 ≤ b + (q - e).toNat → shiftRightEven m (q - e).toNat ≤ 2 ^ b := by
        intro b hb
        have := shiftRightEven_le (m := m) (a := b + (q - e).toNat) (d := (q - e).toNat)
          (lt_of_lt_of_le hml (Nat.pow_le_pow_right (by decide) hb)) (by omega)
        simpa using this
      exact ⟨hpow 53 (by omega), fun _ => hpow _ (by omega)⟩
  generalize (if q ≤ e then m * 2 ^ (e - q).toNat else shiftRightEven m (q - e).toNat) = c at hk53 ⊢
  obtain ⟨hc1, hc2⟩ := hk53
  have hn : (((q + 1074).toNat * 4503599627370496 + c : Nat) : Int) ≤ (k + 1023) * 4503599627370496 := by
    rcases hq3 with hq3 | hq3
    · push_cast; omega
    · have hc := hc2 hq3
      by_cases hk52 : k + 1074 ≤ 52
      · have : 2 ^ (k + 1074).toNat ≤ 2 ^ 52 := Nat.pow_le_pow_right (by decide) (by omega)
        push_cast; omega
      · push_cast; omega
  have hlt : (q + 1074).toNat * 4503599627370496 + c < infCode := by
    have : (infCode : Int) = 9218868437227405312 := rfl
    omega
  rw [dif_pos hlt]
  exact ⟨⟨_, hlt⟩, rfl, hn⟩

/-- The code of a rounded value that is finite. -/
theorem roundExact_val {s : Bool} {m : Nat} {e : Int} {n : Fin infCode} (hm : m ≠ 0) (h : roundExact s m e = .fin s n) :
    n.val = (ulpExponent m e + 1074).toNat * 4503599627370496 +
      (if ulpExponent m e ≤ e then m * 2 ^ (e - ulpExponent m e).toNat
        else shiftRightEven m (ulpExponent m e - e).toNat) := by
  unfold roundExact at h
  rw [if_neg hm] at h
  dsimp only at h
  generalize (if ulpExponent m e ≤ e then m * 2 ^ (e - ulpExponent m e).toNat
        else shiftRightEven m (ulpExponent m e - e).toNat) = c at h ⊢
  by_cases hlt : (ulpExponent m e + 1074).toNat * 4503599627370496 + c < infCode
  · rw [dif_pos hlt] at h
    obtain ⟨-, h⟩ := F64.fin.inj h
    rw [← h]
  · rw [dif_neg hlt] at h
    exact absurd h (by simp)

/-- Rounding a value of at least `2^k`. -/
theorem roundExact_atLeast {m a b : Nat} {e k K : Int} (h : 2 ^ a ≤ m) (hk : k ≤ (a : Int) + e) (h1 : -1022 ≤ k)
    (hb : m < 2 ^ b) (hK : (b : Int) + e ≤ K) (h2 : K ≤ 1023) : AtLeast k (roundExact false m e) := by
  have hm : m ≠ 0 := by have : 0 < 2 ^ a := by positivity
                        omega
  have hal : a ≤ Nat.log2 m := (Nat.le_log2 hm).2 h
  have hlm : 2 ^ Nat.log2 m ≤ m := Nat.log2_self_le hm
  have hab : a < b := (Nat.pow_lt_pow_iff_right (by decide)).1 (lt_of_le_of_lt h hb)
  obtain ⟨n, hn, -⟩ := roundExact_below (s := false) hb hK (by omega) h2
  rw [hn]
  refine atLeast_of_code h1 ?_
  have hq2 : ulpExponent m e = e + Nat.log2 m - 52 ∧ -1074 ≤ e + Nat.log2 m - 52 := by unfold ulpExponent; omega
  obtain ⟨hq, hq1⟩ := hq2
  have hc : 2 ^ 52 ≤ (if ulpExponent m e ≤ e then m * 2 ^ (e - ulpExponent m e).toNat
      else shiftRightEven m (ulpExponent m e - e).toNat) := by
    split
    · calc 2 ^ 52 ≤ 2 ^ (Nat.log2 m) * 2 ^ (e - ulpExponent m e).toNat := by
            rw [← pow_add]; exact Nat.pow_le_pow_right (by decide) (by omega)
        _ ≤ _ := Nat.mul_le_mul_right _ hlm
    · refine le_trans ?_ (le_shiftRightEven ..)
      rw [Nat.le_div_iff_mul_le (by positivity), ← pow_add]
      exact le_trans (Nat.pow_le_pow_right (by decide) (by omega)) hlm
  rw [roundExact_val hm hn]
  generalize (if ulpExponent m e ≤ e then m * 2 ^ (e - ulpExponent m e).toNat
      else shiftRightEven m (ulpExponent m e - e).toNat) = c at hc
  rw [hq]
  push_cast
  omega

/-! ### The operations -/

theorem Below.of_round {s : Bool} {m a : Nat} {e k : Int} (h : m < 2 ^ a) (hk : (a : Int) + e ≤ k)
    (h1 : -1022 ≤ k) (h2 : k ≤ 1023) : Below (k + 1) (roundExact s m e) := by
  obtain ⟨n, hn, hle⟩ := roundExact_below (s := s) h hk h1 h2
  rw [hn]
  exact below_of_code (by omega) (by omega)

theorem Below.mul {j k : Int} {x y : F64} {n : NanBits} (hx : Below j x) (hy : Below k y) (h1 : -1022 ≤ j + k)
    (h2 : j + k ≤ 1023) : Below (j + k + 1) (fmul n x y) := by
  obtain ⟨sx, mx, rfl, a, ha, ha'⟩ := hx
  obtain ⟨sy, my, rfl, b, hb, hb'⟩ := hy
  refine Below.of_round (a := a + b) ?_ (by push_cast; omega) h1 h2
  rw [pow_add]
  exact Nat.mul_lt_mul'' ha hb

theorem Below.neg {k : Int} {x : F64} (h : Below k x) : Below k (fneg x) := by
  obtain ⟨s, m, rfl, h⟩ := h; exact ⟨!s, m, rfl, h⟩

/-- Both operands over the smaller exponent. -/
theorem scaled_lt {m : Fin infCode} {k e : Int} {a : Nat} (h : significand m < 2 ^ a) (ha : (a : Int) + exponent m ≤ k)
    (he : e ≤ exponent m) : significand m * 2 ^ (exponent m - e).toNat < 2 ^ (k - e).toNat :=
  calc significand m * 2 ^ (exponent m - e).toNat < 2 ^ a * 2 ^ (exponent m - e).toNat :=
        Nat.mul_lt_mul_of_pos_right h (by positivity)
    _ = 2 ^ (a + (exponent m - e).toNat) := (pow_add ..).symm
    _ ≤ 2 ^ (k - e).toNat := Nat.pow_le_pow_right (by decide) (by omega)

/-- `addFinite` over the scaled significands. -/
theorem addFinite_eq (sa : Bool) (ma : Fin infCode) (sb : Bool) (mb : Fin infCode) (e : Int) (A B : Nat) (t : Int)
    (he : e = min (exponent ma) (exponent mb)) (hA : A = significand ma * 2 ^ (exponent ma - e).toNat)
    (hB : B = significand mb * 2 ^ (exponent mb - e).toNat)
    (ht : t = (if sa then -(A : Int) else A) + (if sb then -(B : Int) else B)) :
    addFinite sa ma sb mb =
      if t = 0 then .fin (sa && sb) ⟨0, by decide⟩ else roundExact (decide (t < 0)) t.natAbs e := by
  subst ht hA hB he
  unfold addFinite
  push_cast
  rfl

theorem exponent_ge (m : Fin infCode) : -1074 ≤ exponent m := by unfold exponent; split <;> omega

theorem Below.add {k : Int} {x y : F64} {n : NanBits} (hx : Below k x) (hy : Below k y) (h1 : -1022 ≤ k)
    (h2 : k ≤ 1022) : Below (k + 2) (fadd n x y) := by
  obtain ⟨sx, mx, rfl, a, ha, ha'⟩ := hx
  obtain ⟨sy, my, rfl, b, hb, hb'⟩ := hy
  show Below (k + 2) (addFinite sx mx sy my)
  have hA := scaled_lt (k := max k (min (exponent mx) (exponent my))) ha (by omega) (min_le_left _ (exponent my))
  have hB := scaled_lt (k := max k (min (exponent mx) (exponent my))) hb (by omega) (min_le_right (exponent mx) _)
  have hmx := exponent_ge mx
  have hmy := exponent_ge my
  have hle : min (exponent mx) (exponent my) ≤ k ∨ (significand mx = 0 ∧ significand my = 0) := by
    by_cases h : min (exponent mx) (exponent my) ≤ k
    · exact .inl h
    · omega
  rw [addFinite_eq sx mx sy my _ _ _ _ rfl rfl rfl rfl]
  generalize min (exponent mx) (exponent my) = e at *
  generalize hAe : significand mx * 2 ^ (exponent mx - e).toNat = A at *
  generalize hBe : significand my * 2 ^ (exponent my - e).toNat = B at *
  by_cases ht : (if sx = true then -(A : Int) else A) + (if sy = true then -(B : Int) else B) = 0
  · rw [if_pos ht]
    exact below_of_code (by omega) (by show (0 : Int) < _; omega)
  · rw [if_neg ht]
    rcases hle with hle | ⟨h0, h0'⟩
    · refine (Below.of_round (a := (k - e).toNat + 1) (e := e) (k := k + 1) ?_ (by push_cast; omega) (by omega)
        (by omega)).mono (by omega)
      rw [show max k e = k by omega] at hA hB
      rw [pow_succ]
      generalize 2 ^ (k - e).toNat = P at *
      split <;> split <;> omega
    · rw [h0, Nat.zero_mul] at hAe
      rw [h0', Nat.zero_mul] at hBe
      subst hAe hBe
      simp at ht

theorem Below.sub {k : Int} {x y : F64} {n : NanBits} (hx : Below k x) (hy : Below k y) (h1 : -1022 ≤ k)
    (h2 : k ≤ 1022) : Below (k + 2) (fsub n x y) := hx.add hy.neg h1 h2

/-- A sum of a value of at least `2^j` and one with a clear sign. -/
theorem AtLeast.add {j k : Int} {x y : F64} {n : NanBits} (hx : AtLeast j x) (hy : Plus y) (hxk : Below k x)
    (hyk : Below k y) (h1 : -1022 ≤ j) (h2 : k ≤ 1022) : AtLeast j (fadd n x y) := by
  obtain ⟨mx, rfl, a, ha, ha'⟩ := hx
  obtain ⟨my, rfl⟩ := hy
  obtain ⟨a1, hA0, hA'⟩ := hxk.of_fin
  obtain ⟨b1, hB0, hB'⟩ := hyk.of_fin
  have hA := scaled_lt (k := max k (min (exponent mx) (exponent my))) hA0 (by omega) (min_le_left _ (exponent my))
  have hB := scaled_lt (k := max k (min (exponent mx) (exponent my))) hB0 (by omega) (min_le_right (exponent mx) _)
  have hlow : 2 ^ (a + (exponent mx - min (exponent mx) (exponent my)).toNat) ≤
      significand mx * 2 ^ (exponent mx - min (exponent mx) (exponent my)).toNat := by
    rw [pow_add]; exact Nat.mul_le_mul_right _ ha
  have hle : min (exponent mx) (exponent my) ≤ exponent mx := min_le_left ..
  have haa : a < a1 := (Nat.pow_lt_pow_iff_right (by decide)).1 (lt_of_le_of_lt ha hA0)
  have hpos : 0 < 2 ^ (a + (exponent mx - min (exponent mx) (exponent my)).toNat) := by positivity
  show AtLeast j (addFinite false mx false my)
  rw [addFinite_eq false mx false my _ _ _ _ rfl rfl rfl rfl]
  generalize min (exponent mx) (exponent my) = e at *
  generalize significand mx * 2 ^ (exponent mx - e).toNat = A at *
  generalize significand my * 2 ^ (exponent my - e).toNat = B at *
  simp only [Bool.false_eq_true, if_false]
  rw [if_neg (by omega), show decide ((A : Int) + B < 0) = false from decide_eq_false (by omega),
    show ((A : Int) + B).natAbs = A + B by omega]
  rw [show max k e = k by omega] at hA hB
  refine roundExact_atLeast (a := a + (exponent mx - e).toNat) (b := (k - e).toNat + 1) (K := k + 1) ?_
    (by push_cast; omega) h1 ?_ (by push_cast; omega) (by omega)
  · omega
  · rw [pow_succ]; omega

/-- A product of values with clear sign bits has a clear sign bit. -/
theorem Plus.mul {j k : Int} {x y : F64} {n : NanBits} (hx : Plus x) (hy : Plus y) (hxj : Below j x) (hyk : Below k y)
    (h1 : -1022 ≤ j + k) (h2 : j + k ≤ 1023) : Plus (fmul n x y) := by
  obtain ⟨mx, rfl⟩ := hx
  obtain ⟨my, rfl⟩ := hy
  obtain ⟨a, ha, ha'⟩ := hxj.of_fin
  obtain ⟨b, hb, hb'⟩ := hyk.of_fin
  obtain ⟨m, hm, -⟩ := roundExact_below (s := false) (m := significand mx * significand my) (a := a + b)
    (e := exponent mx + exponent my) (k := j + k) (by rw [pow_add]; exact Nat.mul_lt_mul'' ha hb)
    (by push_cast; omega) h1 h2
  exact ⟨m, hm⟩

/-- A quotient by a value of at least `2^j`. -/
theorem below_div {j k : Int} {x y : F64} {n : NanBits} (hx : Below k x) (hy : AtLeast j y) (h1 : -1022 ≤ k - j)
    (h2 : k - j ≤ 1023) : Below (k - j + 1) (fdiv n x y) ∧ (Plus x → Plus (fdiv n x y)) := by
  obtain ⟨sx, mx, rfl, a, ha, ha'⟩ := hx
  obtain ⟨my, rfl, b, hb, hb'⟩ := hy
  have hb53 : b < 53 := (Nat.pow_lt_pow_iff_right (by decide)).1 (lt_of_le_of_lt hb (significand_lt my))
  have h0 : my.val ≠ 0 := by
    intro h0
    have : significand my = 0 := by unfold significand; simp [h0]
    have : 0 < 2 ^ b := by positivity
    omega
  have hj : jam (significand mx * 2 ^ 120 / significand my)
      (decide (significand mx * 2 ^ 120 % significand my = 0)) < 2 ^ (a + 121 - b) := by
    have hq : significand mx * 2 ^ 120 / significand my < 2 ^ (a + 120 - b) := by
      rw [Nat.div_lt_iff_lt_mul (by have : 0 < 2 ^ b := by positivity
                                    omega)]
      calc significand mx * 2 ^ 120 < 2 ^ a * 2 ^ 120 := Nat.mul_lt_mul_of_pos_right ha (by positivity)
        _ = 2 ^ (a + 120 - b) * 2 ^ b := by rw [← pow_add, ← pow_add]; congr 1; omega
        _ ≤ _ := Nat.mul_le_mul_left _ hb
    rw [show a + 121 - b = (a + 120 - b) + 1 by omega, pow_succ]
    unfold jam
    generalize significand mx * 2 ^ 120 / significand my = d at hq ⊢
    split <;> omega
  have hs : ∀ s : Bool, ∃ m, divFinite s mx my = .fin s m ∧ (m.val : Int) ≤ (k - j + 1023) * 4503599627370496 := by
    intro s
    exact roundExact_below (s := s) hj (by omega) h1 h2
  have he : fdiv n (.fin sx mx) (.fin false my) = divFinite (sx != false) mx my := by
    simp only [fdiv, if_neg h0]
  obtain ⟨m, hm, hle⟩ := hs (sx != false)
  rw [he, hm]
  refine ⟨below_of_code (by omega) (by omega), ?_⟩
  rintro ⟨m', h⟩
  obtain ⟨rfl, -⟩ := F64.fin.inj h
  exact ⟨m, rfl⟩

/-! ### The flush -/

theorem flush_cases (v : F64) : flush v = v ∨ flush v = F64.zero := by
  unfold flush; split <;> simp

theorem flush_zero : flush F64.zero = F64.zero := by
  rcases flush_cases F64.zero with h | h <;> exact h

theorem flush_flush (v : F64) : flush (flush v) = flush v := by
  rcases flush_cases v with h | h <;> rw [h]
  · exact h
  · exact flush_zero

end Sys2Proof.Machine
end

