-- ==== Sys2Proof/Laws/Rounding.lean ====
section
/-! SUPPORT. The value of a magnitude code, and how near `roundExact` comes to the exact value (00_scope.md R9). -/

namespace Sys2Proof.Machine

/-- The value of a magnitude code in units of `2^-1074`. -/
def units (c : Nat) : Nat :=
  if c / 4503599627370496 = 0 then c
  else (c % 4503599627370496 + 4503599627370496) * 2 ^ (c / 4503599627370496 - 1)

theorem units_lt_succ (c : Nat) : units c < units (c + 1) := by
  unfold units
  by_cases h : (c + 1) % 4503599627370496 = 0
  · have h1 : c % 4503599627370496 = 4503599627370495 := by omega
    have h2 : (c + 1) / 4503599627370496 = c / 4503599627370496 + 1 := by omega
    have h3 : c = c / 4503599627370496 * 4503599627370496 + 4503599627370495 := by omega
    rw [h1, h2, h]
    rw [if_neg (show ¬ (c / 4503599627370496 + 1 = 0) by omega)]
    by_cases hq : c / 4503599627370496 = 0
    · rw [if_pos hq, hq]; rw [hq] at h3; simp; omega
    · rw [if_neg hq]
      obtain ⟨q, hq'⟩ : ∃ q, c / 4503599627370496 = q + 1 := ⟨c / 4503599627370496 - 1, by omega⟩
      rw [hq', Nat.add_sub_cancel, Nat.add_sub_cancel, pow_succ]
      have : 0 < 2 ^ q := by positivity
      omega
  · have h1 : (c + 1) % 4503599627370496 = c % 4503599627370496 + 1 := by omega
    have h2 : (c + 1) / 4503599627370496 = c / 4503599627370496 := by omega
    rw [h1, h2]
    by_cases hq : c / 4503599627370496 = 0
    · rw [if_pos hq, if_pos hq]; omega
    · rw [if_neg hq, if_neg hq]
      exact Nat.mul_lt_mul_of_pos_right (by omega) (by positivity)

theorem units_strictMono : StrictMono units := strictMono_nat_of_lt_succ units_lt_succ

/-- The rational a magnitude stands for. -/
theorem valueOf_fin (s : Bool) (m : Fin infCode) :
    valueOf (.fin s m) = (if s then -1 else 1) * ((units m.val : Rat) * 2 ^ (-1074 : Int)) := by
  unfold valueOf units significand exponent
  by_cases h : m.val / 4503599627370496 = 0
  · simp only [if_pos h]; ring
  · simp only [if_neg h]
    obtain ⟨q, hq⟩ : ∃ q, m.val / 4503599627370496 = q + 1 := ⟨m.val / 4503599627370496 - 1, by omega⟩
    rw [hq, Nat.add_sub_cancel, show (((q + 1 : Nat) : Int) - 1075) = (q : Int) + -1074 by push_cast; ring,
      zpow_add₀ (by norm_num), zpow_natCast]
    push_cast
    ring

theorem valueOf_mono {a b : Fin infCode} (h : a.val ≤ b.val) : valueOf (.fin false a) ≤ valueOf (.fin false b) := by
  rw [valueOf_fin, valueOf_fin]
  have h1 : units a.val ≤ units b.val := units_strictMono.monotone h
  have h2 : (units a.val : Rat) ≤ units b.val := by exact_mod_cast h1
  have h3 : (0 : Rat) ≤ 2 ^ (-1074 : Int) := by positivity
  simp only [Bool.false_eq_true, if_false, one_mul]
  exact mul_le_mul_of_nonneg_right h2 h3

theorem units_code {q k : Nat} (hk : k ≤ 2 ^ 53) (h : q = 0 ∨ 2 ^ 52 ≤ k) :
    units (q * 4503599627370496 + k) = k * 2 ^ q := by
  unfold units
  rcases Nat.lt_or_ge k (2 ^ 52) with h1 | h1
  · obtain rfl : q = 0 := by omega
    rw [if_pos (by omega)]; simp
  · rcases Nat.lt_or_ge k (2 ^ 53) with h2 | h2
    · rw [if_neg (by omega), show (q * 4503599627370496 + k) % 4503599627370496 + 4503599627370496 = k by omega,
        show (q * 4503599627370496 + k) / 4503599627370496 - 1 = q by omega]
    · obtain rfl : k = 2 ^ 53 := by omega
      rw [if_neg (by omega), show (q * 4503599627370496 + 2 ^ 53) % 4503599627370496 + 4503599627370496 = 2 ^ 52 by omega,
        show (q * 4503599627370496 + 2 ^ 53) / 4503599627370496 - 1 = q + 1 by omega, pow_succ]
      ring

/-- Rounding an integer quotient by `2^d`, ties to even: at most half away, and even at half. -/
theorem shiftRightEven_spec (m d : Nat) :
    (2 * m ≤ (2 * shiftRightEven m d + 1) * 2 ^ d ∧ 2 * shiftRightEven m d * 2 ^ d ≤ 2 * m + 2 ^ d) ∧
    ((2 * m = (2 * shiftRightEven m d + 1) * 2 ^ d ∨ 2 * shiftRightEven m d * 2 ^ d = 2 * m + 2 ^ d) →
      shiftRightEven m d % 2 = 0) := by
  have h := Nat.div_add_mod m (2 ^ d)
  have hlt := Nat.mod_lt m (show 0 < 2 ^ d by positivity)
  unfold shiftRightEven
  dsimp only
  generalize m / 2 ^ d = k at *
  generalize m % 2 ^ d = r at *
  generalize 2 ^ d = D at *
  subst h
  split
  · rename_i hc
    have h1 : D ≤ 2 * r := by omega
    refine ⟨⟨by nlinarith, by nlinarith⟩, fun h => ?_⟩
    have : 2 * r ≤ D := by rcases h with h | h <;> nlinarith
    omega
  · rename_i hc
    push Not at hc
    refine ⟨⟨by nlinarith, by nlinarith⟩, fun h => ?_⟩
    have : D ≤ 2 * r := by rcases h with h | h <;> nlinarith
    omega

/-- The integer significand `roundExact` keeps of `m * 2^e`. -/
def rounded (m : Nat) (e : Int) : Nat :=
  if ulpExponent m e ≤ e then m * 2 ^ (e - ulpExponent m e).toNat else shiftRightEven m (ulpExponent m e - e).toNat

theorem two_zpow_split (a b : Int) (h : b ≤ a) : (2 : Rat) ^ a = ((2 ^ (a - b).toNat : Nat) : Rat) * 2 ^ b := by
  push_cast
  rw [← zpow_natCast, ← zpow_add₀ (by norm_num)]
  congr 1; omega

/-- The kept significand is at most half a last place away from the exact value, and even at half. -/
theorem rounded_error (m : Nat) (e : Int) :
    |(rounded m e : Rat) * 2 ^ ulpExponent m e - m * 2 ^ e| ≤ 2 ^ (ulpExponent m e - 1) ∧
    (|(rounded m e : Rat) * 2 ^ ulpExponent m e - m * 2 ^ e| = 2 ^ (ulpExponent m e - 1) → rounded m e % 2 = 0) := by
  unfold rounded
  generalize ulpExponent m e = q
  have hp : (0 : Rat) < 2 ^ (q - 1) := by positivity
  have hq2 : (2 : Rat) ^ q = 2 * 2 ^ (q - 1) := by
    rw [show q = (q - 1) + 1 by ring, zpow_add₀ (by norm_num)]; simp; ring
  by_cases h : q ≤ e
  · rw [if_pos h, two_zpow_split e q h]
    have : ((m * 2 ^ (e - q).toNat : Nat) : Rat) * 2 ^ q - m * (((2 ^ (e - q).toNat : Nat) : Rat) * 2 ^ q) = 0 := by
      push_cast; ring
    rw [this, abs_zero]
    exact ⟨hp.le, fun h => absurd h hp.ne⟩
  · rw [if_neg h]
    obtain ⟨⟨h1, h2⟩, h3⟩ := shiftRightEven_spec m (q - e).toNat
    generalize shiftRightEven m (q - e).toNat = k at *
    have he : (0 : Rat) < 2 ^ (e - 1) := by positivity
    have he2 : (2 : Rat) ^ e = 2 * 2 ^ (e - 1) := by
      rw [show e = (e - 1) + 1 by ring, zpow_add₀ (by norm_num)]; simp; ring
    have hqe : (2 : Rat) ^ (q - 1) = ((2 ^ (q - e).toNat : Nat) : Rat) * 2 ^ (e - 1) := by
      rw [two_zpow_split (q - 1) (e - 1) (by omega)]
      congr 4; omega
    rw [hq2, hqe, he2]
    generalize (2 : Nat) ^ (q - e).toNat = D at *
    generalize (2 : Rat) ^ (e - 1) = E at *
    have h1' : (2 * m : Rat) ≤ (2 * k + 1) * D := by exact_mod_cast h1
    have h2' : (2 * k * D : Rat) ≤ 2 * m + D := by exact_mod_cast h2
    have e1 : (k : Rat) * (2 * (D * E)) - m * (2 * E) = (2 * k * D - 2 * m) * E := by ring
    rw [e1, abs_mul, abs_of_pos he]
    refine ⟨mul_le_mul_of_nonneg_right (abs_le.2 ⟨by linarith, by linarith⟩) he.le, fun h => h3 ?_⟩
    have h' := mul_right_cancel₀ he.ne' h
    rcases (abs_eq (by positivity)).1 h' with h' | h'
    · right
      have : (2 * k * D : Rat) = 2 * m + D := by linarith
      exact_mod_cast this
    · left
      have : (2 * m : Rat) = (2 * k + 1) * D := by linarith
      exact_mod_cast this

theorem rounded_bounds {m : Nat} (hm : m ≠ 0) (e : Int) :
    rounded m e ≤ 2 ^ 53 ∧ (ulpExponent m e = -1074 ∨ 2 ^ 52 ≤ rounded m e) := by
  have h1 : 2 ^ Nat.log2 m ≤ m := Nat.log2_self_le hm
  have h2 : m < 2 ^ (Nat.log2 m + 1) := Nat.lt_log2_self
  have hq : ulpExponent m e = -1074 ∨ ulpExponent m e = e + Nat.log2 m - 52 := by unfold ulpExponent; omega
  have hq' : e + Nat.log2 m - 52 ≤ ulpExponent m e := by unfold ulpExponent; omega
  unfold rounded
  generalize ulpExponent m e = q at *
  split
  · rename_i h
    constructor
    · calc m * 2 ^ (e - q).toNat ≤ 2 ^ (Nat.log2 m + 1) * 2 ^ (e - q).toNat := Nat.mul_le_mul_right _ h2.le
        _ = 2 ^ (Nat.log2 m + 1 + (e - q).toNat) := (pow_add ..).symm
        _ ≤ 2 ^ 53 := Nat.pow_le_pow_right (by decide) (by omega)
    · refine hq.imp id fun hq => ?_
      calc 2 ^ 52 ≤ 2 ^ (Nat.log2 m) * 2 ^ (e - q).toNat := by
            rw [← pow_add]; exact Nat.pow_le_pow_right (by decide) (by omega)
        _ ≤ _ := Nat.mul_le_mul_right _ h1
  · rename_i h
    constructor
    · have := shiftRightEven_le (m := m) (a := 53 + (q - e).toNat) (d := (q - e).toNat)
        (lt_of_lt_of_le h2 (Nat.pow_le_pow_right (by decide) (by omega))) (by omega)
      simpa using this
    · refine hq.imp id fun hq => le_trans ?_ (le_shiftRightEven ..)
      rw [Nat.le_div_iff_mul_le (by positivity), ← pow_add]
      exact le_trans (Nat.pow_le_pow_right (by decide) (by omega)) h1

/-- What `roundExact` answers: the kept significand at its exponent, or infinity where that is no finite value. -/
theorem roundExact_value {s : Bool} {m : Nat} {e : Int} (hm : m ≠ 0) :
    (∃ n : Fin infCode, roundExact s m e = .fin s n ∧
      n.val = (ulpExponent m e + 1074).toNat * 4503599627370496 + rounded m e ∧
      valueOf (.fin false n) = rounded m e * 2 ^ ulpExponent m e) ∨
    (roundExact s m e = .inf s ∧ infCode ≤ (ulpExponent m e + 1074).toNat * 4503599627370496 + rounded m e) := by
  have hr : roundExact s m e = if h : (ulpExponent m e + 1074).toNat * 4503599627370496 + rounded m e < infCode then
      .fin s ⟨_, h⟩ else .inf s := by
    unfold roundExact rounded; rw [if_neg hm]
  by_cases h : (ulpExponent m e + 1074).toNat * 4503599627370496 + rounded m e < infCode
  · rw [dif_pos h] at hr
    refine .inl ⟨_, hr, rfl, ?_⟩
    obtain ⟨h1, h2⟩ := rounded_bounds hm e
    have hq : -1074 ≤ ulpExponent m e := by unfold ulpExponent; omega
    rw [valueOf_fin, units_code h1 (by omega), two_zpow_split (ulpExponent m e) (-1074) hq]
    simp only [Bool.false_eq_true, if_false, one_mul]
    push_cast
    rw [show (ulpExponent m e - -1074).toNat = (ulpExponent m e + 1074).toNat by congr 1]
    ring
  · rw [dif_neg h] at hr
    exact .inr ⟨hr, by omega⟩

end Sys2Proof.Machine
end

