-- ==== Sys2Proof/Laws/Functions.lean ====
section
/-! SUPPORT. How near the configuration functions come to the real functions, and the designed coefficients to their closed
forms (00_scope.md R12, log 7). -/

namespace Sys2Proof.Machine
open Complex

/-! ### Cosine and sine by doubling an angle -/

/-- The complex number a pair of fixed-point numbers stands for. -/
noncomputable def pairValue (p : Nat) (z : Int × Int) : ℂ := ⟨z.1 / 2 ^ p, z.2 / 2 ^ p⟩

theorem floor_div_error (a : Int) (p : Nat) : |((a / 2 ^ p : Int) : ℝ) - a / 2 ^ p| ≤ 1 := by
  have h := Int.mul_ediv_add_emod a (2 ^ p)
  have h1 := Int.emod_nonneg a (show (2 : Int) ^ p ≠ 0 by positivity)
  have h2 := Int.emod_lt_of_pos a (show (0 : Int) < 2 ^ p by positivity)
  have hp : (0 : ℝ) < 2 ^ p := by positivity
  have h' : (2 : ℝ) ^ p * ((a / 2 ^ p : Int) : ℝ) + ((a % 2 ^ p : Int) : ℝ) = a := by exact_mod_cast h
  have h1' : (0 : ℝ) ≤ ((a % 2 ^ p : Int) : ℝ) := by exact_mod_cast h1
  have h2' : ((a % 2 ^ p : Int) : ℝ) < 2 ^ p := by exact_mod_cast h2
  have : ((a / 2 ^ p : Int) : ℝ) - a / 2 ^ p = -(((a % 2 ^ p : Int) : ℝ) / 2 ^ p) := by
    rw [← h']; field_simp; ring
  rw [this, abs_neg, abs_of_nonneg (by positivity), div_le_one hp]
  exact h2'.le

/-- One doubling squares the complex number, up to the cut. -/
theorem doubleAngle_error (p : Nat) (z : Int × Int) :
    ‖pairValue p (doubleAngle p z) - pairValue p z ^ 2‖ ≤ 2 / 2 ^ p := by
  have hp : (0 : ℝ) < 2 ^ p := by positivity
  refine (norm_le_abs_re_add_abs_im _).trans ?_
  have h1 := floor_div_error (z.1 * z.1 - z.2 * z.2) p
  have h2 := floor_div_error (2 * z.1 * z.2) p
  have e1 : (pairValue p (doubleAngle p z) - pairValue p z ^ 2).re =
      ((((z.1 * z.1 - z.2 * z.2) / 2 ^ p : Int) : ℝ) - ((z.1 * z.1 - z.2 * z.2 : Int) : ℝ) / 2 ^ p) / 2 ^ p := by
    simp only [pairValue, doubleAngle, pow_two, sub_re, mul_re]; push_cast; field_simp
  have e2 : (pairValue p (doubleAngle p z) - pairValue p z ^ 2).im =
      (((2 * z.1 * z.2 / 2 ^ p : Int) : ℝ) - ((2 * z.1 * z.2 : Int) : ℝ) / 2 ^ p) / 2 ^ p := by
    simp only [pairValue, doubleAngle, pow_two, sub_im, mul_im]; push_cast; field_simp; ring
  rw [e1, e2, abs_div, abs_div, abs_of_pos hp, ← add_div]
  exact div_le_div_of_nonneg_right (by linarith) hp.le

theorem exp_double (θ : ℝ) : cexp (((2 * θ : ℝ) : ℂ) * I) = cexp ((θ : ℂ) * I) ^ 2 := by
  rw [← Complex.exp_nat_mul]; push_cast; ring_nf

/-- The error after `k` doublings grows by little more than `2` each. -/
theorem doubleAngles_error (p : Nat) {η : ℝ} (hη : 0 ≤ η) :
    ∀ (k : Nat) (z : Int × Int) (θ u : ℝ), ‖pairValue p z - cexp ((θ : ℂ) * I)‖ + 4 / 2 ^ p ≤ u →
      (2 * (1 + η)) ^ k * u ≤ 2 * η →
      ‖pairValue p (doubleAngles p k z) - cexp (((2 ^ k * θ : ℝ) : ℂ) * I)‖ + 4 / 2 ^ p ≤ (2 * (1 + η)) ^ k * u
  | 0, z, θ, u, h, _ => by simpa [doubleAngles] using h
  | k + 1, z, θ, u, h, hk => by
    have hp : (0 : ℝ) < 4 / 2 ^ p := by positivity
    have hb : (1 : ℝ) ≤ 2 * (1 + η) := by linarith
    have hu : 0 ≤ u := le_trans (by positivity) h
    have hδ : ‖pairValue p z - cexp ((θ : ℂ) * I)‖ ≤ 2 * η := by
      have : u ≤ (2 * (1 + η)) ^ (k + 1) * u := le_mul_of_one_le_left hu (one_le_pow₀ hb)
      linarith
    have hw : ‖cexp ((θ : ℂ) * I)‖ = 1 := norm_exp_ofReal_mul_I θ
    have hstep : ‖pairValue p (doubleAngle p z) - cexp (((2 * θ : ℝ) : ℂ) * I)‖ + 4 / 2 ^ p ≤ 2 * (1 + η) * u := by
      rw [exp_double]
      have h1 := doubleAngle_error p z
      have h2 : ‖pairValue p z ^ 2 - cexp ((θ : ℂ) * I) ^ 2‖ ≤
          ‖pairValue p z - cexp ((θ : ℂ) * I)‖ * (2 + 2 * η) := by
        rw [sq_sub_sq, mul_comm, norm_mul]
        refine mul_le_mul_of_nonneg_left ?_ (norm_nonneg _)
        calc ‖pairValue p z + cexp ((θ : ℂ) * I)‖
            = ‖(pairValue p z - cexp ((θ : ℂ) * I)) + 2 * cexp ((θ : ℂ) * I)‖ := by congr 1; ring
          _ ≤ ‖pairValue p z - cexp ((θ : ℂ) * I)‖ + ‖2 * cexp ((θ : ℂ) * I)‖ := norm_add_le _ _
          _ ≤ _ := by rw [norm_mul, hw, show ‖(2 : ℂ)‖ = 2 by simp]; linarith
      have h3 : ‖pairValue p (doubleAngle p z) - cexp ((θ : ℂ) * I) ^ 2‖ ≤
          2 / 2 ^ p + ‖pairValue p z - cexp ((θ : ℂ) * I)‖ * (2 + 2 * η) := by
        calc _ = ‖(pairValue p (doubleAngle p z) - pairValue p z ^ 2) +
              (pairValue p z ^ 2 - cexp ((θ : ℂ) * I) ^ 2)‖ := by congr 1; ring
          _ ≤ _ := norm_add_le _ _
          _ ≤ _ := add_le_add h1 h2
      have h4 : (2 : ℝ) / 2 ^ p = 4 / 2 ^ p / 2 := by ring
      nlinarith
    have := doubleAngles_error p hη k (doubleAngle p z) (2 * θ) (2 * (1 + η) * u) hstep
      (by rw [← mul_assoc, ← pow_succ]; exact hk)
    rw [show doubleAngles p (k + 1) z = doubleAngles p k (doubleAngle p z) from rfl,
      show (2 : ℝ) ^ (k + 1) * θ = 2 ^ k * (2 * θ) by ring]
    rw [pow_succ, mul_assoc]
    exact this

/-- A magnitude as a real number. -/
theorem valueOf_real (m : Fin infCode) :
    ((valueOf (.fin false m) : ℚ) : ℝ) = significand m * 2 ^ exponent m := by
  unfold valueOf; push_cast; simp

theorem exponent_le (m : Fin infCode) : exponent m ≤ 971 := by
  have := m.isLt
  unfold exponent infCode at *
  split <;> omega

/-- `cosSin` is within `2^-150` of the cosine and the sine. -/
theorem cosSin_error {m : Fin infCode} (h : smallAngle ≤ m.val) :
    ‖pairValue (anglePrecision m) (cosSin m) - cexp (((valueOf (.fin false m) : ℚ) : ℝ) * I)‖ ≤ 1 / 2 ^ 150 := by
  have he : -77 ≤ exponent m := by
    unfold smallAngle at h; unfold exponent; split <;> omega
  have he' := exponent_le m
  have hs : (significand m : ℝ) < 2 ^ 53 := by exact_mod_cast significand_lt m
  have hs0 : (0 : ℝ) ≤ significand m := by positivity
  rw [valueOf_real]
  have hx : (significand m : ℝ) * 2 ^ exponent m ≤ 2 ^ (exponent m + 53).toNat := by
    calc (significand m : ℝ) * 2 ^ exponent m ≤ 2 ^ 53 * 2 ^ exponent m :=
          mul_le_mul_of_nonneg_right hs.le (by positivity)
      _ = 2 ^ (exponent m + 53) := by rw [add_comm, zpow_add₀ (by norm_num)]; norm_num
      _ ≤ 2 ^ (((exponent m + 53).toNat : Nat) : Int) := zpow_le_zpow_right₀ (by norm_num) (by omega)
      _ = _ := zpow_natCast ..
  have hx0 : (0 : ℝ) ≤ (significand m : ℝ) * 2 ^ exponent m := by positivity
  have hpair : pairValue (anglePrecision m) (2 ^ anglePrecision m, (significand m * 2 ^ (exponent m + 166).toNat : Nat)) =
      1 + ((((significand m : ℝ) * 2 ^ exponent m) / 2 ^ halvings m : ℝ) : ℂ) * I := by
    have h166 : ((2 : ℝ) ^ (exponent m + 166).toNat) = 2 ^ exponent m * 2 ^ 166 := by
      rw [← zpow_natCast, show (((exponent m + 166).toNat : Nat) : Int) = exponent m + 166 by omega,
        zpow_add₀ (by norm_num)]
      norm_num
    apply Complex.ext
    · rw [Complex.add_re, Complex.re_ofReal_mul]
      simp [pairValue]
    · rw [Complex.add_im, Complex.im_ofReal_mul, Complex.I_im, Complex.one_im]
      simp only [pairValue, anglePrecision]
      push_cast
      rw [h166, pow_add]
      field_simp
      ring
  unfold cosSin
  generalize (significand m : ℝ) * 2 ^ exponent m = x at *
  have hk : halvings m = 2 * (exponent m + 53).toNat + 160 := rfl
  have hP : anglePrecision m = 2 * (exponent m + 53).toNat + 326 := rfl
  have hE : (exponent m + 53).toNat ≤ 1024 := by omega
  rw [hP, hk] at hpair
  rw [hP, hk]
  clear hP hk
  generalize (exponent m + 53).toNat = E at *
  have hy : x / 2 ^ (2 * E + 160) ≤ 1 / 2 ^ (E + 160) := by
    rw [div_le_div_iff₀ (by positivity) (by positivity), show 2 * E + 160 = E + (E + 160) by ring, pow_add 2 E (E + 160),
      one_mul]
    exact mul_le_mul_of_nonneg_right hx (by positivity)
  have hy0 : 0 ≤ x / 2 ^ (2 * E + 160) := by positivity
  have hy1 : x / 2 ^ (2 * E + 160) ≤ 1 := hy.trans (by rw [div_le_one (by positivity)]; exact one_le_pow₀ (by norm_num))
  have h0 : ‖pairValue (2 * E + 326) (2 ^ (2 * E + 326), (significand m * 2 ^ (exponent m + 166).toNat : Nat)) -
      cexp (((x / 2 ^ (2 * E + 160) : ℝ) : ℂ) * I)‖ ≤ 1 / 2 ^ (2 * E + 320) := by
    rw [hpair, norm_sub_rev, ← sub_sub]
    have hn : ‖(((x / 2 ^ (2 * E + 160) : ℝ) : ℂ) * I)‖ = x / 2 ^ (2 * E + 160) := by
      rw [norm_mul, Complex.norm_I, mul_one, Complex.norm_real, Real.norm_of_nonneg hy0]
    refine (Complex.norm_exp_sub_one_sub_id_le (by rw [hn]; exact hy1)).trans ?_
    rw [hn]
    calc (x / 2 ^ (2 * E + 160)) ^ 2 ≤ (1 / 2 ^ (E + 160)) ^ 2 := pow_le_pow_left₀ hy0 hy 2
      _ = _ := by rw [div_pow, one_pow, ← pow_mul, show (E + 160) * 2 = 2 * E + 320 by ring]
  have hgrow : (1 + 1 / 2 ^ 64 : ℝ) ^ (2 * E + 160) ≤ 2 := by
    have h1 : (1 + 1 / 2 ^ 64 : ℝ) ^ (2 * E + 160) ≤ (1 + 1 / 2 ^ 64 : ℝ) ^ (2 ^ 12) :=
      pow_le_pow_right₀ (by norm_num) (by omega)
    have h2 := one_add_mul_le_pow (show (-2 : ℝ) ≤ -(1 / 2 ^ 64) by norm_num) (2 ^ 12)
    have h3 : (1 + 1 / 2 ^ 64 : ℝ) ^ (2 ^ 12) * (1 + -(1 / 2 ^ 64)) ^ (2 ^ 12) ≤ 1 := by
      rw [← mul_pow]; exact pow_le_one₀ (by norm_num) (by norm_num)
    have h4 : (1 : ℝ) / 2 ≤ (1 + -(1 / 2 ^ 64)) ^ (2 ^ 12) := le_trans (by norm_num) h2
    have h5 : (0 : ℝ) ≤ (1 + 1 / 2 ^ 64 : ℝ) ^ (2 ^ 12) := by positivity
    have aux : ∀ A B : ℝ, A * B ≤ 1 → 1 / 2 ≤ B → 0 ≤ A → A ≤ 2 := by intro A B _ _ _; nlinarith
    exact h1.trans (aux _ _ h3 h4 h5)
  have hu : (2 * (1 + 1 / 2 ^ 64 : ℝ)) ^ (2 * E + 160) * (1 / 2 ^ (2 * E + 319)) ≤ 1 / 2 ^ 158 := by
    rw [mul_pow, show 2 * E + 319 = (2 * E + 160) + 159 by ring, pow_add (2 : ℝ) (2 * E + 160) 159]
    have hpos : (0 : ℝ) < 2 ^ (2 * E + 160) := by positivity
    calc 2 ^ (2 * E + 160) * (1 + 1 / 2 ^ 64 : ℝ) ^ (2 * E + 160) * (1 / (2 ^ (2 * E + 160) * 2 ^ 159))
        = (1 + 1 / 2 ^ 64 : ℝ) ^ (2 * E + 160) * (1 / 2 ^ 159) := by field_simp
      _ ≤ 2 * (1 / 2 ^ 159) := mul_le_mul_of_nonneg_right hgrow (by positivity)
      _ = _ := by norm_num
  have hsum : 1 / 2 ^ (2 * E + 320) + 4 / 2 ^ (2 * E + 326) ≤ (1 : ℝ) / 2 ^ (2 * E + 319) := by
    rw [show 2 * E + 326 = (2 * E + 319) + 7 by ring, show 2 * E + 320 = (2 * E + 319) + 1 by ring,
      pow_add (2 : ℝ) (2 * E + 319) 7, pow_add (2 : ℝ) (2 * E + 319) 1]
    have : (0 : ℝ) < 2 ^ (2 * E + 319) := by positivity
    generalize (2 : ℝ) ^ (2 * E + 319) = A at *
    rw [div_add_div _ _ (by positivity) (by positivity), div_le_div_iff₀ (by positivity) this]
    nlinarith
  have := doubleAngles_error (2 * E + 326) (η := 1 / 2 ^ 64) (by positivity) (2 * E + 160) _ _ (1 / 2 ^ (2 * E + 319))
    ((add_le_add_left h0 _).trans hsum) (hu.trans (by norm_num))
  rw [mul_div_cancel₀ x (by positivity)] at this
  exact (le_add_of_nonneg_right (by positivity)).trans (this.trans (hu.trans (by norm_num)))

/-! ### The ends of the intervals -/

/-- The rational a magnitude code stands for. -/
def codeValue (c : Nat) : ℚ := units c * 2 ^ (-1074 : Int)

theorem codeValue_mono {a b : Nat} (h : a ≤ b) : codeValue a ≤ codeValue b :=
  mul_le_mul_of_nonneg_right (by exact_mod_cast units_strictMono.monotone h) (by positivity)

theorem le_of_codeValue_lt {a b : Nat} (h : codeValue a < codeValue b) : a ≤ b := by
  by_contra hc
  exact absurd (codeValue_mono (show b ≤ a by omega)) (not_le.2 h)

theorem codeValue_nonneg (c : Nat) : 0 ≤ codeValue c := by unfold codeValue; positivity

theorem valueOf_ofCode {s : Bool} {c : Nat} (h : c < infCode) :
    valueOf (F64.ofCode s c) = (if s then -1 else 1) * codeValue c := by
  unfold F64.ofCode; rw [dif_pos h, valueOf_fin]; rfl

theorem jam_error {n d : Nat} (hd : 0 < d) :
    |((jam (n / d) (n % d = 0) : Nat) : ℚ) - 2 * (n / d : ℚ)| ≤ 1 := by
  have h := Nat.div_add_mod n d
  have hr := Nat.mod_lt n hd
  have hd' : (0 : ℚ) < d := by exact_mod_cast hd
  have h' : (d : ℚ) * ((n / d : Nat) : ℚ) + ((n % d : Nat) : ℚ) = n := by exact_mod_cast h
  have hr' : ((n % d : Nat) : ℚ) + 1 ≤ d := by exact_mod_cast hr
  have hv : (n / d : ℚ) = ((n / d : Nat) : ℚ) + ((n % d : Nat) : ℚ) / d := by rw [← h']; field_simp
  have h1 : (0 : ℚ) ≤ ((n % d : Nat) : ℚ) / d := by positivity
  have h2 : ((n % d : Nat) : ℚ) / d ≤ 1 := by rw [div_le_one hd']; linarith
  rw [hv]
  unfold jam
  generalize n / d = Q at *
  by_cases h0 : n % d = 0
  · rw [if_pos (by simpa using h0), h0]; push_cast; simp
  · rw [if_neg (by simpa using h0)]; push_cast; rw [abs_le]; constructor <;> linarith

theorem jam_lt {n d A : Nat} (B : Nat) (hd : 0 < d) (hn : n < d * 2 ^ A) :
    jam (n * 2 ^ B / d) (n * 2 ^ B % d = 0) < 2 ^ (A + B + 2) := by
  have : n * 2 ^ B / d < 2 ^ (A + B) := by
    rw [Nat.div_lt_iff_lt_mul hd, pow_add]
    calc n * 2 ^ B < d * 2 ^ A * 2 ^ B := Nat.mul_lt_mul_of_pos_right hn (by positivity)
      _ = _ := by ring
  rw [pow_add 2 (A + B) 2]
  unfold jam
  generalize (2 : Nat) ^ (A + B) = T at *
  split <;> omega

theorem jam_scaled_error (n : Nat) {d : Nat} (B : Nat) (hd : 0 < d) :
    |((jam (n * 2 ^ B / d) (n * 2 ^ B % d = 0) : Nat) : ℚ) * 2 ^ (-((B : Int) + 1)) - n / d| ≤
      2 ^ (-((B : Int) + 1)) := by
  have hj := jam_error (n := n * 2 ^ B) hd
  generalize jam (n * 2 ^ B / d) (n * 2 ^ B % d = 0) = j at *
  have h1 : (2 : ℚ) * 2 ^ B * 2 ^ (-((B : Int) + 1)) = 1 := by
    rw [← zpow_natCast, ← zpow_one_add₀ (by norm_num), ← zpow_add₀ (by norm_num),
      show 1 + (B : Int) + -((B : Int) + 1) = 0 by ring, zpow_zero]
  have e1 : (j : ℚ) * 2 ^ (-((B : Int) + 1)) - n / d =
      ((j : ℚ) - 2 * (((n * 2 ^ B : Nat) : ℚ) / d)) * 2 ^ (-((B : Int) + 1)) := by
    push_cast
    linear_combination (n / d : ℚ) * h1
  rw [e1, abs_mul, abs_of_pos (show (0 : ℚ) < 2 ^ (-((B : Int) + 1)) by positivity)]
  exact mul_le_of_le_one_left (by positivity) hj

theorem two_zpow_le {a b : Int} (h : a ≤ b) : (2 : ℚ) ^ a ≤ 2 ^ b := zpow_le_zpow_right₀ (by norm_num) h

theorem ulp_le {m : Nat} (hm : m ≠ 0) (e : Int) :
    (2 : ℚ) ^ (ulpExponent m e - 1) ≤ m * 2 ^ e * 2 ^ (-53 : Int) + 2 ^ (-1075 : Int) := by
  have hl : (2 : ℚ) ^ (Nat.log2 m : Int) ≤ m := by
    rw [zpow_natCast]; exact_mod_cast Nat.log2_self_le hm
  have h1 : (0 : ℚ) ≤ m * 2 ^ e * 2 ^ (-53 : Int) := by positivity
  have h2 : (0 : ℚ) < 2 ^ (-1075 : Int) := by positivity
  rcases (show ulpExponent m e = -1074 ∨ ulpExponent m e = e + Nat.log2 m - 52 by unfold ulpExponent; omega) with h | h
  · rw [h]; norm_num only at *; linarith
  · rw [h, show e + (Nat.log2 m : Int) - 52 - 1 = (Nat.log2 m : Int) + e + (-53) by ring, zpow_add₀ (by norm_num),
      zpow_add₀ (by norm_num)]
    have := mul_le_mul_of_nonneg_right (mul_le_mul_of_nonneg_right hl (show (0 : ℚ) ≤ 2 ^ e by positivity))
      (show (0 : ℚ) ≤ 2 ^ (-53 : Int) by positivity)
    linarith

/-- `quotientCode` is a finite code whose value is near the quotient. -/
theorem quotientCode_error {n d : Nat} (hd : 0 < d) (hn : n < d * 2 ^ 200) :
    quotientCode n d < infCode ∧
    |codeValue (quotientCode n d) - n / d| ≤ n / d * 2 ^ (-53 : Int) + 2 ^ (-1074 : Int) := by
  have hlt := jam_lt (A := 200) 1200 hd hn
  have hJ := jam_scaled_error n 1200 hd
  unfold quotientCode
  generalize jam (n * 2 ^ 1200 / d) (n * 2 ^ 1200 % d = 0) = j at *
  rw [show (-(((1200 : Nat) : Int) + 1)) = -1201 by norm_num] at hJ
  have hv0 : (0 : ℚ) ≤ n / d := div_nonneg (Nat.cast_nonneg _) (Nat.cast_nonneg _)
  have p1 : (0 : ℚ) < 2 ^ (-1201 : Int) := by positivity
  have p2 : (2 : ℚ) ^ (-1201 : Int) ≤ 2 ^ (-1077 : Int) := two_zpow_le (by norm_num)
  have p3 : (2 : ℚ) ^ (-1075 : Int) = 4 * 2 ^ (-1077 : Int) := by
    rw [show (-1075 : Int) = 2 + -1077 by norm_num, zpow_add₀ (by norm_num)]; norm_num
  have p4 : (2 : ℚ) ^ (-1074 : Int) = 8 * 2 ^ (-1077 : Int) := by
    rw [show (-1074 : Int) = 3 + -1077 by norm_num, zpow_add₀ (by norm_num)]; norm_num
  have p6 : (2 : ℚ) ^ (-53 : Int) ≤ 1 := by norm_num
  have p7 : (0 : ℚ) < 2 ^ (-53 : Int) := by norm_num
  by_cases h0 : j = 0
  · subst h0
    refine ⟨show 0 < infCode by decide, ?_⟩
    have : codeValue (F64.code (roundExact false 0 (-1201))) = 0 := by
      show codeValue 0 = 0
      simp [codeValue, units]
    rw [this, zero_sub, abs_neg, abs_of_nonneg hv0]
    rw [Nat.cast_zero, zero_mul, zero_sub, abs_neg, abs_of_nonneg hv0] at hJ
    generalize (2 : ℚ) ^ (-1077 : Int) = A at *
    generalize (2 : ℚ) ^ (-1074 : Int) = C at *
    have : 0 ≤ (n / d : ℚ) * 2 ^ (-53 : Int) := mul_nonneg hv0 (by norm_num)
    linarith
  · obtain ⟨k, hk, -⟩ := roundExact_below (s := false) (a := 200 + 1200 + 2) (e := -1201) (k := 1001) hlt (by norm_num) (by norm_num) (by norm_num)
    rcases roundExact_value (s := false) (e := -1201) h0 with ⟨c, hc, -, hv⟩ | ⟨hc, -⟩
    · rw [hc]
      refine ⟨c.isLt, ?_⟩
      have hcv : codeValue c.val = valueOf (.fin false c) := by rw [valueOf_fin]; simp [codeValue]
      show |codeValue c.val - _| ≤ _
      rw [hcv, hv]
      have h1 := (rounded_error j (-1201)).1
      have h2 := ulp_le h0 (-1201)
      have h3 := abs_le.1 hJ
      have h4 := abs_le.1 (h1.trans h2)
      rw [p4]
      rw [p3] at h4
      generalize (2 : ℚ) ^ (-1201 : Int) = ε at *
      generalize (2 : ℚ) ^ (-1077 : Int) = A at *
      generalize (2 : ℚ) ^ (-53 : Int) = u at *
      generalize ((rounded j (-1201) : ℚ) * 2 ^ ulpExponent j (-1201)) = R at *
      generalize (n / d : ℚ) = v at *
      generalize (j : ℚ) * ε = J at *
      have h5 : J * u ≤ (v + ε) * u := mul_le_mul_of_nonneg_right (by linarith) p7.le
      have h6 : ε * u ≤ ε := mul_le_of_le_one_right p1.le p6
      have h7 : 0 ≤ v * u := mul_nonneg hv0 p7.le
      rw [abs_le]
      constructor <;> nlinarith
    · rw [hk] at hc; exact absurd hc (by simp)

/-- A quotient of at most 1 has at most the code of 1.0. -/
theorem quotientCode_le_one {n d : Nat} (hd : 0 < d) (h : n ≤ d) : quotientCode n d ≤ 0x3FF0000000000000 := by
  have hn : n < d * 2 ^ 200 := lt_of_le_of_lt h (lt_mul_of_one_lt_right hd (Nat.one_lt_two_pow (by decide)))
  have h1 := abs_le.1 (quotientCode_error hd hn).2
  have hd' : (0 : ℚ) < d := by exact_mod_cast hd
  have h2 : (n / d : ℚ) ≤ 1 := by rw [div_le_one hd']; exact_mod_cast h
  have h3 : codeValue (0x3FF0000000000000 + 1) = 1 + 2 ^ (-52 : Int) := by
    have : units (0x3FF0000000000000 + 1) = (1 + 4503599627370496) * 2 ^ 1022 := by
      unfold units
      rw [if_neg (by norm_num), show (0x3FF0000000000000 + 1) % 4503599627370496 = 1 by norm_num,
        show (0x3FF0000000000000 + 1) / 4503599627370496 - 1 = 1022 by norm_num]
    unfold codeValue
    rw [this]
    push_cast
    rw [← zpow_natCast (2 : ℚ) 1022, mul_assoc, ← zpow_add₀ (by norm_num)]
    norm_num
  have h4 : (2 : ℚ) ^ (-1074 : Int) < 2 ^ (-53 : Int) := zpow_lt_zpow_right₀ (by norm_num) (by norm_num)
  by_contra hc
  have h5 := codeValue_mono (show 0x3FF0000000000000 + 1 ≤ quotientCode n d by omega)
  rw [h3] at h5
  have h6 : (n / d : ℚ) * 2 ^ (-53 : Int) ≤ 2 ^ (-53 : Int) := mul_le_of_le_one_left (by norm_num) h2
  have h7 : (2 : ℚ) ^ (-52 : Int) = 2 * 2 ^ (-53 : Int) := by norm_num
  rw [h7] at h5
  generalize (2 : ℚ) ^ (-1074 : Int) = A at *
  generalize (2 : ℚ) ^ (-53 : Int) = u at *
  generalize (n / d : ℚ) = v at *
  linarith [h1.2]

/-- The rational a place on the number line stands for. -/
def keyValue (k : Int) : ℚ := (if k < 0 then -1 else 1) * codeValue k.natAbs

theorem keyValue_mono {a b : Int} (h : a ≤ b) : keyValue a ≤ keyValue b := by
  unfold keyValue
  have h1 := codeValue_nonneg a.natAbs
  have h2 := codeValue_nonneg b.natAbs
  by_cases ha : a < 0 <;> by_cases hb : b < 0 <;> simp only [ha, hb, if_true, if_false]
  · have := codeValue_mono (show b.natAbs ≤ a.natAbs by omega); linarith
  · linarith
  · omega
  · have := codeValue_mono (show a.natAbs ≤ b.natAbs by omega); linarith

theorem le_of_keyValue_lt {a b : Int} (h : keyValue a < keyValue b) : a ≤ b := by
  by_contra hc
  exact absurd (keyValue_mono (show b ≤ a by omega)) (not_le.2 h)

theorem quotientKey_error {n : Int} {d : Nat} (hd : 0 < d) (hn : n.natAbs < d * 2 ^ 200) :
    (quotientKey n d).natAbs < infCode ∧
    |keyValue (quotientKey n d) - n / d| ≤ |(n / d : ℚ)| * 2 ^ (-53 : Int) + 2 ^ (-1074 : Int) := by
  obtain ⟨h1, h2⟩ := quotientCode_error hd hn
  have habs : ((n.natAbs : Nat) : ℚ) / d = |(n / d : ℚ)| := by
    rw [abs_div, Nat.abs_cast, Nat.cast_natAbs, Int.cast_abs]
  have hk : (quotientKey n d).natAbs = quotientCode n.natAbs d := by
    unfold quotientKey; split <;> omega
  refine ⟨by rw [hk]; exact h1, ?_⟩
  rw [habs] at h2
  refine le_trans (le_of_eq ?_) h2
  unfold keyValue
  rw [hk]
  have hd' : (0 : ℚ) < d := by exact_mod_cast hd
  by_cases hneg : n < 0
  · have hn' : (n / d : ℚ) < 0 := div_neg_of_neg_of_pos (by exact_mod_cast hneg) hd'
    have hkey : quotientKey n d = -(quotientCode n.natAbs d : Int) := by unfold quotientKey; rw [if_pos hneg]
    rw [abs_of_neg hn', hkey]
    by_cases h0 : quotientCode n.natAbs d = 0
    · rw [h0]; norm_num [codeValue, units]
    · rw [if_pos (by omega), ← abs_neg]; congr 1; ring
  · have hn' : 0 ≤ (n / d : ℚ) := div_nonneg (by exact_mod_cast not_lt.1 hneg) hd'.le
    have hkey : quotientKey n d = (quotientCode n.natAbs d : Int) := by unfold quotientKey; rw [if_neg hneg]
    rw [abs_of_nonneg hn', hkey, if_neg (by omega), one_mul]

theorem freeBetween_spec {lo hi : Int} (w : Word) (h : lo ≤ hi) :
    ∃ k, lo ≤ k ∧ k ≤ hi ∧ freeBetween lo hi w = F64.ofCode (decide (k < 0) || decide (k = 0) && w.msb) k.natAbs := by
  have h1 := Int.emod_nonneg (w.toNat : Int) (show hi - lo + 1 ≠ 0 by omega)
  have h2 := Int.emod_lt_of_pos (w.toNat : Int) (show 0 < hi - lo + 1 by omega)
  exact ⟨_, by omega, by omega, rfl⟩

theorem valueOf_key {k : Int} (b : Bool) (h : k.natAbs < infCode) :
    valueOf (F64.ofCode (decide (k < 0) || decide (k = 0) && b) k.natAbs) = keyValue k := by
  rw [valueOf_ofCode h]
  unfold keyValue
  by_cases h0 : k = 0
  · subst h0; simp [codeValue, units]
  · by_cases h1 : k < 0 <;> simp [h0, h1]

/-! ### The cosine -/

theorem cosRatio_near {m : Fin infCode} (h : smallAngle ≤ m.val) :
    |(((cosRatio m).1 : ℝ) / (cosRatio m).2) - Real.cos ((valueOf (.fin false m) : ℚ) : ℝ)| ≤ 1 / 2 ^ 150 := by
  have h1 := (Complex.abs_re_le_norm _).trans (cosSin_error h)
  rw [Complex.sub_re, Complex.exp_ofReal_mul_I_re] at h1
  unfold cosRatio
  rw [if_neg (by omega)]
  show |((cosSin m).1 : ℝ) / ((2 ^ anglePrecision m : Nat) : ℝ) - _| ≤ _
  rw [Nat.cast_pow]
  exact h1

theorem cosRatio_spec {m : Fin infCode} :
    ∃ D : Nat, 0 < D ∧ (cosRatio m).2 = D * 2 ^ 46 ∧
      |(((cosRatio m).1 : ℝ) / (cosRatio m).2) - Real.cos ((valueOf (.fin false m) : ℚ) : ℝ)| ≤ 1 / 2 ^ 50 := by
  unfold cosRatio
  by_cases h : m.val < smallAngle
  · rw [if_pos h]
    refine ⟨1, by decide, by norm_num, ?_⟩
    have hx : ((valueOf (.fin false m) : ℚ) : ℝ) ≤ 1 / 2 ^ 25 ∧ 0 ≤ ((valueOf (.fin false m) : ℚ) : ℝ) := by
      rw [valueOf_real]
      refine ⟨?_, by positivity⟩
      have he : exponent m ≤ -78 := by unfold smallAngle at h; unfold exponent; split <;> omega
      have hs : (significand m : ℝ) ≤ 2 ^ 53 := by exact_mod_cast (significand_lt m).le
      calc (significand m : ℝ) * 2 ^ exponent m ≤ 2 ^ 53 * 2 ^ (-78 : Int) :=
            mul_le_mul hs (zpow_le_zpow_right₀ (by norm_num) he) (by positivity) (by positivity)
        _ = _ := by norm_num
    generalize ((valueOf (.fin false m) : ℚ) : ℝ) = x at *
    have h1 := Real.one_sub_sq_div_two_le_cos (x := x)
    have h2 := Real.cos_le_one x
    have h3 : x ^ 2 ≤ (1 / 2 ^ 25) ^ 2 := pow_le_pow_left₀ hx.2 hx.1 2
    norm_num at *
    rw [abs_le]; constructor <;> linarith
  · have h1 := cosRatio_near (m := m) (by omega)
    unfold cosRatio at h1
    rw [if_neg h] at h1 ⊢
    have hP : anglePrecision m = (anglePrecision m - 46) + 46 := by unfold anglePrecision halvings; omega
    refine ⟨2 ^ (anglePrecision m - 46), Nat.two_pow_pos _, ?_, h1.trans (by norm_num)⟩
    show 2 ^ anglePrecision m = 2 ^ (anglePrecision m - 46) * 2 ^ 46
    rw [← pow_add, ← hP]

/-- The ends of the interval of `cosF`, and the value in it. -/
theorem cosF_eq (s : Bool) {m : Fin infCode} (h0 : m.val ≠ 0) :
    ∃ (k : Int) (b : Bool), cosF (.fin s m) = F64.ofCode (decide (k < 0) || decide (k = 0) && b) k.natAbs ∧
      k.natAbs ≤ 0x3FF0000000000000 ∧
      |((keyValue k : ℚ) : ℝ) - Real.cos ((valueOf (.fin false m) : ℚ) : ℝ)| ≤ 1 / 2 ^ 45 ∧
      ∀ r : ℚ, |Real.cos ((valueOf (.fin false m) : ℚ) : ℝ)| ≤ r →
        |(((cosRatio m).1 : ℝ) / (cosRatio m).2) - Real.cos ((valueOf (.fin false m) : ℚ) : ℝ)| ≤ 1 / 2 ^ 150 →
        |keyValue k| ≤ (1 + r) / 2 + 1 / 2 ^ 53 + 1 / 2 ^ 140 := by
  obtain ⟨D, hD, hd, herr⟩ := cosRatio_spec (m := m)
  have hcos := abs_le.1 (Real.abs_cos_le_one ((valueOf (.fin false m) : ℚ) : ℝ))
  generalize Real.cos ((valueOf (.fin false m) : ℚ) : ℝ) = c at *
  simp only [cosF]
  rw [if_neg h0]
  generalize Config.cosBits (F64.toBits (.fin s m)) = w
  generalize (cosRatio m).1 = n₀ at *
  generalize (cosRatio m).2 = d at *
  have hd0 : 0 < d := by rw [hd]; positivity
  have hdq : (0 : ℚ) < d := by exact_mod_cast hd0
  have hdr : (0 : ℝ) < d := by exact_mod_cast hd0
  have hdiv : ((d : Int) / 2 ^ 46) = D := by rw [hd]; push_cast; exact Int.mul_ediv_cancel _ (by norm_num)
  rw [hdiv]
  have hDq : (D : ℚ) / d = 1 / 2 ^ 46 := by
    have : (D : ℚ) ≠ 0 := by exact_mod_cast hD.ne'
    rw [hd]; push_cast; rw [div_mul_eq_div_div, div_self this]; norm_num
  have hDd : D ≤ d := by rw [hd]; exact Nat.le_mul_of_pos_right _ (by norm_num)
  -- cutting the quotient to [-1, 1] brings it nearer
  obtain ⟨n, hn⟩ : ∃ n, n = max (-(d : Int)) (min d n₀) := ⟨_, rfl⟩
  rw [← hn]
  have hcut : |((n : ℝ) / d) - c| ≤ |((n₀ : ℝ) / d) - c| := by
    by_cases h1 : (d : Int) < n₀
    · have e : n = d := by omega
      have h2 : (1 : ℝ) < n₀ / d := by rw [lt_div_iff₀ hdr, one_mul]; exact_mod_cast h1
      rw [e, Int.cast_natCast, div_self hdr.ne', abs_of_nonneg (by linarith), abs_of_nonneg (by linarith)]
      linarith
    · by_cases h2 : n₀ < -(d : Int)
      · have e : n = -d := by omega
        have h3 : (n₀ : ℝ) / d < -1 := by rw [div_lt_iff₀ hdr, neg_one_mul]; exact_mod_cast h2
        rw [e, Int.cast_neg, Int.cast_natCast, neg_div, div_self hdr.ne', abs_of_nonpos (by linarith),
          abs_of_nonpos (by linarith)]
        linarith
      · rw [show n = n₀ by omega]
  obtain ⟨a, ha⟩ : ∃ a, a = max (n - D) (-((d - n) / 2)) := ⟨_, rfl⟩
  obtain ⟨b, hb⟩ : ∃ b, b = min (n + D) ((d + n) / 2) := ⟨_, rfl⟩
  rw [← ha, ← hb]
  have had : a.natAbs ≤ d := by omega
  have hbd : b.natAbs ≤ d := by omega
  have hgap : a + D ≤ b := by omega
  have hlt : d < d * 2 ^ 200 := lt_mul_of_one_lt_right hd0 (by norm_num)
  obtain ⟨hac, hae⟩ := quotientKey_error (n := a) hd0 (had.trans_lt hlt)
  obtain ⟨hbc, hbe⟩ := quotientKey_error (n := b) hd0 (hbd.trans_lt hlt)
  have hround : ∀ z : Int, z.natAbs ≤ d → |keyValue (quotientKey z d) - z / d| ≤
      |(z / d : ℚ)| * 2 ^ (-53 : Int) + 2 ^ (-1074 : Int) →
      |keyValue (quotientKey z d) - z / d| ≤ 1 / 2 ^ 53 + 1 / 2 ^ 150 := by
    intro z hz h
    have h1 : |(z / d : ℚ)| ≤ 1 := by
      rw [abs_div, Nat.abs_cast, div_le_one hdq, ← Int.cast_abs, Int.abs_eq_natAbs]
      exact_mod_cast hz
    refine h.trans (add_le_add ?_ (by rw [one_div, ← zpow_natCast, ← zpow_neg]; exact two_zpow_le (by norm_num)))
    rw [show (2 : ℚ) ^ (-53 : Int) = 1 / 2 ^ 53 by norm_num]
    exact mul_le_of_le_one_left (by norm_num) h1
  have hae' := abs_le.1 (hround a had hae)
  have hbe' := abs_le.1 (hround b hbd hbe)
  have hA' : n / d - 1 / 2 ^ 46 ≤ (a / d : ℚ) := by
    rw [← hDq, ← sub_div, div_le_div_iff_of_pos_right hdq]; exact_mod_cast (by omega : n - D ≤ a)
  have hB' : (b / d : ℚ) ≤ n / d + 1 / 2 ^ 46 := by
    rw [← hDq, ← add_div, div_le_div_iff_of_pos_right hdq]; exact_mod_cast (by omega : b ≤ n + D)
  have hG : (a / d : ℚ) + 1 / 2 ^ 46 ≤ b / d := by
    rw [← hDq, ← add_div, div_le_div_iff_of_pos_right hdq]; exact_mod_cast hgap
  have hB2 : (b / d : ℚ) ≤ (n / d + 1) / 2 := by
    have : ((2 * b : Int) : ℚ) ≤ ((n + d : Int) : ℚ) := by exact_mod_cast (by omega : 2 * b ≤ n + d)
    push_cast at this
    rw [div_le_iff₀ hdq]
    have e : (n / d + 1) / 2 * (d : ℚ) = (n + d) / 2 := by field_simp
    rw [e]; linarith
  have hA2 : (n / d - 1) / 2 ≤ (a / d : ℚ) := by
    have : ((n - d : Int) : ℚ) ≤ ((2 * a : Int) : ℚ) := by exact_mod_cast (by omega : n - d ≤ 2 * a)
    push_cast at this
    rw [le_div_iff₀ hdq]
    have e : (n / d - 1) / 2 * (d : ℚ) = (n - d) / 2 := by field_simp
    rw [e]; linarith
  have hle : quotientKey a d ≤ quotientKey b d := by
    apply le_of_keyValue_lt
    norm_num at hae' hbe' hG
    linarith
  obtain ⟨k, hk1, hk2, hk⟩ := freeBetween_spec w hle
  have hcode : ∀ z : Int, z.natAbs ≤ d → (quotientKey z d).natAbs ≤ 0x3FF0000000000000 := by
    intro z hz
    have := quotientCode_le_one hd0 hz
    unfold quotientKey
    generalize quotientCode z.natAbs d = q at *
    split <;> omega
  have hk3 := hcode a had
  have hk4 := hcode b hbd
  have hv1 := keyValue_mono hk1
  have hv2 := keyValue_mono hk2
  refine ⟨k, w.msb, hk, by omega, ?_, ?_⟩
  · have hkr : |keyValue k - n / d| ≤ 1 / 2 ^ 46 + 2 / 2 ^ 53 := by
      rw [abs_le]
      norm_num at hae' hbe' hA' hB' ⊢
      constructor <;> linarith
    have hkr' : |((keyValue k : ℚ) : ℝ) - n / d| ≤ 1 / 2 ^ 46 + 2 / 2 ^ 53 := by
      have : ((|keyValue k - n / d| : ℚ) : ℝ) ≤ ((1 / 2 ^ 46 + 2 / 2 ^ 53 : ℚ) : ℝ) := Rat.cast_le.2 hkr
      push_cast at this; exact this
    have h1 := abs_le.1 hkr'
    have h2 := abs_le.1 (hcut.trans herr)
    rw [abs_le]
    norm_num at h1 h2 ⊢
    constructor <;> linarith
  · intro r hr hn0
    have h1 := abs_le.1 (hcut.trans hn0)
    have h2 := abs_le.1 hr
    have h3 : |(n / d : ℚ)| ≤ r + 1 / 2 ^ 150 := by
      have : |((n : ℝ) / d)| ≤ r + 1 / 2 ^ 150 := by rw [abs_le]; constructor <;> linarith
      refine (Rat.cast_le (K := ℝ)).1 ?_
      push_cast; exact this
    have h4 := abs_le.1 h3
    rw [abs_le]
    norm_num at hae' hbe' hA2 hB2 h4 ⊢
    constructor <;> linarith

theorem ofCode_lt {s : Bool} {c : Nat} (h : c < infCode) : F64.ofCode s c = .fin s ⟨c, h⟩ := by
  unfold F64.ofCode; rw [dif_pos h]

theorem valueOf_sign (s : Bool) (m : Fin infCode) :
    valueOf (.fin s m) = (if s then -1 else 1) * valueOf (.fin false m) := by
  rw [valueOf_fin, valueOf_fin]; simp

theorem valueOf_one : valueOf (.fin false ⟨0x3FF0000000000000, by decide⟩) = 1 := by
  unfold valueOf significand exponent; norm_num

theorem codeValue_one : codeValue 0x3FF0000000000000 = 1 := by
  rw [← valueOf_one, valueOf_fin]; simp only [Bool.false_eq_true, if_false, one_mul]; rfl

/-- `cosF` of a finite value: in [-1, 1], and within `2^-45` of the cosine. -/
theorem cosF_near (s : Bool) (m : Fin infCode) :
    (∃ (s' : Bool) (m' : Fin infCode), cosF (.fin s m) = .fin s' m' ∧ m'.val ≤ 0x3FF0000000000000) ∧
    |((valueOf (cosF (.fin s m)) : ℚ) : ℝ) - Real.cos ((valueOf (.fin s m) : ℚ) : ℝ)| ≤ 1 / 2 ^ 45 := by
  have hcos : Real.cos ((valueOf (.fin s m) : ℚ) : ℝ) = Real.cos ((valueOf (.fin false m) : ℚ) : ℝ) := by
    rw [valueOf_sign]; cases s <;> simp
  rw [hcos]
  by_cases h0 : m.val = 0
  · have h1 : cosF (.fin s m) = .fin false ⟨0x3FF0000000000000, by decide⟩ := by
      simp only [cosF]; rw [if_pos h0]; decide
    have h2 : ((valueOf (.fin false m) : ℚ) : ℝ) = 0 := by
      rw [valueOf_real]; unfold significand; simp [h0]
    rw [h1, h2, valueOf_one]
    exact ⟨⟨_, _, rfl, le_refl _⟩, by norm_num⟩
  · obtain ⟨k, b, hk, hk1, hk2, -⟩ := cosF_eq s h0
    have hlt : k.natAbs < infCode := lt_of_le_of_lt hk1 (by decide)
    rw [hk, valueOf_key b hlt]
    exact ⟨⟨_, ⟨k.natAbs, hlt⟩, ofCode_lt hlt, hk1⟩, hk2⟩

/-- `cosF` is strictly inside [-1, 1] where the cosine is, by `2^-51` or more, at an angle of `2^-25` or more (R190). -/
theorem cosF_inside (s : Bool) {m : Fin infCode} (h : smallAngle ≤ m.val)
    (hc : |Real.cos ((valueOf (.fin false m) : ℚ) : ℝ)| ≤ 1 - 1 / 2 ^ 51) :
    ∃ (s' : Bool) (m' : Fin infCode), cosF (.fin s m) = .fin s' m' ∧ m'.val < 0x3FF0000000000000 := by
  obtain ⟨k, b, hk, hk1, -, hk2⟩ := cosF_eq s (m := m) (by unfold smallAngle at h; omega)
  have hk3 := hk2 (1 - 1 / 2 ^ 51) (by push_cast; exact hc) (cosRatio_near h)
  have hlt : k.natAbs < infCode := by unfold infCode; omega
  refine ⟨_, ⟨k.natAbs, hlt⟩, by rw [hk, ofCode_lt hlt], lt_of_le_of_ne hk1 ?_⟩
  intro he
  have h1 : |keyValue k| = 1 := by
    have : |keyValue k| = codeValue k.natAbs := by
      unfold keyValue; split <;> simp [abs_of_nonneg (codeValue_nonneg k.natAbs)]
    rw [this, show k.natAbs = 0x3FF0000000000000 from he]
    exact codeValue_one
  rw [h1] at hk3
  norm_num at hk3

/-! ### The tangent -/

theorem tanRatio_spec {m : Fin infCode} (hc : 1 / 2 ^ 70 ≤ |Real.cos ((valueOf (.fin false m) : ℚ) : ℝ)|) :
    (tanRatio m).2 ≠ 0 ∧
    |((tanRatio m).1 : ℝ) / (tanRatio m).2 - Real.tan ((valueOf (.fin false m) : ℚ) : ℝ)| ≤
      1 / 2 ^ 70 * max 1 |Real.tan ((valueOf (.fin false m) : ℚ) : ℝ)| := by
  unfold tanRatio
  by_cases h : m.val < smallAngle
  · rw [if_pos h]
    have he : exponent m ≤ -78 := by unfold smallAngle at h; unfold exponent; split <;> omega
    have hx : ((valueOf (.fin false m) : ℚ) : ℝ) ≤ 1 / 2 ^ 25 ∧ 0 ≤ ((valueOf (.fin false m) : ℚ) : ℝ) := by
      rw [valueOf_real]
      refine ⟨?_, by positivity⟩
      have hs : (significand m : ℝ) ≤ 2 ^ 53 := by exact_mod_cast (significand_lt m).le
      calc (significand m : ℝ) * 2 ^ exponent m ≤ 2 ^ 53 * 2 ^ (-78 : Int) :=
            mul_le_mul hs (zpow_le_zpow_right₀ (by norm_num) he) (by positivity) (by positivity)
        _ = _ := by norm_num
    have hratio : (((significand m * 2 ^ 40 : Nat) : Int) : ℝ) / ((2 ^ (40 - exponent m).toNat : Int) : ℝ) =
        ((valueOf (.fin false m) : ℚ) : ℝ) := by
      rw [valueOf_real]
      push_cast
      rw [← zpow_natCast (2 : ℝ) (40 - exponent m).toNat, show (((40 - exponent m).toNat : Nat) : Int) = 40 - exponent m by omega,
        zpow_sub₀ (by norm_num)]
      have : (2 : ℝ) ^ exponent m ≠ 0 := by positivity
      field_simp
      norm_num
    refine ⟨by positivity, ?_⟩
    dsimp only
    rw [hratio]
    clear hc
    generalize ((valueOf (.fin false m) : ℚ) : ℝ) = x at *
    refine le_trans ?_ (le_mul_of_one_le_right (by positivity) (le_max_left _ _))
    have h1 := Real.one_sub_sq_div_two_le_cos (x := x)
    have h3 : x ^ 2 ≤ (1 / 2 ^ 25) ^ 2 := pow_le_pow_left₀ hx.2 hx.1 2
    have hcp : 0 < Real.cos x := by norm_num at h3; linarith
    have h4 := Real.sin_le hx.2
    have h5 : x - x ^ 3 / 4 ≤ Real.sin x := by
      rcases eq_or_lt_of_le hx.2 with h | h
      · rw [← h]; simp
      · have := Real.sin_gt_sub_cube h
        have : 0 ≤ x ^ 3 := pow_nonneg hx.2 3
        linarith
    have h6 : x ^ 3 ≤ (1 / 2 ^ 25) ^ 3 := pow_le_pow_left₀ hx.2 hx.1 3
    have h7 : 0 ≤ x ^ 3 := pow_nonneg hx.2 3
    have h8 := Real.cos_le_one x
    have hlo : x - x ^ 3 / 4 ≤ Real.tan x := by
      rw [Real.tan_eq_sin_div_cos, le_div_iff₀ hcp]
      have : 0 ≤ x - x ^ 3 / 4 := by nlinarith [hx.1, hx.2, h3]
      nlinarith
    have hhi : Real.tan x ≤ x + x ^ 3 := by
      rw [Real.tan_eq_sin_div_cos, div_le_iff₀ hcp]
      have : (x + x ^ 3) * (1 - x ^ 2 / 2) ≤ (x + x ^ 3) * Real.cos x :=
        mul_le_mul_of_nonneg_left h1 (by linarith [hx.2])
      have h9 : x ^ 5 ≤ x ^ 3 := pow_le_pow_of_le_one hx.2 (hx.1.trans (by norm_num)) (by norm_num)
      nlinarith
    norm_num at h6
    rw [abs_le]
    norm_num
    constructor <;> linarith
  · rw [if_neg h]
    dsimp only
    have hd := cosSin_error (m := m) (by omega)
    have h1 := (Complex.abs_re_le_norm _).trans hd
    have h2 := (Complex.abs_im_le_norm _).trans hd
    rw [Complex.sub_re, Complex.exp_ofReal_mul_I_re] at h1
    rw [Complex.sub_im, Complex.exp_ofReal_mul_I_im] at h2
    generalize ((valueOf (.fin false m) : ℚ) : ℝ) = x at *
    generalize anglePrecision m = p at *
    have hp : (0 : ℝ) < 2 ^ p := by positivity
    have h1' : |((cosSin m).1 : ℝ) / 2 ^ p - Real.cos x| ≤ 1 / 2 ^ 150 := h1
    have h2' : |((cosSin m).2 : ℝ) / 2 ^ p - Real.sin x| ≤ 1 / 2 ^ 150 := h2
    have hq : ((cosSin m).2 : ℝ) / ((cosSin m).1 : ℝ) = (((cosSin m).2 : ℝ) / 2 ^ p) / (((cosSin m).1 : ℝ) / 2 ^ p) := by
      rw [div_div_div_cancel_right₀ hp.ne']
    rw [hq]
    have hne : ((cosSin m).1 : ℝ) / 2 ^ p ≠ 0 → (cosSin m).1 ≠ 0 := by
      intro h h0; exact h (by rw [h0]; simp)
    clear h1 h2 hd
    generalize ((cosSin m).1 : ℝ) / 2 ^ p = C at *
    generalize ((cosSin m).2 : ℝ) / 2 ^ p = S at *
    rw [Real.tan_eq_sin_div_cos]
    generalize Real.cos x = c at *
    generalize Real.sin x = t at *
    have hC : 1 / 2 ^ 71 ≤ |C| := by
      have := abs_sub_abs_le_abs_sub c C
      rw [abs_sub_comm] at this
      norm_num at *
      linarith
    have hc0 : 0 < |c| := lt_of_lt_of_le (by norm_num) hc
    have hC0 : 0 < |C| := lt_of_lt_of_le (by norm_num) hC
    have hc' : c ≠ 0 := abs_pos.1 hc0
    have hC' : C ≠ 0 := abs_pos.1 hC0
    refine ⟨hne hC', ?_⟩
    have e1 : S / C - t / c = ((S - t) - t / c * (C - c)) / C := by field_simp; ring
    rw [e1, abs_div, div_le_iff₀ hC0]
    have h3 : |(S - t) - t / c * (C - c)| ≤ 1 / 2 ^ 150 + |t / c| * (1 / 2 ^ 150) := by
      refine (abs_sub _ _).trans (add_le_add h2' ?_)
      rw [abs_mul]
      exact mul_le_mul_of_nonneg_left h1' (abs_nonneg _)
    have h4 : (1 : ℝ) ≤ max 1 |t / c| := le_max_left _ _
    have h5 : |t / c| ≤ max 1 |t / c| := le_max_right _ _
    generalize max 1 |t / c| = M at *
    have h6 : 1 / 2 ^ 70 * M * (1 / 2 ^ 71) ≤ 1 / 2 ^ 70 * M * |C| := mul_le_mul_of_nonneg_left hC (by positivity)
    refine h3.trans (le_trans ?_ h6)
    norm_num
    linarith

/-- `freeCode` answers a code between the two, whichever is the larger. -/
theorem freeCode_spec (s : Bool) (lo hi : Nat) (w : Word) :
    ∃ c, lo ≤ c ∧ (c ≤ lo ∨ c ≤ hi) ∧ freeCode s lo hi w = F64.ofCode s c := by
  have := Nat.mod_lt w.toNat (show 0 < hi - lo + 1 by omega)
  exact ⟨_, by omega, by omega, rfl⟩

/-- A free code between two quotients is near every value near both. -/
theorem freeCode_near {s : Bool} {n1 n2 d : Nat} (w : Word) {v e : ℚ} (hd : 0 < d) (h1 : n1 < d * 2 ^ 200)
    (h2 : n2 < d * 2 ^ 200) (hv1 : v - e ≤ n1 / d) (hv1' : (n1 / d : ℚ) ≤ v)
    (hv2' : (n2 / d : ℚ) ≤ v + e) :
    ∃ c : Fin infCode, freeCode s (quotientCode n1 d) (quotientCode n2 d) w = .fin s c ∧
      |codeValue c.val - v| ≤ e + (v + e) * 2 ^ (-53 : Int) + 2 ^ (-1074 : Int) := by
  obtain ⟨c1, e1⟩ := quotientCode_error hd h1
  obtain ⟨c2, e2⟩ := quotientCode_error hd h2
  obtain ⟨c, hc1, hc2, hc⟩ := freeCode_spec s (quotientCode n1 d) (quotientCode n2 d) w
  have hlt : c < infCode := by omega
  refine ⟨⟨c, hlt⟩, by rw [hc, ofCode_lt hlt], ?_⟩
  have hlo := codeValue_mono hc1
  have hhi := hc2.imp codeValue_mono codeValue_mono
  show |codeValue c - v| ≤ _
  have hp : (0 : ℚ) < 2 ^ (-53 : Int) := by norm_num
  have m1 : (n1 / d : ℚ) * 2 ^ (-53 : Int) ≤ (v + e) * 2 ^ (-53 : Int) :=
    mul_le_mul_of_nonneg_right (by linarith) hp.le
  have m2 : (n2 / d : ℚ) * 2 ^ (-53 : Int) ≤ (v + e) * 2 ^ (-53 : Int) :=
    mul_le_mul_of_nonneg_right hv2' hp.le
  have a1 := abs_le.1 e1
  have a2 := abs_le.1 e2
  generalize (2 : ℚ) ^ (-1074 : Int) = A at *
  generalize (n1 / d : ℚ) * 2 ^ (-53 : Int) = B1 at *
  generalize (n2 / d : ℚ) * 2 ^ (-53 : Int) = B2 at *
  generalize (v + e) * 2 ^ (-53 : Int) = B at *
  rw [abs_le]
  constructor
  · linarith
  · rcases hhi with h | h <;> linarith

/-- What `tanTolerance` is over `b`, `r` being the tangent's magnitude. -/
theorem tanTolerance_le (neg : Bool) (a : Nat) {b : Nat} (hb : 0 < b) :
    tanTolerance neg a b ≤ a ∧
    (tanTolerance neg a b : ℝ) / b ≤
      max (1 / 2 ^ 36 * min (max 1 (a / b : ℝ)) ((1 + (if neg then -1 else 1) * (a / b : ℝ)) ^ 2)) (1 / 2 ^ 53) := by
  have hB : (0 : ℝ) < b := by exact_mod_cast hb
  unfold tanTolerance
  dsimp only
  obtain ⟨e, he⟩ : ∃ e, e = if neg then (a - b) + (b - a) else a + b := ⟨_, rfl⟩
  have hsq : ((e : ℝ) / b) ^ 2 = (1 + (if neg then -1 else 1) * (a / b : ℝ)) ^ 2 := by
    have h1 : (1 + (if neg then -1 else 1) * (a / b : ℝ) : ℝ) = (b + (if neg then -1 else 1) * (a : ℝ)) / b := by
      field_simp
    rw [h1, div_pow, div_pow]
    congr 1
    rw [he]
    cases neg
    · simp only [Bool.false_eq_true, if_false, one_mul]; push_cast; ring
    · simp only [if_true]
      rcases Nat.le_total a b with h | h
      · rw [Nat.sub_eq_zero_of_le h, zero_add, Nat.cast_sub h]; ring
      · rw [Nat.sub_eq_zero_of_le h, add_zero, Nat.cast_sub h]; ring
  rw [← hsq, ← he]
  refine ⟨by omega, ?_⟩
  have h1 : ((min (a / 2) (max (min (max a b) (e * e / b) / 2 ^ 36) (b / 2 ^ 53)) : Nat) : ℝ) ≤
      max ((min (max a b) (e * e / b) / 2 ^ 36 : Nat) : ℝ) ((b / 2 ^ 53 : Nat) : ℝ) := by
    rw [← Nat.cast_max]; exact_mod_cast min_le_right _ _
  rw [div_le_iff₀ hB]
  refine h1.trans (max_le ?_ ?_)
  · refine le_trans ?_ (mul_le_mul_of_nonneg_right (le_max_left _ _) hB.le)
    refine (Nat.cast_div_le (α := ℝ)).trans ?_
    rw [mul_assoc, div_eq_inv_mul, Nat.cast_pow, Nat.cast_ofNat, one_div]
    refine mul_le_mul_of_nonneg_left ?_ (by positivity)
    rw [min_mul_of_nonneg _ _ hB.le, Nat.cast_min, Nat.cast_max]
    refine min_le_min ?_ ?_
    · rw [max_mul_of_nonneg _ _ hB.le, one_mul, div_mul_cancel₀ _ hB.ne', max_comm]
    · refine (Nat.cast_div_le (α := ℝ)).trans (le_of_eq ?_)
      push_cast; field_simp
  · refine le_trans ?_ (mul_le_mul_of_nonneg_right (le_max_right _ _) hB.le)
    refine (Nat.cast_div_le (α := ℝ)).trans (le_of_eq ?_)
    push_cast; ring

/-- How near `v` is to the tangent `u`. -/
def TanNear (u v : ℝ) : Prop :=
  |v - u| ≤ max (1 / 2 ^ 36 * min (max 1 |u|) ((1 + u) ^ 2)) (1 / 2 ^ 53) + 1 / 2 ^ 52 * max 1 |u|

/-- The tolerance around a quotient is that around the tangent, but for the distance of the two. -/
theorem tolerance_mono {u q : ℝ} (h : |q - u| ≤ 1 / 2 ^ 70 * max 1 |u|) :
    min (max 1 |q|) ((1 + q) ^ 2) ≤ min (max 1 |u|) ((1 + u) ^ 2) + 1 / 2 ^ 60 * max 1 |u| := by
  have hM1 : 1 ≤ max 1 |u| := le_max_left _ _
  have hu : |u| ≤ max 1 |u| := le_max_right _ _
  have hq : max 1 |q| ≤ max 1 |u| + 1 / 2 ^ 60 * max 1 |u| := by
    have := abs_sub_abs_le_abs_sub q u
    refine max_le ?_ ?_ <;> norm_num at h ⊢ <;> linarith
  by_cases hM : max 1 |u| ≤ 4
  · rw [← min_add_add_right]
    refine min_le_min hq ?_
    have h1 := abs_le.1 h
    have h2 := abs_le.1 hu
    generalize max 1 |u| = M at *
    obtain ⟨d, rfl⟩ : ∃ d, q = u + d := ⟨q - u, by ring⟩
    rw [add_sub_cancel_left] at h1
    have h3 : (1 + (u + d)) ^ 2 = (1 + u) ^ 2 + d * (2 * (1 + u) + d) := by ring
    rw [h3]
    have h4 : |d| ≤ 1 / 2 ^ 70 * M := abs_le.2 h1
    have h5 : |2 * (1 + u) + d| ≤ 11 := by rw [abs_le]; norm_num at h1; constructor <;> linarith
    have h6 : d * (2 * (1 + u) + d) ≤ 1 / 2 ^ 70 * M * 11 := by
      refine (le_abs_self _).trans ?_
      rw [abs_mul]
      exact mul_le_mul h4 h5 (abs_nonneg _) (by positivity)
    norm_num at h6 ⊢
    linarith
  · have h4 : 4 < |u| := by
      rcases max_choice 1 |u| with h | h <;> rw [h] at hM <;> linarith
    have hMu : max 1 |u| = |u| := max_eq_right (by linarith)
    rw [hMu] at hq ⊢
    have h5 : |u| ≤ (1 + u) ^ 2 := by
      rcases abs_choice u with h | h <;> rw [h] at h4 ⊢ <;> nlinarith
    rw [min_eq_left h5]
    exact (min_le_left _ _).trans hq

/-- `tanF` of a finite value whose cosine is not nearer to 0 than that of any binary64 is finite, and near the tangent. -/
theorem tanF_near {s : Bool} {m : Fin infCode} (h0 : m.val ≠ 0)
    (hc : 1 / 2 ^ 70 ≤ |Real.cos ((valueOf (.fin s m) : ℚ) : ℝ)|) :
    isFinite (tanF (.fin s m)) = true ∧
    TanNear (Real.tan ((valueOf (.fin s m) : ℚ) : ℝ)) ((valueOf (tanF (.fin s m)) : ℚ) : ℝ) := by
  have hcos : Real.cos ((valueOf (.fin s m) : ℚ) : ℝ) = Real.cos ((valueOf (.fin false m) : ℚ) : ℝ) := by
    rw [valueOf_sign]; cases s <;> simp
  rw [hcos] at hc
  obtain ⟨hb0, hnear⟩ := tanRatio_spec hc
  have htan1 : |Real.tan ((valueOf (.fin false m) : ℚ) : ℝ)| ≤ 2 ^ 70 := by
    rw [Real.tan_eq_sin_div_cos, abs_div, div_le_iff₀ (lt_of_lt_of_le (by norm_num) hc)]
    have := Real.abs_sin_le_one ((valueOf (.fin false m) : ℚ) : ℝ)
    norm_num at hc ⊢
    linarith
  have hsign : |Real.tan ((valueOf (.fin s m) : ℚ) : ℝ)| = |Real.tan ((valueOf (.fin false m) : ℚ) : ℝ)| := by
    rw [valueOf_sign]; cases s <;> simp
  have hnear' : |(if s then -1 else 1) * ((tanRatio m).1 / (tanRatio m).2 : ℝ) -
      Real.tan ((valueOf (.fin s m) : ℚ) : ℝ)| ≤ 1 / 2 ^ 70 * max 1 |Real.tan ((valueOf (.fin s m) : ℚ) : ℝ)| := by
    rw [hsign]
    refine le_trans (le_of_eq ?_) hnear
    rw [valueOf_sign]
    cases s
    · simp
    · simp only [if_true]
      rw [show (((-1 * valueOf (.fin false m) : ℚ)) : ℝ) = -((valueOf (.fin false m) : ℚ) : ℝ) by push_cast; ring,
        Real.tan_neg, abs_sub_comm]
      congr 1; ring
  rw [← hsign] at htan1
  clear hc hcos hnear hsign
  simp only [tanF]
  rw [if_neg h0]
  generalize Config.tanBits (F64.toBits (.fin s m)) = w
  generalize Real.tan ((valueOf (.fin s m) : ℚ) : ℝ) = u at *
  generalize (tanRatio m).1 = a at *
  generalize (tanRatio m).2 = b at *
  have hB0 : 0 < b.natAbs := by omega
  have hB : (0 : ℝ) < b.natAbs := by exact_mod_cast hB0
  obtain ⟨neg, hneg⟩ : ∃ neg, neg = (s != (decide (a < 0) != decide (b < 0))) := ⟨_, rfl⟩
  rw [← hneg]
  -- the quotient with its sign
  have hq : (if s then -1 else 1) * (a / b : ℝ) = (if neg then -1 else 1) * (a.natAbs / b.natAbs : ℝ) := by
    rw [hneg, Nat.cast_natAbs, Nat.cast_natAbs, Int.cast_abs, Int.cast_abs]
    by_cases ha : a < 0 <;> by_cases hb : b < 0 <;> simp only [ha, hb, decide_true, decide_false]
    · rw [abs_of_neg (by exact_mod_cast ha), abs_of_neg (by exact_mod_cast hb)]; cases s <;> simp
    · rw [abs_of_neg (by exact_mod_cast ha), abs_of_nonneg (by exact_mod_cast not_lt.1 hb)]; cases s <;> simp <;> ring
    · rw [abs_of_nonneg (by exact_mod_cast not_lt.1 ha), abs_of_neg (by exact_mod_cast hb)]
      cases s <;> simp [div_neg]
    · rw [abs_of_nonneg (by exact_mod_cast not_lt.1 ha), abs_of_nonneg (by exact_mod_cast not_lt.1 hb)]; cases s <;> simp
  rw [hq] at hnear'
  have hr0 : (0 : ℝ) ≤ a.natAbs / b.natAbs := by positivity
  have habs : |(if neg then -1 else 1) * (a.natAbs / b.natAbs : ℝ)| = a.natAbs / b.natAbs := by
    rw [abs_mul, abs_of_nonneg hr0]; cases neg <;> simp
  have hM : (a.natAbs / b.natAbs : ℝ) ≤ max 1 |u| + 1 / 2 ^ 70 * max 1 |u| := by
    have h2 := abs_sub_abs_le_abs_sub ((if neg then -1 else 1) * (a.natAbs / b.natAbs : ℝ)) u
    rw [habs] at h2
    have h3 := le_max_right 1 |u|
    linarith
  have hMt : max 1 |u| ≤ 2 ^ 70 := max_le (by norm_num) htan1
  have hM1 : 1 ≤ max 1 |u| := le_max_left _ _
  have hA : a.natAbs < b.natAbs * 2 ^ 100 := by
    have : (a.natAbs / b.natAbs : ℝ) < 2 ^ 100 := by
      refine lt_of_le_of_lt hM ?_
      generalize max 1 |u| = M at *
      norm_num at hMt ⊢
      linarith
    rw [div_lt_iff₀ hB, mul_comm] at this
    exact_mod_cast this
  obtain ⟨hT, hT'⟩ := tanTolerance_le neg a.natAbs hB0
  have hmono := tolerance_mono hnear'
  rw [habs] at hmono
  generalize hTe : tanTolerance neg a.natAbs b.natAbs = T at *
  have hsub : ((a.natAbs - T : Nat) : ℚ) / b.natAbs = a.natAbs / b.natAbs - T / b.natAbs := by
    rw [Nat.cast_sub hT, sub_div]
  have hadd : ((a.natAbs + T : Nat) : ℚ) / b.natAbs = a.natAbs / b.natAbs + T / b.natAbs := by
    rw [Nat.cast_add, add_div]
  have hE0 : (0 : ℚ) ≤ T / b.natAbs := by positivity
  obtain ⟨c, hc, herr⟩ := freeCode_near (s := neg) (n1 := a.natAbs - T)
    (n2 := a.natAbs + T) w (v := (a.natAbs / b.natAbs : ℚ)) (e := (T / b.natAbs : ℚ)) hB0
    (by norm_num at hA ⊢; omega) (by norm_num at hA ⊢; omega) (by rw [hsub]) (by rw [hsub]; linarith)
    (by rw [hadd])
  rw [hc]
  refine ⟨rfl, ?_⟩
  have hval : ((valueOf (.fin neg c) : ℚ) : ℝ) = (if neg then -1 else 1) * ((codeValue c.val : ℚ) : ℝ) := by
    rw [valueOf_fin]; unfold codeValue; cases neg <;> simp
  have herr' : |((codeValue c.val : ℚ) : ℝ) - (a.natAbs / b.natAbs : ℝ)| ≤
      (T / b.natAbs : ℝ) + (a.natAbs / b.natAbs + T / b.natAbs : ℝ) * 2 ^ (-53 : Int) + 2 ^ (-1074 : Int) := by
    have := (Rat.cast_le (K := ℝ)).2 herr
    push_cast at this; exact this
  have hdist : |((valueOf (.fin neg c) : ℚ) : ℝ) - u| ≤
      |((codeValue c.val : ℚ) : ℝ) - (a.natAbs / b.natAbs : ℝ)| +
        |(if neg then -1 else 1) * (a.natAbs / b.natAbs : ℝ) - u| := by
    rw [hval]
    generalize (a.natAbs / b.natAbs : ℝ) = r
    generalize ((codeValue c.val : ℚ) : ℝ) = k
    have h1 : |(if neg then -1 else 1 : ℝ)| = 1 := by cases neg <;> simp
    generalize (if neg then -1 else 1 : ℝ) = τ at *
    calc |τ * k - u| = |τ * (k - r) + (τ * r - u)| := by congr 1; ring
      _ ≤ _ := (abs_add_le _ _).trans (by rw [abs_mul, h1, one_mul])
  unfold TanNear
  have hfin : (T / b.natAbs : ℝ) ≤ max (1 / 2 ^ 36 * min (max 1 |u|) ((1 + u) ^ 2)) (1 / 2 ^ 53) + 1 / 2 ^ 96 * max 1 |u| := by
    refine hT'.trans (max_le ?_ ?_)
    · refine (mul_le_mul_of_nonneg_left hmono (by norm_num)).trans ?_
      rw [mul_add]
      exact add_le_add (le_max_left _ _) (le_of_eq (by ring))
    · exact (le_max_right _ _).trans (le_add_of_nonneg_right (by positivity))
  have hW : max (1 / 2 ^ 36 * min (max 1 |u|) ((1 + u) ^ 2)) (1 / 2 ^ 53) ≤ 1 / 2 ^ 36 * max 1 |u| := by
    refine max_le (mul_le_mul_of_nonneg_left (min_le_left _ _) (by positivity)) ?_
    norm_num; linarith
  have h3 : (2 : ℝ) ^ (-1074 : Int) ≤ 2 ^ (-100 : Int) := zpow_le_zpow_right₀ (by norm_num) (by norm_num)
  generalize (2 : ℝ) ^ (-1074 : Int) = A at *
  generalize (a.natAbs / b.natAbs : ℝ) = r at *
  generalize (T / b.natAbs : ℝ) = e at *
  generalize max (1 / 2 ^ 36 * min (max 1 |u|) ((1 + u) ^ 2)) (1 / 2 ^ 53) = W at *
  generalize max 1 |u| = M at *
  generalize |(if neg = true then -1 else 1) * r - u| = d at *
  norm_num at h3 hfin hW herr' hM hnear' ⊢
  linarith

/-! ### Designed coefficients: 1e-9 of the closed forms (R12)

`u` is the tangent and `v` what `tanF` answers, `κ` the cosine and `κ'` what `cosF` answers. -/

theorem TanNear.le {u v : ℝ} (h : TanNear u v) :
    |v - u| ≤ 1 / 2 ^ 36 * min (max 1 |u|) ((1 + u) ^ 2) + 1 / 2 ^ 53 + 1 / 2 ^ 52 * max 1 |u| := by
  have h0 : 0 ≤ min (max 1 |u|) ((1 + u) ^ 2) := le_min (by positivity) (by positivity)
  refine h.trans (add_le_add_left (max_le ?_ ?_) _)
  · linarith
  · linarith [show 0 ≤ 1 / 2 ^ 36 * min (max 1 |u|) ((1 + u) ^ 2) by positivity]

/-- `t^2 + sqrt(2) t + 1`, the denominator of LPF and HPF, is at least half of 1 and of `t^2`. -/
theorem butterworth_denominator (t : ℝ) : max 1 |t| ^ 2 / 2 ≤ t ^ 2 + √2 * t + 1 := by
  have hw : √2 * √2 = 2 := Real.mul_self_sqrt (by norm_num)
  rcases max_choice 1 |t| with h | h <;> rw [h]
  · nlinarith [sq_nonneg (t + √2 / 2)]
  · rw [sq_abs]; nlinarith [sq_nonneg (t + √2)]

/-- A coefficient of LPF or HPF whose difference is `(v - u) n` over both denominators. -/
theorem butterworth_error {u v n : ℝ} (h : TanNear u v) (hn : |n| ≤ 14 * (max 1 |u| * max 1 |v|)) :
    |(v - u) * n / ((v ^ 2 + √2 * v + 1) * (u ^ 2 + √2 * u + 1))| ≤ 1 / 10 ^ 9 := by
  have h1 := h.le
  have hu := butterworth_denominator u
  have hv := butterworth_denominator v
  have hmin := min_le_left (max 1 |u|) ((1 + u) ^ 2)
  have hM : 1 ≤ max 1 |u| := le_max_left _ _
  have hN : 1 ≤ max 1 |v| := le_max_left _ _
  generalize min (max 1 |u|) ((1 + u) ^ 2) = k at *
  generalize max 1 |u| = M at *
  generalize max 1 |v| = N at *
  have hu0 : 0 < u ^ 2 + √2 * u + 1 := lt_of_lt_of_le (by positivity) hu
  have hv0 : 0 < v ^ 2 + √2 * v + 1 := lt_of_lt_of_le (by positivity) hv
  have hΔ : |v - u| ≤ 15 / 10 ^ 12 * M := by norm_num at h1 ⊢; linarith
  rw [abs_div, abs_of_pos (mul_pos hv0 hu0), div_le_iff₀ (mul_pos hv0 hu0), abs_mul]
  have h2 : |v - u| * |n| ≤ 15 / 10 ^ 12 * M * (14 * (M * N)) := mul_le_mul hΔ hn (abs_nonneg _) (by positivity)
  have h3 : N ^ 2 / 2 * (M ^ 2 / 2) ≤ (v ^ 2 + √2 * v + 1) * (u ^ 2 + √2 * u + 1) :=
    mul_le_mul hv hu (by positivity) hv0.le
  have h4 : M ^ 2 * N ≤ M ^ 2 * N ^ 2 := mul_le_mul_of_nonneg_left (by nlinarith) (by positivity)
  norm_num at h2 ⊢
  nlinarith

/-- The coefficients of LPF and HPF (R173, R174), with `C` the cotangent or the tangent. -/
theorem butterworth_near {u v : ℝ} (h : TanNear u v) :
    |v ^ 2 / (v ^ 2 + √2 * v + 1) - u ^ 2 / (u ^ 2 + √2 * u + 1)| ≤ 1 / 10 ^ 9 ∧
    |1 / (v ^ 2 + √2 * v + 1) - 1 / (u ^ 2 + √2 * u + 1)| ≤ 1 / 10 ^ 9 ∧
    |2 * (v ^ 2 - 1) / (v ^ 2 + √2 * v + 1) - 2 * (u ^ 2 - 1) / (u ^ 2 + √2 * u + 1)| ≤ 1 / 10 ^ 9 ∧
    |(v ^ 2 - √2 * v + 1) / (v ^ 2 + √2 * v + 1) - (u ^ 2 - √2 * u + 1) / (u ^ 2 + √2 * u + 1)| ≤ 1 / 10 ^ 9 := by
  have hu0 : u ^ 2 + √2 * u + 1 ≠ 0 := (lt_of_lt_of_le (by positivity) (butterworth_denominator u)).ne'
  have hv0 : v ^ 2 + √2 * v + 1 ≠ 0 := (lt_of_lt_of_le (by positivity) (butterworth_denominator v)).ne'
  have hw0 : 0 ≤ √2 := Real.sqrt_nonneg _
  have hw : √2 ≤ 3 / 2 := Real.sqrt_le_iff.2 ⟨by norm_num, by norm_num⟩
  have hM : 1 ≤ max 1 |u| := le_max_left _ _
  have hN : 1 ≤ max 1 |v| := le_max_left _ _
  have hMu : |u| ≤ max 1 |u| := le_max_right _ _
  have hNv : |v| ≤ max 1 |v| := le_max_right _ _
  have huv : |u * v| ≤ max 1 |u| * max 1 |v| := by
    rw [abs_mul]; exact mul_le_mul hMu hNv (abs_nonneg _) (by positivity)
  -- every numerator is `a uv + b (u + v) + c` with small coefficients
  have hnum : ∀ a b c : ℝ, |a| + 2 * |b| + |c| ≤ 14 →
      |a * (u * v) + b * (u + v) + c| ≤ 14 * (max 1 |u| * max 1 |v|) := by
    intro a b c habc
    have h1 : |u + v| ≤ 2 * (max 1 |u| * max 1 |v|) := by
      refine (abs_add_le _ _).trans ?_
      nlinarith
    have h2 : 1 ≤ max 1 |u| * max 1 |v| := by nlinarith
    calc |a * (u * v) + b * (u + v) + c| ≤ |a * (u * v)| + |b * (u + v)| + |c| :=
          (abs_add_le _ _).trans (add_le_add_left (abs_add_le _ _) _)
      _ ≤ |a| * (max 1 |u| * max 1 |v|) + |b| * (2 * (max 1 |u| * max 1 |v|)) + |c| * (max 1 |u| * max 1 |v|) := by
          rw [abs_mul a, abs_mul b]
          exact add_le_add (add_le_add (mul_le_mul_of_nonneg_left huv (abs_nonneg _))
            (mul_le_mul_of_nonneg_left h1 (abs_nonneg _))) (le_mul_of_one_le_right (abs_nonneg _) h2)
      _ = (|a| + 2 * |b| + |c|) * (max 1 |u| * max 1 |v|) := by ring
      _ ≤ _ := mul_le_mul_of_nonneg_right habc (by positivity)
  have hcoef : ∀ x : ℝ, 0 ≤ x → |x * √2| ≤ x * (3 / 2) := fun x hx => by
    rw [abs_of_nonneg (mul_nonneg hx hw0)]; exact mul_le_mul_of_nonneg_left hw hx
  have step : ∀ (a b c x y : ℝ), |a| + 2 * |b| + |c| ≤ 14 →
      x - y = (v - u) * (a * (u * v) + b * (u + v) + c) / ((v ^ 2 + √2 * v + 1) * (u ^ 2 + √2 * u + 1)) →
      |x - y| ≤ 1 / 10 ^ 9 := fun a b c x y h1 h2 => by
    rw [h2]; exact butterworth_error h (hnum a b c h1)
  have c1 := hcoef 1 (by norm_num)
  have c2 := hcoef 2 (by norm_num)
  refine ⟨step (1 * √2) 1 0 _ _ ?_ ?_, step 0 (-1) (-(1 * √2)) _ _ ?_ ?_, step (2 * √2) 4 (2 * √2) _ _ ?_ ?_,
    step (2 * √2) 0 (-(2 * √2)) _ _ ?_ ?_⟩
  · norm_num at c1 ⊢; linarith
  · rw [div_sub_div _ _ hv0 hu0]; congr 1; ring
  · rw [abs_neg, abs_neg, abs_zero, abs_one]; linarith
  · rw [div_sub_div _ _ hv0 hu0]; congr 1; ring
  · rw [abs_of_pos (show (0 : ℝ) < 4 by norm_num)]; linarith
  · rw [div_sub_div _ _ hv0 hu0]; congr 1; ring
  · rw [abs_neg, abs_zero]; linarith
  · rw [div_sub_div _ _ hv0 hu0]; congr 1; ring

/-- The term all of BPF, BRF, RLPF and RHPF divide by, where the tangent is `2^-10` or more from -1. Nearer, the angle's own
roundings (R9) may move a coefficient farther than 1e-9, whatever `tanF` answers. -/
theorem band_term_near {u v : ℝ} (h : TanNear u v) (hδ : 1 / 2 ^ 10 ≤ |1 + u|) :
    1 + u ≠ 0 ∧ 1 + v ≠ 0 ∧ |2 / (1 + v) - 2 / (1 + u)| ≤ 9 / 10 ^ 10 := by
  have h1 := h.le
  have hM : max 1 |u| ≤ 1 + |1 + u| := by
    refine max_le (by linarith [abs_nonneg (1 + u)]) ?_
    calc |u| = |(1 + u) - 1| := by congr 1; ring
      _ ≤ _ := (abs_sub _ _).trans (by rw [abs_one, add_comm])
  have hv : |1 + u| - |v - u| ≤ |1 + v| := by
    have := abs_sub_abs_le_abs_sub (1 + u) (u - v)
    rw [abs_sub_comm u v, show 1 + u - (u - v) = 1 + v by ring] at this
    exact this
  have hm1 := min_le_left (max 1 |u|) ((1 + u) ^ 2)
  have hm2 := min_le_right (max 1 |u|) ((1 + u) ^ 2)
  rw [← sq_abs (1 + u)] at hm1 hm2
  have hδ0 : 0 < |1 + u| := lt_of_lt_of_le (by norm_num) hδ
  have hu0 : 1 + u ≠ 0 := abs_pos.1 hδ0
  have hdist : 2 / (1 + v) - 2 / (1 + u) = 2 * (u - v) / ((1 + v) * (1 + u)) ∨ 1 + v = 0 := by
    by_cases hv0 : 1 + v = 0
    · exact .inr hv0
    · left; field_simp; ring
  rw [← sq_abs (1 + u)] at h1
  have key : 2 * |v - u| ≤ 9 / 10 ^ 10 * ((|1 + u| - |v - u|) * |1 + u|) ∧ 0 < |1 + u| - |v - u| := by
    generalize min (max 1 |u|) (|1 + u| ^ 2) = k at *
    generalize max 1 |u| = M at *
    generalize |1 + u| = δ at *
    generalize |v - u| = Δ at *
    by_cases h2 : δ ≤ 1
    · have h3 : Δ ≤ 4 / 10 ^ 10 * δ ^ 2 := by
        have e1 : (1 / 2 ^ 10) ^ 2 ≤ δ ^ 2 := pow_le_pow_left₀ (by norm_num) hδ 2
        have e2 : 1 / 2 ^ 10 * δ ≤ δ ^ 2 := by nlinarith
        norm_num at h1 e1 e2 ⊢
        linarith
      have h4 : δ ^ 2 ≤ δ := by nlinarith
      norm_num at h3 ⊢
      constructor <;> nlinarith
    · have h3 : Δ ≤ 4 / 10 ^ 11 * δ := by norm_num at h1 ⊢; linarith
      norm_num at h3 ⊢
      constructor <;> nlinarith
  have hv1 : 0 < |1 + v| := lt_of_lt_of_le key.2 hv
  have hv0 : 1 + v ≠ 0 := abs_pos.1 hv1
  refine ⟨hu0, hv0, ?_⟩
  rw [hdist.resolve_right hv0, abs_div, abs_mul, abs_mul, div_le_iff₀ (mul_pos hv1 hδ0), abs_sub_comm u v,
    abs_of_pos (show (0 : ℝ) < 2 by norm_num)]
  refine key.1.trans (mul_le_mul_of_nonneg_left (mul_le_mul_of_nonneg_right hv hδ0.le) (by norm_num))

/-- The coefficients of BPF, BRF, RLPF and RHPF (R175 to R178). -/
theorem band_near {u v κ κ' : ℝ} (h : TanNear u v) (hδ : 1 / 2 ^ 10 ≤ |1 + u|) (hκ : |κ' - κ| ≤ 1 / 2 ^ 45)
    (hκ' : |κ'| ≤ 1) :
    |v / (1 + v) - u / (1 + u)| ≤ 1 / 10 ^ 9 ∧ |1 / (1 + v) - 1 / (1 + u)| ≤ 1 / 10 ^ 9 ∧
    |(1 - v) / (1 + v) - (1 - u) / (1 + u)| ≤ 1 / 10 ^ 9 ∧
    |2 * κ' / (1 + v) - 2 * κ / (1 + u)| ≤ 1 / 10 ^ 9 ∧
    |(1 - κ') / (2 * (1 + v)) - (1 - κ) / (2 * (1 + u))| ≤ 1 / 10 ^ 9 ∧
    |(1 + κ') / (2 * (1 + v)) - (1 + κ) / (2 * (1 + u))| ≤ 1 / 10 ^ 9 := by
  obtain ⟨hu, hv, h1⟩ := band_term_near h hδ
  have hX : |2 / (1 + u)| ≤ 2 ^ 11 := by
    rw [abs_div, div_le_iff₀ (lt_of_lt_of_le (by norm_num) hδ), abs_of_pos (by norm_num)]
    norm_num at hδ ⊢; linarith
  have e1 : v / (1 + v) - u / (1 + u) = -1 / 2 * (2 / (1 + v) - 2 / (1 + u)) := by field_simp; ring
  have e2 : 1 / (1 + v) - 1 / (1 + u) = 1 / 2 * (2 / (1 + v) - 2 / (1 + u)) := by field_simp
  have e3 : (1 - v) / (1 + v) - (1 - u) / (1 + u) = 2 / (1 + v) - 2 / (1 + u) := by field_simp; ring
  have e4 : 2 * κ' / (1 + v) - 2 * κ / (1 + u) = κ' * (2 / (1 + v) - 2 / (1 + u)) + (κ' - κ) * (2 / (1 + u)) := by
    field_simp; ring
  have e5 : (1 - κ') / (2 * (1 + v)) - (1 - κ) / (2 * (1 + u)) =
      1 / 4 * (2 / (1 + v) - 2 / (1 + u)) - 1 / 4 * (2 * κ' / (1 + v) - 2 * κ / (1 + u)) := by field_simp; ring
  have e6 : (1 + κ') / (2 * (1 + v)) - (1 + κ) / (2 * (1 + u)) =
      1 / 4 * (2 / (1 + v) - 2 / (1 + u)) + 1 / 4 * (2 * κ' / (1 + v) - 2 * κ / (1 + u)) := by field_simp; ring
  have h4 : |2 * κ' / (1 + v) - 2 * κ / (1 + u)| ≤ 1 / 10 ^ 9 := by
    rw [e4]
    refine (abs_add_le _ _).trans ?_
    rw [abs_mul, abs_mul]
    have a1 := mul_le_mul hκ' h1 (abs_nonneg _) (by norm_num)
    have a2 := mul_le_mul hκ hX (abs_nonneg _) (by norm_num)
    refine (add_le_add a1 a2).trans (by norm_num)
  rw [e5, e6, e1, e2, e3]
  refine ⟨?_, ?_, h1.trans (by norm_num), h4, ?_, ?_⟩ <;> rw [abs_le] at * <;> norm_num at h1 h4 ⊢ <;>
    constructor <;> linarith

/-- The coefficient of RESONZ, and the pole and zero terms of BIQUAD, that hold a cosine (R179, R195, R196). -/
theorem cosine_terms_near {κ κ' : ℝ} (hκ : |κ' - κ| ≤ 1 / 2 ^ 45) (r : ℝ) :
    |2 * r * (2 * r * κ' / (1 + r * r)) - 2 * r * (2 * r * κ / (1 + r * r))| ≤ 1 / 10 ^ 9 ∧
    (|r| ≤ 1 → |-2 * r * κ' - -2 * r * κ| ≤ 1 / 10 ^ 9) := by
  have hr : 0 < 1 + r * r := by nlinarith
  constructor
  · have e : 2 * r * (2 * r * κ' / (1 + r * r)) - 2 * r * (2 * r * κ / (1 + r * r)) =
        4 * (r * r / (1 + r * r)) * (κ' - κ) := by ring
    have h1 : r * r / (1 + r * r) ≤ 1 := by rw [div_le_one hr]; linarith
    have h0 : 0 ≤ r * r / (1 + r * r) := div_nonneg (mul_self_nonneg r) hr.le
    rw [e, abs_mul, abs_of_nonneg (mul_nonneg (by norm_num) h0)]
    refine (mul_le_mul (mul_le_mul_of_nonneg_left h1 (by norm_num)) hκ (abs_nonneg _) (by norm_num)).trans (by norm_num)
  · intro h1
    rw [← mul_sub, abs_mul, abs_mul, abs_neg, abs_of_pos (show (0 : ℝ) < 2 by norm_num)]
    refine (mul_le_mul (mul_le_mul_of_nonneg_left h1 (by norm_num)) hκ (abs_nonneg _) (by norm_num)).trans (by norm_num)

/-! ### A tangent at a given magnitude -/

/-- The code of `tanF` of this magnitude lies between `lo` and `hi`, and its sign bit is clear. -/
abbrev TanCode (m : Fin infCode) (lo hi : Nat) : Prop :=
  m.val ≠ 0 ∧ (decide ((tanRatio m).1 < 0) != decide ((tanRatio m).2 < 0)) = false ∧ hi < infCode ∧
  lo ≤ quotientCode ((tanRatio m).1.natAbs - tanTolerance false (tanRatio m).1.natAbs (tanRatio m).2.natAbs)
    (tanRatio m).2.natAbs ∧
  quotientCode ((tanRatio m).1.natAbs - tanTolerance false (tanRatio m).1.natAbs (tanRatio m).2.natAbs)
    (tanRatio m).2.natAbs ≤ hi ∧
  quotientCode ((tanRatio m).1.natAbs + tanTolerance false (tanRatio m).1.natAbs (tanRatio m).2.natAbs)
    (tanRatio m).2.natAbs ≤ hi

theorem TanCode.tanF {m : Fin infCode} {lo hi : Nat} (h : TanCode m lo hi) :
    ∃ c : Fin infCode, tanF (.fin false m) = .fin false c ∧ lo ≤ c.val ∧ c.val ≤ hi := by
  obtain ⟨h0, hs, hi', h1, h2, h3⟩ := h
  obtain ⟨c, c1, c2, hc⟩ := freeCode_spec false
    (quotientCode ((tanRatio m).1.natAbs - tanTolerance false (tanRatio m).1.natAbs (tanRatio m).2.natAbs)
      (tanRatio m).2.natAbs)
    (quotientCode ((tanRatio m).1.natAbs + tanTolerance false (tanRatio m).1.natAbs (tanRatio m).2.natAbs)
      (tanRatio m).2.natAbs) (Config.tanBits (F64.toBits (.fin false m)))
  have hle : c ≤ hi := by omega
  refine ⟨⟨c, by omega⟩, ?_, by show lo ≤ c; omega, hle⟩
  rw [← ofCode_lt (s := false) (by omega : c < infCode), ← hc]
  simp only [Machine.tanF, if_neg h0, hs, Bool.false_bne]

/-! ### The power of ten -/

theorem isqrtBits_spec (n : Nat) : ∀ b r : Nat, r * r ≤ n → n < (r + 2 ^ b) * (r + 2 ^ b) →
    isqrtBits n b r * isqrtBits n b r ≤ n ∧ n < (isqrtBits n b r + 1) * (isqrtBits n b r + 1)
  | 0, r, h1, h2 => ⟨h1, by simpa [isqrtBits] using h2⟩
  | b + 1, r, h1, h2 => by
    unfold isqrtBits
    split
    · rename_i h
      exact isqrtBits_spec n b _ h (by rw [pow_succ] at h2; convert h2 using 2 <;> ring)
    · rename_i h
      exact isqrtBits_spec n b _ h1 (by omega)

/-- The integer square root. -/
theorem isqrt_spec (n : Nat) : isqrt n * isqrt n ≤ n ∧ n < (isqrt n + 1) * (isqrt n + 1) := by
  refine isqrtBits_spec n _ 0 (by omega) ?_
  have h1 : n < 2 ^ (Nat.log2 n + 1) := Nat.lt_log2_self
  have h2 : 2 ^ (Nat.log2 n + 1) ≤ 2 ^ (Nat.log2 n / 2 + 1) * 2 ^ (Nat.log2 n / 2 + 1) := by
    rw [← pow_add]; exact Nat.pow_le_pow_right (by decide) (by omega)
  rw [Nat.zero_add]
  omega

/-- One square root of the chain: `r` is `a` with 128 bits, from below, to `2^-120` of itself. -/
theorem isqrt_chain {r : Nat} {a : ℝ} (ha : 1 ≤ a) (h1 : a * (1 - 1 / 2 ^ 120) * 2 ^ 128 ≤ r)
    (h2 : (r : ℝ) ≤ a * 2 ^ 128) (h3 : 2 ^ 128 ≤ r) :
    Real.sqrt a * (1 - 1 / 2 ^ 120) * 2 ^ 128 ≤ isqrt (r * 2 ^ 128) ∧
      (isqrt (r * 2 ^ 128) : ℝ) ≤ Real.sqrt a * 2 ^ 128 ∧ 2 ^ 128 ≤ isqrt (r * 2 ^ 128) := by
  obtain ⟨s1, s2⟩ := isqrt_spec (r * 2 ^ 128)
  generalize isqrt (r * 2 ^ 128) = q at *
  have s1' : (q : ℝ) * q ≤ r * 2 ^ 128 := by exact_mod_cast s1
  have s2' : (r : ℝ) * 2 ^ 128 < (q + 1) * (q + 1) := by exact_mod_cast s2
  have hs : Real.sqrt a * Real.sqrt a = a := Real.mul_self_sqrt (by linarith)
  have hs1 : 1 ≤ Real.sqrt a := Real.one_le_sqrt.2 ha
  generalize Real.sqrt a = t at *
  have hq0 : (0 : ℝ) ≤ q := Nat.cast_nonneg q
  refine ⟨?_, ?_, ?_⟩
  · by_contra hc
    push Not at hc
    have h4 : (q : ℝ) + 1 < t * (1 - 1 / 2 ^ 121 - 1 / 2 ^ 128) * 2 ^ 128 := by
      norm_num at hc ⊢; nlinarith
    have h5 : ((q : ℝ) + 1) * (q + 1) ≤ (t * (1 - 1 / 2 ^ 121 - 1 / 2 ^ 128) * 2 ^ 128) * (t * (1 - 1 / 2 ^ 121 - 1 / 2 ^ 128) * 2 ^ 128) :=
      mul_le_mul h4.le h4.le (by linarith) (le_trans (by linarith) h4.le)
    have h6 : (t * (1 - 1 / 2 ^ 121 - 1 / 2 ^ 128) * 2 ^ 128) * (t * (1 - 1 / 2 ^ 121 - 1 / 2 ^ 128) * 2 ^ 128) =
        a * ((1 - 1 / 2 ^ 121 - 1 / 2 ^ 128) * (1 - 1 / 2 ^ 121 - 1 / 2 ^ 128)) * 2 ^ 256 := by
      rw [← hs]; ring
    have h7 : a * (1 - 1 / 2 ^ 120) * 2 ^ 256 ≤ r * 2 ^ 128 := by
      calc a * (1 - 1 / 2 ^ 120) * 2 ^ 256 = a * (1 - 1 / 2 ^ 120) * 2 ^ 128 * 2 ^ 128 := by ring
        _ ≤ _ := mul_le_mul_of_nonneg_right h1 (by positivity)
    have h8 : ((1 : ℝ) - 1 / 2 ^ 121 - 1 / 2 ^ 128) * (1 - 1 / 2 ^ 121 - 1 / 2 ^ 128) ≤ 1 - 1 / 2 ^ 120 := by norm_num
    have h9 : a * ((1 - 1 / 2 ^ 121 - 1 / 2 ^ 128) * (1 - 1 / 2 ^ 121 - 1 / 2 ^ 128)) * 2 ^ 256 ≤
        a * (1 - 1 / 2 ^ 120) * 2 ^ 256 :=
      mul_le_mul_of_nonneg_right (mul_le_mul_of_nonneg_left h8 (by linarith)) (by positivity)
    linarith
  · have h4 : (q : ℝ) * q ≤ (t * 2 ^ 128) * (t * 2 ^ 128) := by
      calc (q : ℝ) * q ≤ r * 2 ^ 128 := s1'
        _ ≤ a * 2 ^ 128 * 2 ^ 128 := mul_le_mul_of_nonneg_right h2 (by positivity)
        _ = _ := by rw [← hs]; ring
    exact abs_le_of_sq_le_sq' (by nlinarith) (by positivity) |>.2
  · by_contra hc
    push Not at hc
    have : (q + 1) * (q + 1) ≤ r * 2 ^ 128 := Nat.mul_le_mul (by omega) (by omega)
    omega

theorem nat_div_real (n : Nat) {d : Nat} (hd : 0 < d) :
    ((n / d : Nat) : ℝ) ≤ (n : ℝ) / d ∧ (n : ℝ) / d < ((n / d : Nat) : ℝ) + 1 := by
  refine ⟨Nat.cast_div_le, ?_⟩
  rw [div_lt_iff₀ (by exact_mod_cast hd)]
  have : n < (n / d + 1) * d := by rw [add_mul, one_mul]; exact Nat.lt_div_mul_add hd
  exact_mod_cast this

/-- `pow10Bits128` comes from below, to `2^-119` of itself for each bit. -/
theorem pow10Bits128_spec : ∀ (b r x acc : Nat) (e : ℝ), 0 ≤ e → x < 2 ^ b →
    (10 : ℝ) ^ e * (1 - 1 / 2 ^ 120) * 2 ^ 128 ≤ r → (r : ℝ) ≤ (10 : ℝ) ^ e * 2 ^ 128 → 2 ^ 128 ≤ r → 2 ^ 128 ≤ acc →
    acc * (10 : ℝ) ^ (e * x / 2 ^ b) * (1 - 1 / 2 ^ 119) ^ b ≤ pow10Bits128 b r x acc ∧
      (pow10Bits128 b r x acc : ℝ) ≤ acc * (10 : ℝ) ^ (e * x / 2 ^ b) ∧ 2 ^ 128 ≤ pow10Bits128 b r x acc
  | 0, r, x, acc, e, _, hx, _, _, _, ha => by
    obtain rfl : x = 0 := by omega
    exact ⟨by simp [pow10Bits128], by simp [pow10Bits128], ha⟩
  | b + 1, r, x, acc, e, he, hx, h1, h2, h3, ha => by
    have hten : (1 : ℝ) ≤ 10 ^ e := Real.one_le_rpow (by norm_num) he
    obtain ⟨q1, q2, q3⟩ := isqrt_chain hten h1 h2 h3
    have hsq : Real.sqrt ((10 : ℝ) ^ e) = (10 : ℝ) ^ (e / 2) := by
      rw [Real.sqrt_eq_rpow, ← Real.rpow_mul (by norm_num)]; congr 1; ring
    rw [hsq] at q1 q2
    unfold pow10Bits128
    dsimp only
    generalize isqrt (r * 2 ^ 128) = q at *
    have hstep : (1 - 1 / 2 ^ 119 : ℝ) ^ (b + 1) ≤ (1 - 1 / 2 ^ 119) ^ b :=
      pow_le_pow_of_le_one (by norm_num) (by norm_num) (by omega)
    split
    · rename_i hbx
      have hacc : 2 ^ 128 ≤ acc * q / 2 ^ 128 := by
        rw [Nat.le_div_iff_mul_le (by positivity)]; exact Nat.mul_le_mul ha q3
      obtain ⟨i1, i2, i3⟩ := pow10Bits128_spec b q (x - 2 ^ b) (acc * q / 2 ^ 128) (e / 2) (by linarith)
        (by rw [pow_succ] at hx; omega) q1 q2 q3 hacc
      have hexp : e / 2 + e / 2 * ((x - 2 ^ b : Nat) : ℝ) / 2 ^ b = e * x / 2 ^ (b + 1) := by
        rw [Nat.cast_sub hbx, pow_succ]; push_cast; field_simp; ring
      have hdiv := nat_div_real (acc * q) (show 0 < 2 ^ 128 by positivity)
      rw [Nat.cast_mul, Nat.cast_pow, Nat.cast_ofNat] at hdiv
      obtain ⟨hdiv, hdiv'⟩ := hdiv
      have hpos : (0 : ℝ) < (10 : ℝ) ^ (e / 2 * ((x - 2 ^ b : Nat) : ℝ) / 2 ^ b) := by positivity
      have hhalf : (0 : ℝ) < (10 : ℝ) ^ (e / 2) := by positivity
      have ha' : (2 : ℝ) ^ 128 ≤ acc := by exact_mod_cast ha
      have hacc' : (2 : ℝ) ^ 128 ≤ ((acc * q / 2 ^ 128 : Nat) : ℝ) := by exact_mod_cast hacc
      rw [← hexp, Real.rpow_add (by norm_num)]
      generalize (10 : ℝ) ^ (e / 2 * ((x - 2 ^ b : Nat) : ℝ) / 2 ^ b) = Y at *
      generalize (10 : ℝ) ^ (e / 2) = H at *
      generalize ((acc * q / 2 ^ 128 : Nat) : ℝ) = A at *
      have hupper : A ≤ acc * H := by
        refine hdiv.trans ?_
        rw [div_le_iff₀ (by positivity), mul_assoc]
        exact mul_le_mul_of_nonneg_left q2 (by positivity)
      have hlower : acc * H * (1 - 1 / 2 ^ 119) ≤ A := by
        have h5 : acc * H * (1 - 1 / 2 ^ 120) ≤ acc * q / 2 ^ 128 := by
          rw [le_div_iff₀ (by positivity)]
          calc acc * H * (1 - 1 / 2 ^ 120) * 2 ^ 128 = acc * (H * (1 - 1 / 2 ^ 120) * 2 ^ 128) := by ring
            _ ≤ _ := mul_le_mul_of_nonneg_left q1 (by positivity)
        have h6 : (2 : ℝ) ^ 128 ≤ acc * H := hacc'.trans hupper
        norm_num at h5 h6 ⊢
        linarith
      refine ⟨?_, ?_, i3⟩
      · refine le_trans ?_ i1
        have hc : (0 : ℝ) ≤ (1 - 1 / 2 ^ 119) ^ b := by apply pow_nonneg; norm_num
        calc acc * (H * Y) * (1 - 1 / 2 ^ 119) ^ (b + 1) = (acc * H * (1 - 1 / 2 ^ 119)) * (Y * (1 - 1 / 2 ^ 119) ^ b) := by
              rw [pow_succ]; ring
          _ ≤ A * (Y * (1 - 1 / 2 ^ 119) ^ b) := mul_le_mul_of_nonneg_right hlower (by positivity)
          _ = _ := by ring
      · refine i2.trans ?_
        calc A * Y ≤ acc * H * Y := mul_le_mul_of_nonneg_right hupper hpos.le
          _ = _ := by ring
    · rename_i hbx
      obtain ⟨i1, i2, i3⟩ := pow10Bits128_spec b q x acc (e / 2) (by linarith) (by omega) q1 q2 q3 ha
      have hexp : e / 2 * (x : ℝ) / 2 ^ b = e * x / 2 ^ (b + 1) := by rw [pow_succ]; field_simp
      rw [hexp] at i1 i2
      exact ⟨(mul_le_mul_of_nonneg_left hstep (by positivity)).trans i1, i2, i3⟩

/-- `fixed64` cuts the magnitude to 64 bits after the point. -/
theorem fixed64_spec (m : Fin infCode) :
    (fixed64 m : ℝ) / 2 ^ 64 ≤ ((valueOf (.fin false m) : ℚ) : ℝ) ∧
      ((valueOf (.fin false m) : ℚ) : ℝ) ≤ ((fixed64 m : ℝ) + 1) / 2 ^ 64 := by
  rw [valueOf_real, div_le_iff₀ (by positivity), le_div_iff₀ (by positivity)]
  have h64 : (significand m : ℝ) * 2 ^ exponent m * 2 ^ 64 = significand m * 2 ^ (exponent m + 64) := by
    rw [zpow_add₀ (by norm_num)]; norm_num; ring
  rw [h64]
  unfold fixed64
  split
  · rename_i h
    have : (2 : ℝ) ^ (exponent m + 64) = ((2 ^ (exponent m + 64).toNat : Nat) : ℝ) := by
      rw [Nat.cast_pow, Nat.cast_ofNat, ← zpow_natCast]; congr 1; omega
    rw [this, Nat.cast_mul]
    exact ⟨le_refl _, by linarith⟩
  · rename_i h
    have : (significand m : ℝ) * 2 ^ (exponent m + 64) = (significand m : ℝ) / ((2 ^ (-(exponent m + 64)).toNat : Nat) : ℝ) := by
      rw [Nat.cast_pow, Nat.cast_ofNat, ← zpow_natCast, div_eq_mul_inv, ← zpow_neg]; congr 2; omega
    rw [this]
    obtain ⟨h1, h2⟩ := nat_div_real (significand m) (Nat.two_pow_pos (-(exponent m + 64)).toNat)
    exact ⟨h1, h2.le⟩

/-- `10^y` of a small `y`. -/
theorem ten_rpow_small {y : ℝ} (h0 : 0 ≤ y) (h1 : y ≤ 1) : (10 : ℝ) ^ y ≤ 1 + 9 * y := by
  have := rpow_one_add_le_one_add_mul_self (s := 9) (by norm_num) h0 h1
  norm_num at this
  linarith

theorem pow10Approx_spec (m : Fin infCode) :
    2 ^ 128 ≤ pow10Approx m ∧
    (pow10Approx m : ℝ) ≤ (10 : ℝ) ^ ((valueOf (.fin false m) : ℚ) : ℝ) * 2 ^ 128 ∧
    (10 : ℝ) ^ ((valueOf (.fin false m) : ℚ) : ℝ) * 2 ^ 128 ≤ pow10Approx m * (1 + 1 / 2 ^ 59) := by
  obtain ⟨f1, f2⟩ := fixed64_spec m
  unfold pow10Approx
  dsimp only
  generalize fixed64 m = X at *
  have hI : 2 ^ 128 ≤ 10 ^ (X / 2 ^ 64) * 2 ^ 128 := Nat.le_mul_of_pos_left _ (by positivity)
  obtain ⟨h1, h2, h3⟩ := pow10Bits128_spec 64 (10 * 2 ^ 128) (X % 2 ^ 64) (10 ^ (X / 2 ^ 64) * 2 ^ 128) 1 (by norm_num)
    (Nat.mod_lt _ (by positivity)) (by norm_num) (by norm_num) (by norm_num) hI
  refine ⟨h3, ?_⟩
  generalize pow10Bits128 64 (10 * 2 ^ 128) (X % 2 ^ 64) (10 ^ (X / 2 ^ 64) * 2 ^ 128) = R at *
  have hX : ((10 ^ (X / 2 ^ 64) * 2 ^ 128 : Nat) : ℝ) * (10 : ℝ) ^ ((1 : ℝ) * ((X % 2 ^ 64 : Nat) : ℝ) / 2 ^ 64) =
      (10 : ℝ) ^ ((X : ℝ) / 2 ^ 64) * 2 ^ 128 := by
    have hmod := Nat.div_add_mod X (2 ^ 64)
    have hmod' : (X : ℝ) / 2 ^ 64 = ((X / 2 ^ 64 : Nat) : ℝ) + (1 : ℝ) * ((X % 2 ^ 64 : Nat) : ℝ) / 2 ^ 64 := by
      have h : ((2 ^ 64 : Nat) : ℝ) * ((X / 2 ^ 64 : Nat) : ℝ) + ((X % 2 ^ 64 : Nat) : ℝ) = (X : ℝ) := by exact_mod_cast hmod
      rw [Nat.cast_pow, Nat.cast_ofNat] at h
      rw [← h]; field_simp
    rw [hmod', Real.rpow_add (by norm_num), Real.rpow_natCast, Nat.cast_mul, Nat.cast_pow, Nat.cast_pow]
    norm_num
    ring
  rw [hX] at h1 h2
  generalize ((valueOf (.fin false m) : ℚ) : ℝ) = x at *
  have hlow : (10 : ℝ) ^ ((X : ℝ) / 2 ^ 64) ≤ (10 : ℝ) ^ x := Real.rpow_le_rpow_of_exponent_le (by norm_num) f1
  have hup : (10 : ℝ) ^ x ≤ (10 : ℝ) ^ ((X : ℝ) / 2 ^ 64) * (1 + 9 / 2 ^ 64) := by
    calc (10 : ℝ) ^ x ≤ (10 : ℝ) ^ (((X : ℝ) + 1) / 2 ^ 64) := Real.rpow_le_rpow_of_exponent_le (by norm_num) f2
      _ = (10 : ℝ) ^ ((X : ℝ) / 2 ^ 64) * (10 : ℝ) ^ ((1 : ℝ) / 2 ^ 64) := by
        rw [← Real.rpow_add (by norm_num)]; congr 1; ring
      _ ≤ _ := by
        refine mul_le_mul_of_nonneg_left ((ten_rpow_small (by positivity) (by norm_num)).trans (by norm_num)) (by positivity)
  have hpow : (1 : ℝ) - 1 / 2 ^ 113 ≤ (1 - 1 / 2 ^ 119) ^ 64 := by
    have := one_add_mul_le_pow (show (-2 : ℝ) ≤ -(1 / 2 ^ 119) by norm_num) 64
    norm_num at this ⊢
  have hG : (0 : ℝ) < (10 : ℝ) ^ ((X : ℝ) / 2 ^ 64) := by positivity
  generalize (10 : ℝ) ^ ((X : ℝ) / 2 ^ 64) = G at *
  generalize (10 : ℝ) ^ x = Y at *
  refine ⟨h2.trans (mul_le_mul_of_nonneg_right hlow (by positivity)), ?_⟩
  have h4 : G * 2 ^ 128 * (1 - 1 / 2 ^ 113) ≤ R := (mul_le_mul_of_nonneg_left hpow (by positivity)).trans h1
  have h5 : G * 2 ^ 128 * (1 + 9 / 2 ^ 64) ≤ G * 2 ^ 128 * ((1 - 1 / 2 ^ 113) * (1 + 1 / 2 ^ 59)) :=
    mul_le_mul_of_nonneg_left (by norm_num) (by positivity)
  have h6 : G * 2 ^ 128 * (1 - 1 / 2 ^ 113) * (1 + 1 / 2 ^ 59) ≤ R * (1 + 1 / 2 ^ 59) :=
    mul_le_mul_of_nonneg_right h4 (by norm_num)
  have h7 : Y * 2 ^ 128 ≤ G * (1 + 9 / 2 ^ 64) * 2 ^ 128 := mul_le_mul_of_nonneg_right hup (by positivity)
  calc Y * 2 ^ 128 ≤ G * (1 + 9 / 2 ^ 64) * 2 ^ 128 := h7
    _ = G * 2 ^ 128 * (1 + 9 / 2 ^ 64) := by ring
    _ ≤ G * 2 ^ 128 * ((1 - 1 / 2 ^ 113) * (1 + 1 / 2 ^ 59)) := h5
    _ = G * 2 ^ 128 * (1 - 1 / 2 ^ 113) * (1 + 1 / 2 ^ 59) := by ring
    _ ≤ _ := h6

theorem tenthsRatio_spec (m : Fin infCode) :
    ∃ D : Nat, 0 < D ∧ (tenthsRatio m).2 = D * 2 ^ 32 ∧ (tenthsRatio m).1 ≤ (tenthsRatio m).2 ∧
      |((tenthsRatio m).1 : ℝ) / (tenthsRatio m).2 - (10 : ℝ) ^ (-((valueOf (.fin false m) : ℚ) : ℝ))| ≤ 1 / 2 ^ 34 := by
  unfold tenthsRatio
  by_cases h : m.val < largePower
  · rw [if_pos h]
    dsimp only
    obtain ⟨h1, h2, h3⟩ := pow10Approx_spec m
    have hx : (0 : ℝ) ≤ ((valueOf (.fin false m) : ℚ) : ℝ) := by rw [valueOf_real]; positivity
    generalize pow10Approx m = a at *
    generalize ((valueOf (.fin false m) : ℚ) : ℝ) = x at *
    have ha : (0 : ℝ) < a := by exact_mod_cast lt_of_lt_of_le (by positivity : 0 < 2 ^ 128) h1
    refine ⟨a * 2 ^ 96, by positivity, by rw [mul_assoc, ← pow_add], ?_, ?_⟩
    · calc 2 ^ 256 = 2 ^ 128 * 2 ^ 128 := by rw [← pow_add]
        _ ≤ _ := Nat.mul_le_mul_right _ h1
    · have hq : ((2 ^ 256 : Nat) : ℝ) / ((a * 2 ^ 128 : Nat) : ℝ) = 2 ^ 128 / a := by
        push_cast; norm_num; field_simp; norm_num
      rw [hq, Real.rpow_neg (by norm_num)]
      have hY : (1 : ℝ) ≤ 10 ^ x := Real.one_le_rpow (by norm_num) hx
      generalize (10 : ℝ) ^ x = Y at *
      have hY0 : 0 < Y := by linarith
      have e1 : Y⁻¹ ≤ 2 ^ 128 / a := by
        rw [inv_eq_one_div, div_le_div_iff₀ hY0 ha]; linarith
      have e2 : 2 ^ 128 / a ≤ Y⁻¹ * (1 + 1 / 2 ^ 59) := by
        rw [inv_mul_eq_div, div_le_div_iff₀ ha hY0]; linarith
      have e3 : Y⁻¹ ≤ 1 := inv_le_one_of_one_le₀ hY
      rw [abs_le]
      norm_num at e1 e2 ⊢
      constructor <;> linarith
  · rw [if_neg h]
    dsimp only
    refine ⟨1, by decide, by norm_num, by norm_num, ?_⟩
    have hx : (400 : ℝ) ≤ ((valueOf (.fin false m) : ℚ) : ℝ) := by
      have h400 : valueOf (.fin false ⟨largePower, by decide⟩) = 400 := by
        unfold valueOf significand exponent largePower; norm_num
      have h1 := valueOf_mono (a := ⟨largePower, by decide⟩) (b := m) (by simpa using h)
      rw [h400] at h1
      exact_mod_cast h1
    generalize ((valueOf (.fin false m) : ℚ) : ℝ) = x at *
    have h1 : (10 : ℝ) ^ (-x) ≤ (10 : ℝ) ^ (-(11 : ℝ)) := Real.rpow_le_rpow_of_exponent_le (by norm_num) (by linarith)
    have h2 : (10 : ℝ) ^ (-(11 : ℝ)) = 1 / 10 ^ 11 := by
      rw [Real.rpow_neg (by norm_num), show (11 : ℝ) = ((11 : Nat) : ℝ) by norm_num, Real.rpow_natCast]; norm_num
    have h3 : (0 : ℝ) < (10 : ℝ) ^ (-x) := by positivity
    rw [h2] at h1
    simp only [Nat.cast_zero, zero_div, zero_sub, abs_neg, abs_of_pos h3]
    exact h1.trans (by norm_num)

/-- `pow10F` of a finite value with the sign bit set: from 0 to 1, and within `2^-31` of the power of ten. -/
theorem pow10F_near (m : Fin infCode) :
    (∃ m' : Fin infCode, pow10F (.fin true m) = .fin false m' ∧ m'.val ≤ 0x3FF0000000000000) ∧
    |((valueOf (pow10F (.fin true m)) : ℚ) : ℝ) - (10 : ℝ) ^ ((valueOf (.fin true m) : ℚ) : ℝ)| ≤ 1 / 2 ^ 31 := by
  have hneg : ((valueOf (.fin true m) : ℚ) : ℝ) = -((valueOf (.fin false m) : ℚ) : ℝ) := by
    rw [valueOf_sign]; simp
  rw [hneg]
  by_cases h0 : m.val = 0
  · have h1 : pow10F (.fin true m) = .fin false ⟨0x3FF0000000000000, by decide⟩ := by
      simp only [pow10F]; rw [if_pos h0]; decide
    have h2 : ((valueOf (.fin false m) : ℚ) : ℝ) = 0 := by
      rw [valueOf_real]; unfold significand; simp [h0]
    have h3 : valueOf (.fin false ⟨0x3FF0000000000000, by decide⟩) = 1 := by
      unfold valueOf significand exponent; norm_num
    rw [h1, h2, h3]
    exact ⟨⟨_, rfl, le_refl _⟩, by norm_num⟩
  · obtain ⟨D, hD, hd, hle, herr⟩ := tenthsRatio_spec m
    simp only [pow10F]
    rw [if_neg h0, if_pos trivial]
    generalize Config.pow10Bits (F64.toBits (.fin true m)) = w
    generalize (10 : ℝ) ^ (-((valueOf (.fin false m) : ℚ) : ℝ)) = y at *
    generalize (tenthsRatio m).1 = n at *
    generalize (tenthsRatio m).2 = d at *
    have hd0 : 0 < d := by rw [hd]; positivity
    have hdq : (0 : ℚ) < d := by exact_mod_cast hd0
    have hdiv : d / 2 ^ 32 = D := by rw [hd]; exact Nat.mul_div_cancel _ (by norm_num)
    rw [hdiv]
    have hDq : (D : ℚ) / d = 1 / 2 ^ 32 := by
      have : (D : ℚ) ≠ 0 := by exact_mod_cast hD.ne'
      rw [hd]; push_cast; rw [div_mul_eq_div_div, div_self this]; norm_num
    have hlt : d < d * 2 ^ 200 := lt_mul_of_one_lt_right hd0 (by norm_num)
    have hv : (n / d : ℚ) ≤ 1 := by rw [div_le_one hdq]; exact_mod_cast hle
    obtain ⟨c, hc, hcerr⟩ := freeCode_near (s := false) (n1 := n - D) (n2 := min d (n + D)) w (v := (n / d : ℚ))
      (e := 1 / 2 ^ 32) hd0 (by omega) (by omega)
      (by
        rw [← hDq, ← sub_div, div_le_div_iff_of_pos_right hdq]
        have := Nat.sub_add_cancel (le_max_left n D)
        have : (n : ℚ) ≤ ((n - D : Nat) : ℚ) + D := by exact_mod_cast (by omega : n ≤ n - D + D)
        linarith)
      (by rw [div_le_div_iff_of_pos_right hdq]; exact_mod_cast Nat.sub_le n D)
      (by
        rw [← hDq, ← add_div, div_le_div_iff_of_pos_right hdq]
        exact_mod_cast min_le_right d (n + D))
    have hone : ∀ k : Nat, k ≤ d → quotientCode k d ≤ 0x3FF0000000000000 := fun k hk => quotientCode_le_one hd0 hk
    have hcle : c.val ≤ 0x3FF0000000000000 := by
      obtain ⟨c', hc1, hc2, hc3⟩ := freeCode_spec false (quotientCode (n - D) d) (quotientCode (min d (n + D)) d) w
      have a1 := hone (n - D) (by omega)
      have a2 := hone (min d (n + D)) (by omega)
      have hc4 : c' ≤ 0x3FF0000000000000 := by omega
      rw [hc3, ofCode_lt (lt_of_le_of_lt hc4 (by decide))] at hc
      obtain ⟨-, hc5⟩ := F64.fin.inj hc
      rw [← hc5]; exact hc4
    rw [hc]
    refine ⟨⟨c, rfl, hcle⟩, ?_⟩
    have hval : valueOf (.fin false c) = codeValue c.val := by rw [valueOf_fin]; simp [codeValue]
    rw [hval]
    have h1 : ((|codeValue c.val - n / d| : ℚ) : ℝ) ≤ (((1 / 2 ^ 32 + 1 / 2 ^ 40) : ℚ) : ℝ) := by
      refine Rat.cast_le.2 (hcerr.trans ?_)
      have h3 : (2 : ℚ) ^ (-1074 : Int) ≤ 2 ^ (-53 : Int) := two_zpow_le (by norm_num)
      generalize (2 : ℚ) ^ (-1074 : Int) = A at *
      norm_num at h3 ⊢
      linarith
    push_cast at h1
    have h2 := abs_le.1 h1
    have h3 := abs_le.1 herr
    rw [abs_le]
    norm_num at h2 h3 ⊢
    constructor <;> linarith

end Sys2Proof.Machine
end

