-- ==== Sys2Proof/Laws/Ram.lean ====
section
/-! SUPPORT. The sample RAM (20_memory.md R66): a read after a write, and the canonical form, which every memory
operation keeps. -/

namespace Sys2Proof.Machine.Ram

theorem sorted_cons {a : Nat × F64} {m : Ram} :
    sorted (a :: m) = true ↔ (∀ c ∈ m, a.1 < c.1) ∧ sorted m = true := by
  induction m generalizing a with
  | nil => simp [sorted]
  | cons b rest ih =>
    simp only [sorted, Bool.and_eq_true, decide_eq_true_eq, List.mem_cons, forall_eq_or_imp]
    constructor
    · rintro ⟨hab, hb⟩
      exact ⟨⟨hab, fun c hc => lt_trans hab ((ih.1 hb).1 c hc)⟩, hb⟩
    · rintro ⟨⟨hab, -⟩, hb⟩
      exact ⟨hab, hb⟩

theorem sorted_filter {m : Ram} (p : Nat × F64 → Bool) (h : sorted m = true) : sorted (m.filter p) = true := by
  induction m with
  | nil => rfl
  | cons a rest ih =>
    obtain ⟨ha, hr⟩ := sorted_cons.1 h
    rw [List.filter_cons]
    split
    · exact sorted_cons.2 ⟨fun c hc => ha c (List.mem_filter.1 hc).1, ih hr⟩
    · exact ih hr

/-- A filtered RAM keeps its canonical form. -/
theorem wf_filter {m : Ram} (p : Nat × F64 → Bool) (h : m.wf = true) : Ram.wf (m.filter p) = true := by
  simp only [wf, Bool.and_eq_true, List.all_eq_true] at *
  exact ⟨sorted_filter p h.1, fun c hc => h.2 c (List.mem_filter.1 hc).1⟩

theorem mem_insert {m : Ram} {i : Nat} {v : F64} {c : Nat × F64} (h : c ∈ m.insert i v) : c = (i, v) ∨ c ∈ m := by
  induction m with
  | nil => simpa [insert] using h
  | cons a rest ih =>
    simp only [insert] at h
    split at h
    · simpa using h
    · split at h
      · rcases List.mem_cons.1 h with h | h
        · exact .inl h
        · exact .inr (List.mem_cons_of_mem _ h)
      · rcases List.mem_cons.1 h with h | h
        · exact .inr (h ▸ List.mem_cons_self ..)
        · exact (ih h).imp_right (List.mem_cons_of_mem _)

theorem sorted_insert {m : Ram} (i : Nat) (v : F64) (h : sorted m = true) : sorted (m.insert i v) = true := by
  induction m with
  | nil => rfl
  | cons a rest ih =>
    obtain ⟨ha, hr⟩ := sorted_cons.1 h
    simp only [insert]
    split
    · rename_i hlt
      refine sorted_cons.2 ⟨fun c hc => ?_, h⟩
      rcases List.mem_cons.1 hc with rfl | hc
      · exact hlt
      · exact lt_trans hlt (ha c hc)
    · split
      · rename_i heq
        exact sorted_cons.2 ⟨fun c hc => heq ▸ ha c hc, hr⟩
      · refine sorted_cons.2 ⟨fun c hc => ?_, ih hr⟩
        rcases mem_insert hc with rfl | hc
        · simp only; omega
        · exact ha c hc

/-- What a write leaves listed. -/
theorem mem_write {m : Ram} {i : Nat} {v : F64} {c : Nat × F64} (h : c ∈ m.write i v) : c = (i, v) ∨ c ∈ m := by
  unfold write at h
  split at h
  · exact .inr (List.mem_filter.1 h).1
  · exact mem_insert h

/-- A write keeps the canonical form. -/
theorem wf_write {m : Ram} (i : Nat) (v : F64) (h : m.wf = true) : (m.write i v).wf = true := by
  unfold write
  split
  · exact wf_filter _ h
  · rename_i hv
    simp only [wf, Bool.and_eq_true, List.all_eq_true, bne_iff_ne, ne_eq] at *
    refine ⟨sorted_insert i v h.1, fun c hc => ?_⟩
    rcases mem_insert hc with rfl | hc
    · exact hv
    · exact h.2 c hc

/-- Clearing the low words keeps the canonical form. -/
theorem wf_zeroBelow {m : Ram} (n : Nat) (h : m.wf = true) : (m.zeroBelow n).wf = true := wf_filter _ h

@[simp] theorem wf_nil : Ram.wf [] = true := rfl

@[simp] theorem read_nil (i : Nat) : Ram.read [] i = F64.zero := rfl

theorem read_insert (m : Ram) (i j : Nat) (v : F64) : (m.insert i v).read j = if j = i then v else m.read j := by
  induction m with
  | nil => simp [insert, read]
  | cons a rest ih =>
    simp only [insert]
    split
    · simp only [read]
    · split
      · rename_i heq
        simp only [read, heq]
        by_cases hj : j = a.1 <;> simp [hj]
      · simp only [read, ih]
        by_cases hj : j = a.1
        · subst hj; rw [if_pos rfl, if_pos rfl]; rw [if_neg]; omega
        · simp [hj]

theorem read_filter (m : Ram) (p : Nat → Bool) (j : Nat) :
    Ram.read (m.filter (fun c => p c.1)) j = if p j then m.read j else F64.zero := by
  induction m with
  | nil => simp [read]
  | cons a rest ih =>
    rw [List.filter_cons]
    by_cases hj : j = a.1
    · subst hj
      by_cases hp : p a.1
      · simp [read, hp]
      · simpa [read, hp] using ih
    · by_cases hp : p a.1
      · simp [read, hp, hj, ih]
      · simpa [read, hp, hj] using ih

/-- A word reads what was last written to it, and a write leaves every other word alone (R66). -/
theorem read_write (m : Ram) (i j : Nat) (v : F64) : (m.write i v).read j = if j = i then v else m.read j := by
  unfold write
  split
  · rename_i hv
    rw [erase, read_filter m (fun k => k != i)]
    by_cases h : j = i <;> simp [h, hv]
  · exact read_insert m i j v

/-- Clearing the low words: those read `+0.0`, the others as before. -/
theorem read_zeroBelow (m : Ram) (n j : Nat) : (m.zeroBelow n).read j = if n ≤ j then m.read j else F64.zero := by
  rw [zeroBelow, read_filter m (fun k => decide (n ≤ k))]
  simp

end Sys2Proof.Machine.Ram
end

