-- ==== Sys2Proof/Laws/State.lean ====
section
/-! SUPPORT. One lemma per field and update of the state records, true by rfl, so that no proof unfolds an update. -/

namespace Sys2Proof.Machine

section Machine
variable (s : State) (u : DspUnit) (k off : Nat) (v : Word) (c : ErrCode)

@[simp] theorem State.afterCommand_units : (s.afterCommand u).units = s.units.set s.sel u := rfl
@[simp] theorem State.afterCommand_sel : (s.afterCommand u).sel = s.sel := rfl
@[simp] theorem State.afterCommand_bus : (s.afterCommand u).bus = s.bus := rfl
@[simp] theorem State.afterCommand_readData : (s.afterCommand u).readData = s.readData := rfl
@[simp] theorem State.afterCommand_params : (s.afterCommand u).params = s.params := rfl
@[simp] theorem State.afterCommand_draws : (s.afterCommand u).draws = s.draws + 1 := rfl

@[simp] theorem State.powerOn_units :
    s.powerOn.units = s.units.map (fun u => DspUnit.reset u.body.type u.base) := rfl
@[simp] theorem State.powerOn_sel : s.powerOn.sel = s.sel := rfl
@[simp] theorem State.powerOn_bus : s.powerOn.bus = s.bus := rfl
@[simp] theorem State.powerOn_readData : s.powerOn.readData = s.readData := rfl
@[simp] theorem State.powerOn_params : s.powerOn.params = s.params := rfl
@[simp] theorem State.powerOn_draws : s.powerOn.draws = s.draws := rfl

@[simp] theorem State.doRead_units : (s.doRead k off).units = s.units := by
  unfold State.doRead; split <;> rfl
@[simp] theorem State.doRead_sel : (s.doRead k off).sel = s.sel := by unfold State.doRead; split <;> rfl
@[simp] theorem State.doRead_bus : (s.doRead k off).bus = s.bus := by unfold State.doRead; split <;> rfl
@[simp] theorem State.doRead_params : (s.doRead k off).params = s.params := by unfold State.doRead; split <;> rfl
@[simp] theorem State.doRead_draws : (s.doRead k off).draws = s.draws := by unfold State.doRead; split <;> rfl

@[simp] theorem State.doWrite_sel : (s.doWrite k off v).sel = s.sel := by unfold State.doWrite; split <;> rfl
@[simp] theorem State.doWrite_bus : (s.doWrite k off v).bus = s.bus := by unfold State.doWrite; split <;> rfl
@[simp] theorem State.doWrite_readData : (s.doWrite k off v).readData = s.readData := by
  unfold State.doWrite; split <;> rfl
@[simp] theorem State.doWrite_params : (s.doWrite k off v).params = s.params := by
  unfold State.doWrite; split <;> rfl
@[simp] theorem State.doWrite_draws : (s.doWrite k off v).draws = s.draws := by unfold State.doWrite; split <;> rfl

@[simp] theorem State.rejectCommand_params : (s.rejectCommand k c).params = s.params := by
  unfold State.rejectCommand; split <;> rfl

end Machine

section Units
variable (u : DspUnit) (c : ErrCode) (b : Body) (o : Results) (w : Warnings)

@[simp] theorem DspUnit.reject_base : (u.reject c).base = u.base := rfl
@[simp] theorem DspUnit.reject_body : (u.reject c).body = u.body := rfl
@[simp] theorem DspUnit.reject_regs : (u.reject c).regs = u.regs.recordError c := rfl
@[simp] theorem DspUnit.configFail_base : (u.configFail c).base = u.base := rfl
@[simp] theorem DspUnit.configFail_body : (u.configFail c).body = Body.reset u.body.type := rfl
@[simp] theorem DspUnit.configFail_regs : (u.configFail c).regs = u.regs.recordError c := rfl
@[simp] theorem DspUnit.commit_base : (u.commit b o w).base = u.base := rfl
@[simp] theorem DspUnit.commit_body : (u.commit b o w).body = b := rfl
@[simp] theorem DspUnit.commit_regs : (u.commit b o w).regs = (u.regs.writeResults o).commitWarnings w := rfl

@[simp] theorem DspUnit.raise_base : (u.raise c).base = u.base := by unfold DspUnit.raise; split <;> rfl
@[simp] theorem DspUnit.raise_regs : (u.raise c).regs = u.regs.recordError c := by
  unfold DspUnit.raise; split <;> rfl

@[simp] theorem Body.reset_type (t : UnitType) : (Body.reset t).type = t := by cases t <;> rfl

@[simp] theorem DspUnit.raise_type : (u.raise c).body.type = u.body.type := by
  unfold DspUnit.raise; split <;> simp

end Units

section Registers
variable (r : Regs) (c : ErrCode) (o : Results) (w : Warnings)

@[simp] theorem Regs.recordError_opa : (r.recordError c).opa = r.opa := rfl
@[simp] theorem Regs.recordError_opb : (r.recordError c).opb = r.opb := rfl
@[simp] theorem Regs.recordError_res0 : (r.recordError c).res0 = r.res0 := rfl
@[simp] theorem Regs.recordError_res1 : (r.recordError c).res1 = r.res1 := rfl
@[simp] theorem Regs.recordError_res2 : (r.recordError c).res2 = r.res2 := rfl
@[simp] theorem Regs.recordError_sr : (r.recordError c).sr = r.sr := rfl
@[simp] theorem Regs.recordError_warn : (r.recordError c).warn = r.warn := rfl
@[simp] theorem Regs.recordError_err : (r.recordError c).err = true := rfl
@[simp] theorem Regs.recordError_errcode : (r.recordError c).errcode = c := rfl

@[simp] theorem Regs.commitWarnings_opa : (r.commitWarnings w).opa = r.opa := rfl
@[simp] theorem Regs.commitWarnings_opb : (r.commitWarnings w).opb = r.opb := rfl
@[simp] theorem Regs.commitWarnings_res0 : (r.commitWarnings w).res0 = r.res0 := rfl
@[simp] theorem Regs.commitWarnings_res1 : (r.commitWarnings w).res1 = r.res1 := rfl
@[simp] theorem Regs.commitWarnings_res2 : (r.commitWarnings w).res2 = r.res2 := rfl
@[simp] theorem Regs.commitWarnings_sr : (r.commitWarnings w).sr = r.sr := rfl
@[simp] theorem Regs.commitWarnings_warn : (r.commitWarnings w).warn = r.warn ||| w := rfl
@[simp] theorem Regs.commitWarnings_err : (r.commitWarnings w).err = r.err := rfl
@[simp] theorem Regs.commitWarnings_errcode : (r.commitWarnings w).errcode = r.errcode := rfl

@[simp] theorem Regs.writeResults_opa : (r.writeResults o).opa = r.opa := rfl
@[simp] theorem Regs.writeResults_opb : (r.writeResults o).opb = r.opb := rfl
@[simp] theorem Regs.writeResults_sr : (r.writeResults o).sr = r.sr := rfl
@[simp] theorem Regs.writeResults_warn : (r.writeResults o).warn = r.warn := rfl
@[simp] theorem Regs.writeResults_err : (r.writeResults o).err = r.err := rfl
@[simp] theorem Regs.writeResults_errcode : (r.writeResults o).errcode = r.errcode := rfl

/-- A command without results leaves the registers' results alone. -/
@[simp] theorem Regs.writeResults_none : r.writeResults {} = r := rfl

/-- A command with one result writes RES0 only. -/
@[simp] theorem Regs.writeResults_one (v : F64) : r.writeResults { res0 := some v } = { r with res0 := v.toBits } := rfl

/-- A command without warnings leaves the warning bits alone. -/
@[simp] theorem Regs.commitWarnings_none : r.commitWarnings noWarning = r := by
  simp [Regs.commitWarnings, noWarning]

end Registers

section Lines
variable (l : Line) (x y : F64)

@[simp] theorem Line.push_cap : (l.push x).cap = l.cap := rfl
@[simp] theorem Line.push_w : (l.push x).w = nextIndex l.w l.cap := rfl
@[simp] theorem Line.push_r : (l.push x).r = l.r := rfl
@[simp] theorem Line.push_delay : (l.push x).delay = l.delay := rfl
@[simp] theorem Line.push_last : (l.push x).last = l.last := rfl
@[simp] theorem Line.push_buf : (l.push x).buf = l.buf.write l.w x := rfl
@[simp] theorem Line.pop_cap : (l.pop y).cap = l.cap := rfl
@[simp] theorem Line.pop_w : (l.pop y).w = l.w := rfl
@[simp] theorem Line.pop_r : (l.pop y).r = nextIndex l.r l.cap := rfl
@[simp] theorem Line.pop_delay : (l.pop y).delay = l.delay := rfl
@[simp] theorem Line.pop_last : (l.pop y).last = y := rfl
@[simp] theorem Line.pop_buf : (l.pop y).buf = l.buf := rfl
@[simp] theorem Line.tick_cap : (l.tick x).cap = l.cap := rfl
@[simp] theorem Line.tick_w : (l.tick x).w = nextIndex l.w l.cap := rfl
@[simp] theorem Line.tick_r : (l.tick x).r = nextIndex l.r l.cap := rfl
@[simp] theorem Line.tick_delay : (l.tick x).delay = l.delay := rfl
@[simp] theorem Line.tick_buf : (l.tick x).buf = l.buf.write l.w x := rfl
@[simp] theorem Line.tick_last : (l.tick x).last = (l.buf.write l.w x).read l.r := rfl
@[simp] theorem Line.clear_cap : l.clear.cap = l.cap := rfl
@[simp] theorem Line.clear_w : l.clear.w = l.w := rfl
@[simp] theorem Line.clear_r : l.clear.r = l.r := rfl
@[simp] theorem Line.clear_delay : l.clear.delay = l.delay := rfl
@[simp] theorem Line.clear_last : l.clear.last = F64.zero := rfl
@[simp] theorem Line.clear_buf : l.clear.buf = l.buf.zeroBelow l.cap := rfl

end Lines

end Sys2Proof.Machine
end

