-- ==== Sys2Proof/Laws/Ops.lean ====
section
/-! SUPPORT. What the execution cycle can do (40_common.md R100): one lemma per shared operation, which later proofs
cite instead of unfolding it. -/

namespace Sys2Proof.Machine

/-- `Execute` completes the command's body. -/
theorem DspUnit.execute_done {σ : Type} {fam : Family σ} {c : Command σ} {ν : NanSource} {u : DspUnit} {S S' : σ}
    {o : Results} {w : Warnings} (hv : fam.view u.body = some S) (hr : c.config = true ∨ fam.ready S = true)
    (ha : c.applies S = true) (hb : c.body ν u.regs.operands S = .done S' o w) :
    u.execute fam c ν = u.commit (fam.wrap S') o w := by
  rcases hr with hr | hr <;> simp [DspUnit.execute, hv, hr, ha, hb]

/-- `Execute` raises the body's error. -/
theorem DspUnit.execute_error {σ : Type} {fam : Family σ} {c : Command σ} {ν : NanSource} {u : DspUnit} {S : σ}
    {e : ErrCode} (hv : fam.view u.body = some S) (hr : c.config = true ∨ fam.ready S = true)
    (ha : c.applies S = true) (hb : c.body ν u.regs.operands S = .error e) :
    u.execute fam c ν = u.raise e := by
  rcases hr with hr | hr <;> simp [DspUnit.execute, hv, hr, ha, hb]

/-- Everything `Execute` can do: raise an error of the checks or of the body, or commit what the body completes with,
the command being READY (or a CONFIG) and applying to the variant. -/
theorem DspUnit.execute_cases {σ : Type} (fam : Family σ) (c : Command σ) (ν : NanSource) (u : DspUnit) :
    (∃ e, u.execute fam c ν = u.raise e ∧
      (e = .illegalOpcode ∨ e = .notConfigured ∨ e = .wrongVariant ∨
        ∃ S, fam.view u.body = some S ∧ c.body ν u.regs.operands S = .error e)) ∨
    (∃ S S' o w, fam.view u.body = some S ∧ (c.config = true ∨ fam.ready S = true) ∧ c.applies S = true ∧
      c.body ν u.regs.operands S = .done S' o w ∧ u.execute fam c ν = u.commit (fam.wrap S') o w) := by
  cases hv : fam.view u.body with
  | none => exact .inl ⟨.illegalOpcode, by simp [DspUnit.execute, hv], .inl rfl⟩
  | some S =>
    by_cases hr : c.config = true ∨ fam.ready S = true
    · by_cases ha : c.applies S = true
      · cases hb : c.body ν u.regs.operands S with
        | error e =>
          exact .inl ⟨e, DspUnit.execute_error hv hr ha hb, .inr (.inr (.inr ⟨S, rfl, hb⟩))⟩
        | done S' o w => exact .inr ⟨S, S', o, w, rfl, hr, ha, hb, DspUnit.execute_done hv hr ha hb⟩
      · refine .inl ⟨.wrongVariant, ?_, .inr (.inr (.inl rfl))⟩
        rcases hr with hr | hr <;> simp [DspUnit.execute, hv, hr, ha]
    · refine .inl ⟨.notConfigured, ?_, .inr (.inl rfl)⟩
      simp only [not_or, Bool.not_eq_true] at hr
      simp [DspUnit.execute, hv, hr.1, hr.2]

/-- A command on an addressed unit runs `Execute` on it. -/
theorem runCommand_some {σ : Type} {fam : Family σ} {c : Command σ} {s : State} {u : DspUnit}
    (h : s.selected? = some u) :
    runCommand fam c s = .next (s.afterCommand (u.execute fam c (freeNans s.draws))) := by
  simp [runCommand, h]

/-- A command answers a next state only for an addressed unit. -/
theorem runCommand_next {σ : Type} {fam : Family σ} {c : Command σ} {s t : State} (h : runCommand fam c s = .next t) :
    ∃ u, s.selected? = some u ∧ t = s.afterCommand (u.execute fam c (freeNans s.draws)) := by
  unfold runCommand at h
  split at h
  · cases h
  · rename_i u hu
    exact ⟨u, hu, by injection h with h; exact h.symm⟩

/-- A command that completes. -/
theorem runCommand_done {σ : Type} {fam : Family σ} {c : Command σ} {s : State} {u : DspUnit} {S S' : σ} {o : Results}
    {w : Warnings} (h : s.selected? = some u) (hv : fam.view u.body = some S)
    (hr : c.config = true ∨ fam.ready S = true) (ha : c.applies S = true)
    (hb : c.body (freeNans s.draws) u.regs.operands S = .done S' o w) :
    runCommand fam c s = .next (s.afterCommand (u.commit (fam.wrap S') o w)) := by
  rw [runCommand_some h, DspUnit.execute_done hv hr ha hb]

/-- A command that raises an error of its body. -/
theorem runCommand_error {σ : Type} {fam : Family σ} {c : Command σ} {s : State} {u : DspUnit} {S : σ} {e : ErrCode}
    (h : s.selected? = some u) (hv : fam.view u.body = some S) (hr : c.config = true ∨ fam.ready S = true)
    (ha : c.applies S = true) (hb : c.body (freeNans s.draws) u.regs.operands S = .error e) :
    runCommand fam c s = .next (s.afterCommand (u.raise e)) := by
  rw [runCommand_some h, DspUnit.execute_error hv hr ha hb]

/-- A command that completes without results and without warnings. -/
theorem DspUnit.commit_quiet (u : DspUnit) (b : Body) : u.commit b {} noWarning = { u with body := b } := by
  simp [DspUnit.commit]

/-- A command that completes with one result and without warnings. -/
theorem DspUnit.commit_one (u : DspUnit) (b : Body) (v : F64) :
    u.commit b { res0 := some v } noWarning = { u with body := b, regs := { u.regs with res0 := v.toBits } } := by
  simp [DspUnit.commit]

/-- A command that completes without results. -/
theorem DspUnit.commit_warns (u : DspUnit) (b : Body) (w : Warnings) :
    u.commit b {} w = { u with body := b, regs := { u.regs with warn := u.regs.warn ||| w } } := rfl

/-- NOP answers the state it is given. -/
theorem execNop_next {s t : State} (h : execNop s = .next t) : t = s ∧ ∃ u, s.selected? = some u := by
  unfold execNop at h
  split at h
  · cases h
  · rename_i u hu
    exact ⟨by injection h with h; exact h.symm, u, hu⟩

@[simp] theorem fdlFamily_view (S : FdlState) : fdlFamily.view (.fdl S) = some S := rfl
@[simp] theorem fdlFamily_wrap (S : FdlState) : fdlFamily.wrap S = .fdl S := rfl
@[simp] theorem fdlFamily_ready (S : FdlState) : fdlFamily.ready S = S.cfg := rfl
@[simp] theorem iirFamily_view (S : IirState) : iirFamily.view (.iir S) = some S := rfl
@[simp] theorem iirFamily_wrap (S : IirState) : iirFamily.wrap S = .iir S := rfl
@[simp] theorem iirFamily_ready (S : IirState) : iirFamily.ready S = S.cfg := rfl
@[simp] theorem revFamily_view (S : RevState) : revFamily.view (.rev S) = some S := rfl
@[simp] theorem revFamily_wrap (S : RevState) : revFamily.wrap S = .rev S := rfl
@[simp] theorem revFamily_ready (S : RevState) : revFamily.ready S = S.cfg := rfl

theorem fdlFamily_view_eq {b : Body} {S : FdlState} (h : fdlFamily.view b = some S) : b = .fdl S := by
  cases b <;> simp_all [fdlFamily]

theorem iirFamily_view_eq {b : Body} {S : IirState} (h : iirFamily.view b = some S) : b = .iir S := by
  cases b <;> simp_all [iirFamily]

theorem revFamily_view_eq {b : Body} {S : RevState} (h : revFamily.view b = some S) : b = .rev S := by
  cases b <;> simp_all [revFamily]

/-! ### Indices -/

theorem nextIndex_lt {i cap : Nat} (h : 0 < cap) : nextIndex i cap < cap := Nat.mod_lt _ h

theorem modCap_lt {a : Int} {cap : Nat} (h : 0 < cap) : modCap a cap < cap := by
  have h1 := Int.emod_lt_of_pos a (show (0 : Int) < cap by omega)
  have h2 := Int.emod_nonneg a (show (cap : Int) ≠ 0 by omega)
  unfold modCap; omega

theorem modCap_cast {a : Int} {cap : Nat} (h : 0 < cap) : ((modCap a cap : Nat) : Int) = a % cap :=
  Int.toNat_of_nonneg (Int.emod_nonneg a (by omega))

/-- Advancing both indices keeps their difference (R136). -/
theorem nextIndex_modCap {w cap : Nat} {d : Int} (h : 0 < cap) :
    nextIndex (modCap ((w : Int) - d) cap) cap = modCap ((nextIndex w cap : Int) - d) cap := by
  have hc : (0 : Int) < cap := by omega
  zify
  rw [modCap_cast h]
  unfold nextIndex
  push_cast
  rw [modCap_cast h, Int.emod_add_emod, Int.emod_sub_emod]
  ring_nf

end Sys2Proof.Machine
end

