-- ==== Sys2Proof/Laws/PerInstr.lean ====
section
/-! SUPPORT. Per instruction: its command word holds its opcode and its SUB, reserved bits 0, and is well formed
(30_encoding.md R80, R82). -/

namespace Sys2Proof.Laws.Encoding

/-- The three fields of the command word of `i`, and that they are well formed. -/
def Statement (i : Instr) : Prop :=
  splitCommand (encode i) = ⟨opValue i.opcode, subValue i, 0⟩ ∧
  (splitCommand (encode i)).wellFormed i.opcode = true

theorem nop : Statement .nop := ⟨by decide, by decide⟩
theorem fdlConfigFixed : Statement .fdlConfigFixed := ⟨by decide, by decide⟩
theorem fdlConfigAllpass : Statement .fdlConfigAllpass := ⟨by decide, by decide⟩
theorem fdlConfigLinear : Statement .fdlConfigLinear := ⟨by decide, by decide⟩
theorem fdlSetDelay : Statement .fdlSetDelay := ⟨by decide, by decide⟩
theorem fdlClear : Statement .fdlClear := ⟨by decide, by decide⟩
theorem fdlTick : Statement .fdlTick := ⟨by decide, by decide⟩
theorem fdlNextOut : Statement .fdlNextOut := ⟨by decide, by decide⟩
theorem fdlContentsAt : Statement .fdlContentsAt := ⟨by decide, by decide⟩
theorem fdlEnergy : Statement .fdlEnergy := ⟨by decide, by decide⟩
theorem iirConfigLpf : Statement .iirConfigLpf := ⟨by decide, by decide⟩
theorem iirConfigHpf : Statement .iirConfigHpf := ⟨by decide, by decide⟩
theorem iirConfigBpf : Statement .iirConfigBpf := ⟨by decide, by decide⟩
theorem iirConfigBrf : Statement .iirConfigBrf := ⟨by decide, by decide⟩
theorem iirConfigRlpf : Statement .iirConfigRlpf := ⟨by decide, by decide⟩
theorem iirConfigRhpf : Statement .iirConfigRhpf := ⟨by decide, by decide⟩
theorem iirConfigResonz : Statement .iirConfigResonz := ⟨by decide, by decide⟩
theorem iirConfigBiquad : Statement .iirConfigBiquad := ⟨by decide, by decide⟩
theorem iirSetFreq : Statement .iirSetFreq := ⟨by decide, by decide⟩
theorem iirSetQ : Statement .iirSetQ := ⟨by decide, by decide⟩
theorem iirSetResonance : Statement .iirSetResonance := ⟨by decide, by decide⟩
theorem iirSetResonanceNorm : Statement .iirSetResonanceNorm := ⟨by decide, by decide⟩
theorem iirSetNotch : Statement .iirSetNotch := ⟨by decide, by decide⟩
theorem iirSetGain : Statement .iirSetGain := ⟨by decide, by decide⟩
theorem iirSample : Statement .iirSample := ⟨by decide, by decide⟩
theorem iirClear : Statement .iirClear := ⟨by decide, by decide⟩
theorem revConfigA : Statement .revConfigA := ⟨by decide, by decide⟩
theorem revConfigB : Statement .revConfigB := ⟨by decide, by decide⟩
theorem revConfigC : Statement .revConfigC := ⟨by decide, by decide⟩
theorem revSetMix : Statement .revSetMix := ⟨by decide, by decide⟩
theorem revTick : Statement .revTick := ⟨by decide, by decide⟩
theorem revClear : Statement .revClear := ⟨by decide, by decide⟩

end Sys2Proof.Laws.Encoding
end

