-- ==== Sys2Proof/Laws/Word.lean ====
section
/-! SUPPORT. A number and its bit pattern determine each other (30_encoding.md R81; 40_common.md R106: a moved value
keeps its bits). -/

namespace Sys2Proof.F64

theorem code_lt (x : F64) : x.code < 9223372036854775808 := by
  cases x with
  | nan b => have := b.payload.isLt; simp only [code, infCode, nanCount] at *; omega
  | inf s => simp only [code, infCode]; omega
  | fin s m => have := m.isLt; simp only [code, infCode] at *; omega

theorem ofCode_code (x : F64) : ofCode x.signBit x.code = x := by
  cases x with
  | nan b =>
    obtain ⟨s, p, hp⟩ := b
    have h1 : ¬ (infCode + 1 + p < infCode) := by omega
    have h2 : ¬ (infCode + 1 + p = infCode) := by omega
    have h3 : infCode + 1 + p - infCode - 1 = p := by omega
    simp only [code, signBit, ofCode, h1, h2, h3, dif_neg, if_neg, not_false_eq_true, Nat.mod_eq_of_lt hp]
  | inf s => simp [code, signBit, ofCode]
  | fin s m => simp [code, signBit, ofCode, m.isLt]

theorem toBits_eq (x : F64) : x.toBits = pattern x.signBit x.code := by cases x <;> rfl

theorem toBits_toNat (x : F64) : x.toBits.toNat = x.signBit.toNat * 9223372036854775808 + x.code := by
  have := x.code_lt
  have : x.signBit.toNat ≤ 1 := by cases x.signBit <;> decide
  rw [toBits_eq, pattern, BitVec.toNat_ofNat, Nat.mod_eq_of_lt (by omega)]

/-- Reading back a stored number gives the number. -/
@[simp] theorem ofBits_toBits (x : F64) : ofBits x.toBits = x := by
  have hc := x.code_lt
  rw [ofBits, toBits_toNat]
  have h : (x.signBit.toNat * 9223372036854775808 + x.code) % 9223372036854775808 = x.code := by omega
  rw [h]
  have hs : decide (9223372036854775808 ≤ x.signBit.toNat * 9223372036854775808 + x.code) = x.signBit := by
    cases x.signBit <;> simp; omega
  rw [hs, ofCode_code]

theorem code_ofCode (s : Bool) {m : Nat} (h : m < 9223372036854775808) : (ofCode s m).code = m := by
  unfold ofCode
  split
  · rfl
  · split
    · subst m; rfl
    · simp only [code]
      rw [Nat.mod_eq_of_lt (by simp only [infCode, nanCount] at *; omega)]
      simp only [infCode] at *; omega

theorem signBit_ofCode (s : Bool) (m : Nat) : (ofCode s m).signBit = s := by
  unfold ofCode
  split
  · rfl
  · split <;> rfl

/-- Every bit pattern is the pattern of its number. -/
@[simp] theorem toBits_ofBits (w : Word) : (ofBits w).toBits = w := by
  apply BitVec.eq_of_toNat_eq
  have hw := w.isLt
  rw [toBits_toNat, ofBits, signBit_ofCode, code_ofCode _ (Nat.mod_lt _ (by decide))]
  by_cases h : 9223372036854775808 ≤ w.toNat
  · rw [decide_eq_true h]; simp only [Bool.toNat_true]; omega
  · rw [decide_eq_false h]; simp only [Bool.toNat_false]; omega

theorem toBits_injective {x y : F64} (h : x.toBits = y.toBits) : x = y := by
  rw [← ofBits_toBits x, h, ofBits_toBits]

end Sys2Proof.F64
end

