-- ==== Sys2Proof/Tests/Slice0.lean ====
section
/-! SUPPORT. Tests. Expected values come from the spec: V-… and S… are entries of 95_test_vectors.md, "by hand" is a hand
calculation from the cited rule at operands where no libm value is needed. -/

namespace Sys2Proof.Tests
open Sys2Proof.Machine

/- Each kernel evaluation waits for the theorems before it; elaborated in parallel, the waiting threads add up. -/
set_option Elab.async false

/-! ### Ill-formed terms (WellFormed.lean) -/

theorem test_illformed_instr : Instr.legalIn .fdlTick .iir = false ∧ Instr.legalIn .revTick .fdl = false := by decide
theorem test_illformed_command_rsv : RawCommand.wellFormed ⟨0x01, 0, 1⟩ .fdlConfig = false := by decide
theorem test_illformed_command_sub :
    RawCommand.wellFormed ⟨0x01, 3, 0⟩ .fdlConfig = false ∧ RawCommand.wellFormed ⟨0x11, 8, 0⟩ .iirConfig = false ∧
    RawCommand.wellFormed ⟨0x14, 2, 0⟩ .iirSetResonance = false ∧ RawCommand.wellFormed ⟨0x04, 1, 0⟩ .fdlTick = false := by
  decide
theorem test_illformed_event :
    Event.wellFormed (.read 0x10 4) = false ∧ Event.wellFormed (.read 0x14 8) = false ∧
    Event.wellFormed (.write 0x10 [1, 2, 3, 4]) = false ∧
    Event.wellFormed (.write 0x11 [1, 2, 3, 4, 5, 6, 7, 8]) = false := by decide
theorem test_illformed_reg :
    Reg.wellFormed (.coef 5) = false ∧ Reg.wellFormed (.len 16) = false ∧ Reg.wellFormed (.cgain 6) = false := by decide
theorem test_illformed_line :
    CommandLine.wellFormed ⟨0x100, .fdlTick, none, none⟩ .fdl = false ∧
    CommandLine.wellFormed ⟨0x200, .fdlTick, none, none⟩ .iir = false := by decide
theorem test_illformed_instances :
    wellFormedInstances [(.fdl, 0x100)] = false ∧ wellFormedInstances [(.fdl, 0x200), (.iir, 0x200)] = false := by decide
theorem test_reset_instances_wellformed : wellFormedInstances resetInstances = true := by decide

/-! ### Encodings: every constructor's word, from R83 -/

theorem test_decode_fdl :
    decode .fdl 0x0000000000000001#64 = .ok .fdlConfigFixed ∧
    decode .fdl 0x0000000000000101#64 = .ok .fdlConfigAllpass ∧
    decode .fdl 0x0000000000000201#64 = .ok .fdlConfigLinear ∧
    decode .fdl 0x0000000000000002#64 = .ok .fdlSetDelay ∧
    decode .fdl 0x0000000000000003#64 = .ok .fdlClear ∧
    decode .fdl 0x0000000000000004#64 = .ok .fdlTick ∧
    decode .fdl 0x0000000000000005#64 = .ok .fdlNextOut ∧
    decode .fdl 0x0000000000000006#64 = .ok .fdlContentsAt ∧
    decode .fdl 0x0000000000000007#64 = .ok .fdlEnergy ∧
    decode .fdl 0x0000000000000000#64 = .ok .nop := by decide

theorem test_encode_fdl :
    encode .fdlConfigFixed = 0x0000000000000001#64 ∧
    encode .fdlConfigAllpass = 0x0000000000000101#64 ∧
    encode .fdlConfigLinear = 0x0000000000000201#64 ∧
    encode .fdlSetDelay = 0x0000000000000002#64 ∧
    encode .fdlClear = 0x0000000000000003#64 ∧
    encode .fdlTick = 0x0000000000000004#64 ∧
    encode .fdlNextOut = 0x0000000000000005#64 ∧
    encode .fdlContentsAt = 0x0000000000000006#64 ∧
    encode .fdlEnergy = 0x0000000000000007#64 ∧
    encode .nop = 0x0000000000000000#64 := by decide

theorem test_decode_iir :
    decode .iir 0x0000000000000011#64 = .ok .iirConfigLpf ∧
    decode .iir 0x0000000000000111#64 = .ok .iirConfigHpf ∧
    decode .iir 0x0000000000000211#64 = .ok .iirConfigBpf ∧
    decode .iir 0x0000000000000311#64 = .ok .iirConfigBrf ∧
    decode .iir 0x0000000000000411#64 = .ok .iirConfigRlpf ∧
    decode .iir 0x0000000000000511#64 = .ok .iirConfigRhpf ∧
    decode .iir 0x0000000000000611#64 = .ok .iirConfigResonz ∧
    decode .iir 0x0000000000000711#64 = .ok .iirConfigBiquad ∧
    decode .iir 0x0000000000000012#64 = .ok .iirSetFreq ∧
    decode .iir 0x0000000000000013#64 = .ok .iirSetQ ∧
    decode .iir 0x0000000000000014#64 = .ok .iirSetResonance ∧
    decode .iir 0x0000000000000114#64 = .ok .iirSetResonanceNorm ∧
    decode .iir 0x0000000000000015#64 = .ok .iirSetNotch ∧
    decode .iir 0x0000000000000016#64 = .ok .iirSetGain ∧
    decode .iir 0x0000000000000017#64 = .ok .iirSample ∧
    decode .iir 0x0000000000000018#64 = .ok .iirClear ∧
    decode .iir 0x0000000000000000#64 = .ok .nop := by decide

theorem test_encode_iir :
    encode .iirConfigLpf = 0x0000000000000011#64 ∧
    encode .iirConfigHpf = 0x0000000000000111#64 ∧
    encode .iirConfigBpf = 0x0000000000000211#64 ∧
    encode .iirConfigBrf = 0x0000000000000311#64 ∧
    encode .iirConfigRlpf = 0x0000000000000411#64 ∧
    encode .iirConfigRhpf = 0x0000000000000511#64 ∧
    encode .iirConfigResonz = 0x0000000000000611#64 ∧
    encode .iirConfigBiquad = 0x0000000000000711#64 ∧
    encode .iirSetFreq = 0x0000000000000012#64 ∧
    encode .iirSetQ = 0x0000000000000013#64 ∧
    encode .iirSetResonance = 0x0000000000000014#64 ∧
    encode .iirSetResonanceNorm = 0x0000000000000114#64 ∧
    encode .iirSetNotch = 0x0000000000000015#64 ∧
    encode .iirSetGain = 0x0000000000000016#64 ∧
    encode .iirSample = 0x0000000000000017#64 ∧
    encode .iirClear = 0x0000000000000018#64 ∧
    encode .nop = 0x0000000000000000#64 := by decide

theorem test_decode_rev :
    decode .rev 0x0000000000000021#64 = .ok .revConfigA ∧
    decode .rev 0x0000000000000121#64 = .ok .revConfigB ∧
    decode .rev 0x0000000000000221#64 = .ok .revConfigC ∧
    decode .rev 0x0000000000000022#64 = .ok .revSetMix ∧
    decode .rev 0x0000000000000023#64 = .ok .revTick ∧
    decode .rev 0x0000000000000024#64 = .ok .revClear ∧
    decode .rev 0x0000000000000000#64 = .ok .nop := by decide

theorem test_encode_rev :
    encode .revConfigA = 0x0000000000000021#64 ∧
    encode .revConfigB = 0x0000000000000121#64 ∧
    encode .revConfigC = 0x0000000000000221#64 ∧
    encode .revSetMix = 0x0000000000000022#64 ∧
    encode .revTick = 0x0000000000000023#64 ∧
    encode .revClear = 0x0000000000000024#64 ∧
    encode .nop = 0x0000000000000000#64 := by decide

/-- V-ENC-3, V-ENC-4, V-ENC-5, V-ENC-6, V-ENC-7, V-ENC-8, V-ENC-10, V-ENC-15. -/
theorem test_decode_errors :
    decode .fdl 0x0000000000000011#64 = .error .illegalOpcode ∧
    decode .fdl 0x00000000000000F0#64 = .error .illegalOpcode ∧
    decode .fdl 0x0000100000000301#64 = .error .reservedBits ∧
    decode .fdl 0x0000000000000301#64 = .error .badVariant ∧
    decode .fdl 0x0000000000000104#64 = .error .reservedBits ∧
    decode .iir 0x0000000000000214#64 = .error .reservedBits ∧
    decode .iir 0x0000000000000811#64 = .error .badVariant ∧
    decode .rev 0x0000000000000004#64 = .error .illegalOpcode := by decide

theorem test_table_word :
    decodeTableWord 64 0x221 = some .revConfigC ∧ decodeTableWord 64 0x321 = none ∧ decodeTableWord 12 0x114 =
      some .iirSetResonanceNorm := by decide

/-! ### Small states -/

/-- A machine with one unit at address 0. -/
def machine (u : DspUnit) : State :=
  { units := [u], sel := 0, bus := [], readData := [], params := { fdlRamWords := 4096, revRamWords := 22982 },
    draws := 0 }

/-- A unit with operands `a` and `b` and reset values in its other registers. -/
def unit (b : Body) (opa opb : Word) : DspUnit := { base := 0, regs := { Regs.reset with opa := opa, opb := opb }, body := b }

/-- The unit's registers at some offsets after one command. -/
def reads (i : Instr) (u : DspUnit) (offs : List Nat) : Option (List Word) :=
  match exec i (machine u) with
  | .next t => t.units.head?.map (fun u => offs.map u.readReg)
  | _ => none

/-- A value from its bits. -/
abbrev bits (w : Word) : F64 := F64.ofBits w

/-- FDL(FIXED, 5, 10) with pointers and buffer of choice. -/
def fixedLine (w r : Nat) (buf : Ram) : FdlState :=
  { cfg := true, variant := .fixed,
    line := { cap := 11, w := w, r := r, delay := bits 0x4014000000000000#64, last := F64.zero, buf := buf },
    alpha := F64.zero, omalpha := Config.one, coeff := F64.zero, apin := F64.zero, cvalid := false, cval := F64.zero }

/-- FDL(ALLPASS, 1.5, 10) with pointers, buffer and cache of choice. -/
def allpassLine (w r : Nat) (buf : Ram) (cvalid : Bool) : FdlState :=
  { cfg := true, variant := .allpass,
    line := { cap := 11, w := w, r := r, delay := bits 0x3FF8000000000000#64, last := F64.zero, buf := buf },
    alpha := Config.half, omalpha := Config.one, coeff := bits 0x3FD5555555555555#64, apin := F64.zero,
    cvalid := cvalid, cval := F64.zero }

/-- FDL(LINEAR, 2.25, 10) with pointers and buffer of choice. -/
def linearLine (w r : Nat) (buf : Ram) : FdlState :=
  { cfg := true, variant := .linear,
    line := { cap := 11, w := w, r := r, delay := bits 0x4002000000000000#64, last := F64.zero, buf := buf },
    alpha := bits 0x3FE8000000000000#64, omalpha := Config.quarter, coeff := F64.zero, apin := F64.zero, cvalid := false,
    cval := F64.zero }

/-- The buffer after ticks 1.0, 2.0, 3.0, 4.0. -/
def fourWords : Ram := [(0, Config.one), (1, Config.two), (2, bits 0x4008000000000000#64), (3, bits 0x4010000000000000#64)]

/-- A filter of a variant with coefficients and history of choice, frequency 0 and Q 2. -/
def filter (v : IirVariant) (c : Coeffs) (y1 y2 : F64) : IirState :=
  { cfg := true, variant := v, freq := F64.zero, q := Config.two, gain := Config.one, y1 := y1, y2 := y2, c := c }

/-- HPF at frequency 0 (V-IIR-18). -/
def hpfZero : IirState := filter .hpf ⟨Config.one, Config.two, bits 0xBFF0000000000000#64, F64.zero, F64.zero⟩ F64.zero F64.zero

/-- BIQUAD after configuration. -/
def biquad : IirState := filter .biquad passThrough F64.zero F64.zero

/-- A fresh reverberator with gains of choice. -/
def reverb (t : RevTopology) (lens : List Nat) (cg : List F64) (mix : F64) : RevState :=
  { cfg := true, topo := t, t60 := Config.one, srcfg := Config.ref44100, mix := mix, len := lens, cg := cg, lp := F64.zero,
    lastL := F64.zero, lastR := F64.zero, lines := lens.map freshLine }

/-- Topology A at 44 100 Hz with T60 1.0, gains of V-REV-1. -/
def reverbA (mix : F64) : RevState :=
  reverb .a Config.nominalA [bits 0x3FE839A052782C1D#64, bits 0x3FE7F5FFAFEA7766#64, bits 0x3FE76B4F99E19384#64, bits 0x3FE6E59845725CE6#64] mix

/-! ### Commands, one step each -/

/-- V-ENC-1: NOP on an UNCONFIGURED unit. -/
theorem test_nop : exec .nop (machine (unit (.fdl FdlState.reset) 7 8)) = .next (machine (unit (.fdl FdlState.reset) 7 8)) :=
  rfl

/-- V-FDL-1. -/
theorem test_fdl_config_fixed :
    reads .fdlConfigFixed (unit (.fdl FdlState.reset) 0x0000000000000005#64 0x000000000000000A#64) [0x058, 0x068, 0x070, 0x050, 0x038, 0x048] =
      some [0x000000000000000B#64, 0x0000000000000000#64, 0x0000000000000006#64, 0x4014000000000000#64, 0x0000000000000001#64, 0x0000000000000000#64] := by
  decide +kernel

/-- V-FDL-27, after V-FDL-1: the line does not fit, the unit is UNCONFIGURED. -/
theorem test_fdl_config_ram :
    reads .fdlConfigFixed (unit (.fdl (fixedLine 0 6 [])) 0x0000000000000000#64 0x0000000000001000#64) [0x038, 0x058, 0x050] =
      some [0x0000000011010000#64, 0x0000000000000000#64, 0x0000000000000000#64] := by
  decide +kernel

/-- V-FDL-8. -/
theorem test_fdl_config_allpass :
    reads .fdlConfigAllpass (unit (.fdl FdlState.reset) 0x3FF8000000000000#64 0x000000000000000A#64) [0x070, 0x078, 0x088, 0x050, 0x038, 0x048] =
      some [0x000000000000000A#64, 0x3FE0000000000000#64, 0x3FD5555555555555#64, 0x3FF8000000000000#64, 0x0000000000000001#64, 0x0000000000000001#64] := by
  decide +kernel

/-- V-FDL-10. -/
theorem test_fdl_config_allpass_low :
    reads .fdlConfigAllpass (unit (.fdl FdlState.reset) 0x3FD3333333333333#64 0x000000000000000A#64) [0x070, 0x078, 0x088, 0x050, 0x038] =
      some [0x0000000000000000#64, 0x3FE00000000DBE70#64, 0x3FD55555553CE655#64, 0x3FE0000000000000#64, 0x0000000000000201#64] := by
  decide +kernel

/-- V-FDL-16. -/
theorem test_fdl_config_linear :
    reads .fdlConfigLinear (unit (.fdl FdlState.reset) 0x4002000000000000#64 0x000000000000000A#64) [0x070, 0x078, 0x080, 0x038, 0x048] =
      some [0x0000000000000008#64, 0x3FE8000000000000#64, 0x3FD0000000000000#64, 0x0000000000000001#64, 0x0000000000000002#64] := by
  decide +kernel

/-- V-FDL-25. -/
theorem test_fdl_config_nan :
    reads .fdlConfigLinear (unit (.fdl FdlState.reset) 0x7FF8000000000000#64 0x000000000000000A#64) [0x038, 0x048] =
      some [0x0000000012010000#64, 0x0000000000000000#64] := by
  decide +kernel

/-- V-FDL-14; V-FDL-5. -/
theorem test_fdl_set_delay :
    reads .fdlSetDelay (unit (.fdl (allpassLine 0 10 [] false)) 0x400599999999999A#64 0x0000000000000000#64) [0x070, 0x078, 0x088] =
      some [0x0000000000000009#64, 0x3FE6666666666660#64, 0x3FC69696969696A8#64] ∧
    reads .fdlSetDelay (unit (.fdl (fixedLine 0 6 [])) 0xFFFFFFFFFFFFFFFD#64 0x0000000000000000#64) [0x050, 0x070, 0x038] =
      some [0x0000000000000000#64, 0x0000000000000000#64, 0x0000000000000201#64] := by
  decide +kernel

/-- V-FDL-7, FDL_CLEAR: pointers kept. -/
theorem test_fdl_clear :
    reads .fdlClear (unit (.fdl { fixedLine 4 10 fourWords with cvalid := true, apin := Config.one }) 0x0000000000000000#64 0x0000000000000000#64) [0x068, 0x070, 0x060, 0x090, 0x098] =
      some [0x0000000000000004#64, 0x000000000000000A#64, 0x0000000000000000#64, 0x0000000000000000#64, 0x0000000000000000#64] := by
  decide +kernel

/-- V-FDL-3: write before read. -/
theorem test_fdl_tick_fixed :
    reads .fdlTick (unit (.fdl (fixedLine 0 0 [])) 0x401C000000000000#64 0x0000000000000000#64) [0x020, 0x068, 0x070] =
      some [0x401C000000000000#64, 0x0000000000000001#64, 0x0000000000000001#64] := by
  decide +kernel

/-- V-FDL-29: a tick with a valid cache at read offset 0. -/
theorem test_fdl_tick_stale :
    reads .fdlTick (unit (.fdl (allpassLine 0 0 [] true)) 0x3FF0000000000000#64 0x0000000000000000#64) [0x020, 0x098, 0x090] =
      some [0x0000000000000000#64, 0x0000000000000000#64, 0x3FF0000000000000#64] := by
  decide +kernel

/-- V-FDL-28: FDL_NEXT_OUT after one tick of 1.0. -/
theorem test_fdl_next_out :
    reads .fdlNextOut (unit (.fdl (allpassLine 1 0 [(0, Config.one)] false)) 0x0000000000000000#64 0x0000000000000000#64) [0x020, 0x098, 0x0A0] =
      some [0x3FD5555555555555#64, 0x0000000000000001#64, 0x3FD5555555555555#64] := by
  decide +kernel

/-- V-FDL-6, tap 2; V-FDL-21, tap 3 above the delay 2.25. -/
theorem test_fdl_contents_at :
    reads .fdlContentsAt (unit (.fdl (fixedLine 4 10 fourWords)) 0x0000000000000002#64 0x0000000000000000#64) [0x020, 0x038] =
      some [0x4008000000000000#64, 0x0000000000000001#64] ∧
    reads .fdlContentsAt (unit (.fdl (linearLine 3 0 [(0, Config.one), (1, Config.two), (2, bits 0x4008000000000000#64)])) 0x0000000000000003#64 0x0000000000000000#64) [0x020, 0x038] =
      some [0x4000000000000000#64, 0x0000000000000401#64] := by
  decide +kernel

/-- V-FDL-6: energy across the end of the buffer. -/
theorem test_fdl_energy :
    reads .fdlEnergy (unit (.fdl (fixedLine 4 10 fourWords)) 0x0000000000000000#64 0x0000000000000000#64) [0x020] =
      some [0x403E000000000000#64] := by
  decide +kernel

/-- V-IIR-18. -/
theorem test_iir_config_hpf :
    reads .iirConfigHpf (unit (.iir IirState.reset) 0x0000000000000000#64 0x4000000000000000#64) [0x078, 0x080, 0x088, 0x038, 0x048] =
      some [0x3FF0000000000000#64, 0x4000000000000000#64, 0xBFF0000000000000#64, 0x0000000000000001#64, 0x0000000000000001#64] := by
  decide +kernel

/-- V-IIR-19. -/
theorem test_iir_config_lpf :
    reads .iirConfigLpf (unit (.iir IirState.reset) 0x0000000000000000#64 0x4000000000000000#64) [0x038, 0x048] =
      some [0x0000000015010000#64, 0x0000000000000000#64] := by
  decide +kernel

/-- V-IIR-21. -/
theorem test_iir_config_bpf :
    reads .iirConfigBpf (unit (.iir IirState.reset) 0x408F400000000000#64 0x0000000000000000#64) [0x038] =
      some [0x0000000015010000#64] := by
  decide +kernel

/-- R176 at frequency 0, by hand. -/
theorem test_iir_config_brf :
    reads .iirConfigBrf (unit (.iir IirState.reset) 0x0000000000000000#64 0x4000000000000000#64) [0x078, 0x080, 0x088, 0x038, 0x048] =
      some [0x3FF0000000000000#64, 0xC000000000000000#64, 0x3FF0000000000000#64, 0x0000000000000001#64, 0x0000000000000003#64] := by
  decide +kernel

/-- R177 at frequency 0, by hand. -/
theorem test_iir_config_rlpf :
    reads .iirConfigRlpf (unit (.iir IirState.reset) 0x0000000000000000#64 0x4000000000000000#64) [0x078, 0x080, 0x088, 0x038, 0x048] =
      some [0x0000000000000000#64, 0x4000000000000000#64, 0xBFF0000000000000#64, 0x0000000000000001#64, 0x0000000000000004#64] := by
  decide +kernel

/-- R178 at frequency 0, by hand. -/
theorem test_iir_config_rhpf :
    reads .iirConfigRhpf (unit (.iir IirState.reset) 0x0000000000000000#64 0x4000000000000000#64) [0x078, 0x080, 0x088, 0x038, 0x048] =
      some [0x3FF0000000000000#64, 0x4000000000000000#64, 0xBFF0000000000000#64, 0x0000000000000001#64, 0x0000000000000005#64] := by
  decide +kernel

/-- R179 at frequency 0, by hand. -/
theorem test_iir_config_resonz :
    reads .iirConfigResonz (unit (.iir IirState.reset) 0x0000000000000000#64 0x4000000000000000#64) [0x078, 0x080, 0x088, 0x038, 0x048] =
      some [0x0000000000000000#64, 0x4000000000000000#64, 0xBFF0000000000000#64, 0x0000000000000001#64, 0x0000000000000006#64] := by
  decide +kernel

/-- R180, operands unchecked. -/
theorem test_iir_config_biquad :
    reads .iirConfigBiquad (unit (.iir IirState.reset) 0x7FF8000000000000#64 0x4000000000000000#64) [0x050, 0x078, 0x080, 0x038, 0x048] =
      some [0x7FF8000000000000#64, 0x3FF0000000000000#64, 0x0000000000000000#64, 0x0000000000000001#64, 0x0000000000000007#64] := by
  decide +kernel

/-- V-IIR-22, on the filter `hpfZero` made an LPF: rejected, coefficients kept. -/
theorem test_iir_set_freq :
    reads .iirSetFreq (unit (.iir { hpfZero with variant := .lpf }) 0x0000000000000000#64 0x0000000000000000#64) [0x038, 0x078] =
      some [0x0000000022010001#64, 0x3FF0000000000000#64] := by
  decide +kernel

/-- As V-IIR-23, on HPF. -/
theorem test_iir_set_q :
    reads .iirSetQ (unit (.iir hpfZero) 0x4014000000000000#64 0x0000000000000000#64) [0x058, 0x078, 0x080, 0x088, 0x038] =
      some [0x4014000000000000#64, 0x3FF0000000000000#64, 0x4000000000000000#64, 0xBFF0000000000000#64, 0x0000000000000001#64] := by
  decide +kernel

/-- As V-IIR-16, at frequency 0 where `cosF` is 1. -/
theorem test_iir_set_resonance :
    reads .iirSetResonance (unit (.iir biquad) 0x0000000000000000#64 0xBFE0000000000000#64) [0x078, 0x090, 0x098, 0x038] =
      some [0x3FF0000000000000#64, 0x8000000000000000#64, 0x0000000000000000#64, 0x0000000000001001#64] := by
  decide +kernel

/-- R195 at frequency 0, by hand (compare V-IIR-14). -/
theorem test_iir_set_resonance_norm :
    reads .iirSetResonanceNorm (unit (.iir biquad) 0x0000000000000000#64 0x3FE0000000000000#64) [0x078, 0x080, 0x088, 0x090, 0x098] =
      some [0x3FD8000000000000#64, 0x0000000000000000#64, 0xBFD8000000000000#64, 0xBFF0000000000000#64, 0x3FD0000000000000#64] := by
  decide +kernel

/-- R196 at frequency 0, by hand. -/
theorem test_iir_set_notch :
    reads .iirSetNotch (unit (.iir biquad) 0x0000000000000000#64 0x3FF0000000000000#64) [0x078, 0x080, 0x088] =
      some [0x3FF0000000000000#64, 0xC000000000000000#64, 0x3FF0000000000000#64] := by
  decide +kernel

/-- V-IIR-28. -/
theorem test_iir_set_gain :
    reads .iirSetGain (unit (.iir biquad) 0x7FF0000000000000#64 0x0000000000000000#64) [0x060, 0x038] =
      some [0x3FF0000000000000#64, 0x0000000022010001#64] := by
  decide +kernel

/-- V-IIR-12: the history is flushed, the output is not. -/
theorem test_iir_sample_flush :
    reads .iirSample (unit (.iir (filter .lpf ⟨bits 0x3F72DBA46E18CD80#64, bits 0x3FFCC9195111671D#64, bits 0xBFEA290FC59394A5#64, bits 0x0000000000000000#64, bits 0x0000000000000000#64⟩ F64.zero F64.zero)) 0x3C9CD2B297D889BC#64 0x0000000000000000#64) [0x020, 0x068] =
      some [0x3C20FC5A86A6E6A7#64, 0x0000000000000000#64] := by
  decide +kernel

/-- V-IIR-1 to V-IIR-7 and V-IIR-14: h[1] of each variant, from the history after the impulse. -/
theorem test_iir_sample_variants :
    reads .iirSample (unit (.iir (filter .lpf
      ⟨bits 0x3F72DBA46E18CD80#64, bits 0x3FFCC9195111671D#64, bits 0xBFEA290FC59394A5#64, bits 0x0000000000000000#64, bits 0x0000000000000000#64⟩ (bits 0x3FF0000000000000#64) F64.zero)) 0 0)
      [0x020] = some [0x3F91E92B6D505E64#64] ∧
    reads .iirSample (unit (.iir (filter .hpf
      ⟨bits 0x3FECEED099ED98B8#64, bits 0x3FFCC9195111671D#64, bits 0xBFEA290FC59394A5#64, bits 0x0000000000000000#64, bits 0x0000000000000000#64⟩ (bits 0x3FF0000000000000#64) F64.zero)) 0 0)
      [0x020] = some [0xBFC7403908BD1276#64] ∧
    reads .iirSample (unit (.iir (filter .bpf
      ⟨bits 0x3FA19DEAEF66B6A0#64, bits 0x3FFE95FB04434EBB#64, bits 0xBFEDCC42A213292B#64, bits 0x0000000000000000#64, bits 0x0000000000000000#64⟩ (bits 0x3FF0000000000000#64) F64.zero)) 0 0)
      [0x020] = some [0x3FB0D69DBF5E92A0#64] ∧
    reads .iirSample (unit (.iir (filter .brf
      ⟨bits 0x3FEEE62151099495#64, bits 0xBFFE95FB04434EBA#64, bits 0x3FEDCC42A213292B#64, bits 0x0000000000000000#64, bits 0x0000000000000000#64⟩ (bits 0x3FF0000000000000#64) F64.zero)) 0 0)
      [0x020] = some [0xBFB0D69DBF5E92B0#64] ∧
    reads .iirSample (unit (.iir (filter .rlpf
      ⟨bits 0x3F740993319176C0#64, bits 0x3FFE95FB04434EBB#64, bits 0xBFEDCC42A213292B#64, bits 0x0000000000000000#64, bits 0x0000000000000000#64⟩ (bits 0x3F740993319176C0#64) F64.zero)) 0 0)
      [0x020] = some [0x3F93983B799743F8#64] ∧
    reads .iirSample (unit (.iir (filter .rhpf
      ⟨bits 0x3FEEBE0E2AA671A8#64, bits 0x3FFE95FB04434EBB#64, bits 0xBFEDCC42A213292B#64, bits 0x0000000000000000#64, bits 0x0000000000000000#64⟩ (bits 0x3FEEBE0E2AA671A8#64) F64.zero)) 0 0)
      [0x020] = some [0xBFB5BCAC9DC463A0#64] ∧
    reads .iirSample (unit (.iir (filter .resonz
      ⟨bits 0x3FA1E980AF2DD5D8#64, bits 0x3FFE87050EA678F7#64, bits 0xBFEDC2CFEA1A4545#64, bits 0x0000000000000000#64, bits 0x0000000000000000#64⟩ (bits 0x3FF0000000000000#64) F64.zero)) 0 0)
      [0x020] = some [0x3FB1167C8FCD7486#64] ∧
    reads .iirSample (unit (.iir (filter .biquad
      ⟨bits 0x3FD8000000000000#64, bits 0x0000000000000000#64, bits 0xBFD8000000000000#64, bits 0xBFEFEFD5BFE443FE#64, bits 0x3FD0000000000000#64⟩ (bits 0x3FF0000000000000#64) F64.zero)) 0 0)
      [0x020] = some [0x3FD7F3E04FEB32FE#64] := by
  decide +kernel

/-- V-IIR-11: the history after two samples, cleared. -/
theorem test_iir_clear :
    reads .iirClear (unit (.iir (filter .lpf ⟨bits 0x3F72DBA46E18CD80#64, bits 0x3FFCC9195111671D#64, bits 0xBFEA290FC59394A5#64, bits 0x0000000000000000#64, bits 0x0000000000000000#64⟩ (bits 0x3FFCC9195111671D#64) Config.one)) 0x0000000000000000#64 0x0000000000000000#64) [0x068, 0x070, 0x080] =
      some [0x0000000000000000#64, 0x0000000000000000#64, 0x3FFCC9195111671D#64] := by
  decide +kernel

/-- V-REV-1. -/
theorem test_rev_config_a :
    reads .revConfigA (unit (.rev RevState.reset) 0x3FF0000000000000#64 0x0000000000000000#64) [0x078, 0x080, 0x088, 0x090, 0x098, 0x0A0, 0x0A8, 0x0B0, 0x0B8, 0x0C0, 0x0C8, 0x050, 0x130, 0x038, 0x048] =
      some [0x0000000000000009#64, 0x00000000000006F1#64, 0x0000000000000737#64, 0x00000000000007C9#64, 0x0000000000000859#64, 0x0000000000000185#64, 0x000000000000007F#64, 0x000000000000002B#64, 0x00000000000000D3#64, 0x00000000000000B3#64, 0x0000000000000000#64, 0x3FD3333333333333#64, 0x40E5888000000000#64, 0x0000000000000001#64, 0x0000000000000000#64] := by
  decide +kernel

/-- V-REV-12: T60 = 0. -/
theorem test_rev_config_a_t60 :
    reads .revConfigA (unit (.rev RevState.reset) 0x0000000000000000#64 0x0000000000000000#64) [0x038] =
      some [0x0000000014010000#64] := by
  decide +kernel

/-- V-REV-2. -/
theorem test_rev_config_b :
    reads .revConfigB (unit (.rev RevState.reset) 0x3FF0000000000000#64 0x0000000000000000#64) [0x078, 0x080, 0x088, 0x090, 0x098, 0x0A0, 0x0A8, 0x0B0, 0x0B8, 0x0C0, 0x0C8, 0x0D0, 0x0D8, 0x0E0, 0x050, 0x048] =
      some [0x000000000000000C#64, 0x00000000000009A3#64, 0x0000000000000AC1#64, 0x0000000000000C91#64, 0x0000000000000DCD#64, 0x0000000000000F25#64, 0x000000000000101F#64, 0x0000000000000257#64, 0x00000000000000C5#64, 0x0000000000000043#64, 0x0000000000000065#64, 0x0000000000000061#64, 0x0000000000000049#64, 0x0000000000000000#64, 0x3FD3333333333333#64, 0x0000000000000001#64] := by
  decide +kernel

/-- V-REV-14: topology B at 96 000 Hz needs 45 962 words. -/
theorem test_rev_config_b_ram :
    reads .revConfigB { unit (.rev RevState.reset) 0x3FF0000000000000#64 0 with regs := { Regs.reset with
      opa := 0x3FF0000000000000#64, sr := 0x40F7700000000000#64 } } [0x038] = some [0x0000000011010000#64] := by
  decide +kernel

/-- V-REV-3. -/
theorem test_rev_config_c :
    reads .revConfigC (unit (.rev RevState.reset) 0x3FF0000000000000#64 0x0000000000000000#64) [0x078, 0x080, 0x088, 0x090, 0x098, 0x050, 0x048] =
      some [0x0000000000000004#64, 0x000000000000015B#64, 0x0000000000000265#64, 0x0000000000000617#64, 0x0000000000000859#64, 0x3FE0000000000000#64, 0x0000000000000002#64] := by
  decide +kernel

/-- V-REV-10: mix 1.5. -/
theorem test_rev_set_mix_high :
    reads .revSetMix (unit (.rev (reverbA Config.mixDefaultAB)) 0x3FF8000000000000#64 0x0000000000000000#64) [0x050, 0x038] =
      some [0x3FF0000000000000#64, 0x0000000000000801#64] := by
  decide +kernel

/-- V-REV-10: mix -0.0. -/
theorem test_rev_set_mix_negative_zero :
    reads .revSetMix (unit (.rev (reverbA Config.mixDefaultAB)) 0x8000000000000000#64 0x0000000000000000#64) [0x050, 0x038] =
      some [0x8000000000000000#64, 0x0000000000000001#64] := by
  decide +kernel

/-- V-REV-4, V-REV-5, V-REV-6 at n = 0: the dry part. -/
theorem test_rev_tick_dry :
    reads .revTick (unit (.rev (reverbA Config.mixDefaultAB)) 0x3FF0000000000000#64 0) [0x020, 0x028, 0x030] =
      some [0x3FE6666666666666#64, 0x3FE6666666666666#64, 0x3FE6666666666666#64] ∧
    reads .revTick (unit (.rev (reverb .b [2467, 2753, 3217, 3533, 3877, 4127, 599, 197, 67, 101, 97, 73] (List.replicate 6 Config.half) Config.mixDefaultAB)) 0x3FF0000000000000#64 0)
      [0x020, 0x028, 0x030] = some [0x3FE6666666666666#64, 0x3FE6666666666666#64, 0x3FE6666666666666#64] ∧
    reads .revTick (unit (.rev (reverb .c [347, 613, 1559, 2137] (List.replicate 2 Config.half) Config.mixDefaultC)) 0x3FF0000000000000#64 0)
      [0x020, 0x028, 0x030] = some [0x3FE0000000000000#64, 0x3FE0000000000000#64, 0x3FE0000000000000#64] := by
  decide +kernel

/-- V-REV-8, the fourth tick: with mix 0.0 an input of -0.0 comes out as +0.0. -/
theorem test_rev_tick_signed_zero :
    reads .revTick (unit (.rev (reverbA F64.zero)) 0x8000000000000000#64 0) [0x020, 0x028, 0x030, 0x060] =
      some [0, 0, 0, 0] := by decide +kernel

/-- V-REV-15, REV_CLEAR. -/
theorem test_rev_clear :
    reads .revClear (unit (.rev { reverbA Config.half with lp := Config.one, lastL := Config.one, lastR := Config.one }) 0x0000000000000000#64 0x0000000000000000#64) [0x060, 0x068, 0x070, 0x050, 0x080] =
      some [0x0000000000000000#64, 0x0000000000000000#64, 0x0000000000000000#64, 0x3FE0000000000000#64, 0x00000000000006F1#64] := by
  decide +kernel

/-- V-REV-16. -/
theorem test_is_prime :
    [1, 2, 3, 4, 9, 25, 49].map isPrime = [true, true, true, false, false, false, false] := by decide +kernel

/-- V-REV-17; V-REV-7: every length of topology A at 48 000 Hz. -/
theorem test_rescale :
    rescale 1777 Config.one Config.ref44100 = 1 ∧
    Config.nominalA.map (fun l => rescale l (bits 0x40E7700000000000#64) Config.ref44100) =
      [1949, 2011, 2179, 2333, 431, 139, 47, 229, 197] := by decide +kernel

/-! ### Checks that depend on the unit, register accesses, reset -/

/-- V-ENC-2, V-ENC-11, V-ENC-12, V-ENC-13, V-ENC-15. -/
theorem test_checks :
    reads .fdlTick (unit (.fdl FdlState.reset) 0 0) [0x038] = some [0x0000000004010000#64] ∧
    reads .fdlNextOut (unit (.fdl (fixedLine 0 6 [])) 0 0) [0x038] = some [0x0000000005010001#64] ∧
    reads .iirSetFreq (unit (.iir biquad) 0 0) [0x038] = some [0x0000000005010001#64] ∧
    reads .iirSetNotch (unit (.iir hpfZero) 0 0) [0x038] = some [0x0000000005010001#64] ∧
    reads .fdlTick (unit (.rev (reverbA Config.half)) 0 0) [0x038] = some [0x0000000001010001#64] := by decide +kernel

/-- V-MEM-1: the bytes of 1.5 in ascending address order. -/
theorem test_bytes : bytesOfWord 0x3FF8000000000000#64 = [0x00, 0x00, 0x00, 0x00, 0x00, 0x00, 0xF8, 0x3F] := by decide

/-- The machine with one event to come. -/
def scheduled (u : DspUnit) (e : Event) : State := { machine u with bus := [e] }

/-- V-MEM-2, V-MEM-3: accesses that are not admitted. -/
theorem test_bus_errors :
    step (scheduled (unit (.fdl FdlState.reset) 1 2) (.write 0x010 [0, 0, 0, 0])) = .fault (.busError 0x010 4) ∧
    step (scheduled (unit (.fdl FdlState.reset) 1 2) (.read 0x004 8)) = .fault (.busError 0x004 8) := ⟨rfl, rfl⟩

/-- V-MEM-4, V-MEM-5, V-MEM-6, V-MEM-7: CMD reads 0; a reserved offset, ID and RES0 ignore writes. -/
theorem test_read_only :
    (unit (.fdl FdlState.reset) 1 2).readReg 0x008 = 0 ∧ (unit (.fdl FdlState.reset) 1 2).readReg 0x1F8 = 0 ∧
    (unit (.fdl FdlState.reset) 1 2).writeReg 0x1F8 5 = unit (.fdl FdlState.reset) 1 2 ∧
    (unit (.fdl FdlState.reset) 1 2).writeReg 0x000 5 = unit (.fdl FdlState.reset) 1 2 ∧
    (unit (.fdl FdlState.reset) 1 2).writeReg 0x020 5 = unit (.fdl FdlState.reset) 1 2 := ⟨rfl, rfl, rfl, rfl, rfl⟩

/-- V-MEM-8, V-MEM-9, V-MEM-10. -/
theorem test_status_write :
    let u : DspUnit := { unit (.fdl (fixedLine 0 6 [])) 0 0 with
      regs := { Regs.reset with err := true, errcode := .wrongVariant, warn := 4#5 } }
    u.readReg 0x038 = 0x0000000005010401#64 ∧ (u.writeReg 0x038 0x400#64).readReg 0x038 = 0x0000000005010001#64 ∧
    (u.writeReg 0x038 0x10000#64).readReg 0x038 = 0x0000000000000401#64 ∧
    (u.writeReg 0x038 0x1#64).readReg 0x038 = 0x0000000005010401#64 := by decide +kernel

/-- The table of R89: CLRSTATUS, and the example of R88. -/
theorem test_expansions :
    expandPseudo 0x200 .clrStatus = [.write 0x238 [0x00, 0x1F, 0x01, 0x00, 0x00, 0x00, 0x00, 0x00]] ∧
    expandLine ⟨0, .fdlConfigAllpass, some 0x3FF8000000000000#64, some 10#64⟩ =
      [.write 0x010 [0, 0, 0, 0, 0, 0, 0xF8, 0x3F], .write 0x018 [10, 0, 0, 0, 0, 0, 0, 0],
       .write 0x008 [0x01, 0x01, 0, 0, 0, 0, 0, 0]] := by decide

/-- V-RST-1 to V-RST-5 on the reset state's units. -/
theorem test_reset :
    State.reset.units.map (fun u => (u.readReg 0x000, u.readReg 0x038, u.readReg 0x040, u.readReg 0x048)) =
      [(0x000046444C430101#64, 0, 0x40E5888000000000#64, 0), (0x000046444C430102#64, 0, 0x40E5888000000000#64, 0),
       (0x000046444C430103#64, 0, 0x40E5888000000000#64, 0)] := by decide

/-- The first step after a placed word runs it: IIR_SAMPLE on the UNCONFIGURED unit at 0x200 (V-RST-6). -/
theorem test_with_fetch_word :
    step (State.reset.withFetchWord 64 0x17) = .next { State.reset with
      sel := 1
      units := State.reset.units.set 1 { DspUnit.reset .iir 0x200 with
        regs := { Regs.reset with err := true, errcode := .notConfigured } }
      draws := 1 } := rfl

/-! ### Witnesses: states and operands that meet the hypotheses of each statement

A hypothesis that only names a value by an equation is met by that value and is not repeated. Where a statement has
clauses, each has a witness, at the boundary values of its range. -/

/-- Commands whose word decodes, for both round trips (R83). -/
theorem test_witness_round_trips :
    Instr.legalIn .fdlTick .fdl = true ∧ Instr.legalIn .nop .rev = true ∧
    decode .iir 0x0000000000000114#64 = .ok .iirSetResonanceNorm := by decide

/-- A word of no opcode, one with RSV, and one of each kind of SUB error, at the first value out of range. -/
theorem test_witness_decode_errors :
    (∀ o : Opcode, opValue o = (0x0000000000000011#64).extractLsb' 0 8 → o.owner ≠ none ∧ o.owner ≠ some .fdl) ∧
    (opValue .fdlTick = (0x0000000000001004#64).extractLsb' 0 8 ∧ Opcode.fdlTick.owner = some .fdl ∧
      (0x0000000000001004#64).extractLsb' 12 52 ≠ 0#52) ∧
    (opValue .fdlConfig = (0x0000000000000301#64).extractLsb' 0 8 ∧ (0x0000000000000301#64).extractLsb' 12 52 = 0#52 ∧
      Opcode.fdlConfig.subCount ≤ ((0x0000000000000301#64).extractLsb' 8 4).toNat) ∧
    (opValue .iirSetResonance = (0x0000000000000214#64).extractLsb' 0 8 ∧
      Opcode.iirSetResonance.subCount ≤ ((0x0000000000000214#64).extractLsb' 8 4).toNat) := by
  refine ⟨?_, by decide, by decide, by decide⟩
  intro o; cases o <;> decide

/-- The unit most witnesses use. -/
def someUnit : DspUnit := unit (.fdl (fixedLine 0 6 [])) 1 2

/-- An admitted CMD write that decodes, and one that does not. -/
theorem test_witness_cmd_writes :
    (scheduled someUnit (.write 0x008 (bytesOfWord 4))).unitAt 0x008 = some 0 ∧
    (scheduled someUnit (.write 0x008 (bytesOfWord 4))).units[0]? = some someUnit ∧
    0x008 = someUnit.base + 0x008 ∧ (bytesOfWord 4).length = 8 ∧
    decode someUnit.body.type (wordOfBytes (bytesOfWord 4)) = .ok .fdlTick ∧
    decode someUnit.body.type (wordOfBytes (bytesOfWord 0x11)) = .error .illegalOpcode := by decide

/-- Addresses at the edges of a window: the last register, the first address past it, a misaligned one. -/
theorem test_witness_accesses :
    (machine someUnit).unitAt 0x1F8 = some 0 ∧ (machine someUnit).unitAt 0x1FF = some 0 ∧ 0x1FF % 8 ≠ 0 ∧
    (machine someUnit).unitAt 0x200 = none ∧ (machine someUnit).units[0]? = some someUnit ∧
    0x1F8 % 8 = 0 ∧ lastOffset someUnit.body.type < 0x0A8 ∧ 0x0A8 % 8 = 0 ∧ lastOffset someUnit.body.type = 0x0A0 ∧
    0x020 ∉ [0x008, 0x010, 0x018, 0x038, 0x040] ∧ wordOfBytes (List.replicate 8 0) = 0 := by decide

/-- Units after reset, and a schedule with an admitted access of each kind. -/
theorem test_witness_safe_schedule :
    DspUnit.reset .rev 0x400 ∈ (State.resetWith resetInstances ⟨4096, 22982⟩).units ∧
    State.SafeSchedule { State.reset with
      bus := [.powerOnReset, .read 0x5F8 8, .write 0x208 (bytesOfWord 0x17), .write 0x000 (bytesOfWord 0)] } := by
  refine ⟨by decide, ?_⟩
  intro e he
  fin_cases he <;> decide

/-- A unit of each kind of rejection, and the unit after it. -/
theorem test_witness_unit_checks :
    (machine someUnit).Addresses someUnit ∧ Instr.legalIn .revTick someUnit.body.type = false ∧
    ((unit (.fdl FdlState.reset) 0 0).body.ready = false ∧ runsUnconfigured .fdlClear = false) ∧
    (someUnit.body = .fdl (fixedLine 0 6 []) ∧ (fixedLine 0 6 []).variant = .fixed ∧ someUnit.body.ready = true) ∧
    (biquad.variant = .biquad ∧ hpfZero.variant ≠ .biquad ∧ biquad.cfg = true ∧ hpfZero.cfg = true) := by
  refine ⟨rfl, by decide, by decide, by decide, by decide⟩

/-- An ordinary rejection and a CFG error, from ERR clear to ERR set. -/
theorem test_witness_errors :
    (machine someUnit).Addresses someUnit ∧ someUnit.regs.err = false ∧
    exec .fdlNextOut (machine someUnit) = .next ((machine someUnit).afterCommand (someUnit.raise .wrongVariant)) ∧
    (someUnit.raise .wrongVariant).regs.err = true ∧ isCfgError .wrongVariant = false ∧
    exec .fdlConfigFixed (machine (unit (.fdl FdlState.reset) 0 0)) =
      .next ((machine (unit (.fdl FdlState.reset) 0 0)).afterCommand
        ((unit (.fdl FdlState.reset) 0 0).raise .cfgMaxDelay)) ∧
    isCfgError .cfgMaxDelay = true := ⟨rfl, rfl, rfl, rfl, rfl, rfl, rfl⟩

/-- A command that runs, with another unit beside it. -/
theorem test_witness_commands :
    ∃ t : State, exec .fdlTick { machine someUnit with units := [someUnit, DspUnit.reset .iir 0x200] } = .next t ∧
      (machine someUnit).units[0]? = some someUnit := ⟨_, rfl, rfl⟩

/-- FDL_CONFIG: the smallest and the largest line, a delay that is no NaN. -/
theorem test_witness_fdl_config :
    (1#64).toInt = (1 : Nat) ∧ (4095#64).toInt = (4095 : Nat) ∧ 4095 + 1 ≤ (machine someUnit).params.fdlRamWords ∧
    isNaN (bits 0xFFF0000000000000#64) = false := by decide

/-- The operand errors of the CONFIGs, at the edges: maxDelay 0 and 4096, a NaN delay, rate 0 and -0.0, an infinite Q,
LPF at frequency 0, T60 0, a rate whose lengths need too much. -/
theorem test_witness_config_errors :
    (0#64).toInt < 1 ∧ ((machine someUnit).params.fdlRamWords : Int) < (4096#64).toInt + 1 ∧
    isNaN (bits 0x7FF8000000000000#64) = true ∧ fgt F64.zero F64.zero = false ∧ fgt F64.negZero F64.zero = false ∧
    isFinite (bits 0x7FF0000000000000#64) = false ∧
    (design (freeNans 0) .lpf F64.zero Config.two (bits Config.srReset)).finite = false ∧
    (22982 < (((nominal .b).map (fun l => rescale l (bits 0x40F7700000000000#64) (refRate .b))).map (· + 1)).sum) := by
  decide +kernel

/-- READY delay lines of each variant, with delays at and just past both ends of the range. -/
theorem test_witness_set_delay :
    (machine someUnit).Addresses someUnit ∧ someUnit.body = .fdl (fixedLine 0 6 []) ∧
    ((fixedLine 0 6 []).cfg = true ∧ (fixedLine 0 6 []).variant = .fixed) ∧
    ((allpassLine 0 10 [] false).cfg = true ∧ (allpassLine 0 10 [] false).variant = .allpass) ∧
    ((linearLine 0 8 []).cfg = true ∧ (linearLine 0 8 []).variant = .linear) ∧
    isNaN (bits 0x4024000000000000#64) = false := by
  refine ⟨rfl, rfl, by decide, by decide, by decide, by decide⟩

/-- FDL_SET_DELAY at the ends, from R122 to R124 by hand: 10 and 11 on C = 11, 0.5 and the value below it, 0.0 and the
negative number nearest to it. -/
theorem test_set_delay_edges :
    reads .fdlSetDelay (unit (.fdl (fixedLine 0 6 [])) 10 0) [0x038, 0x070] = some [1, 1] ∧
    reads .fdlSetDelay (unit (.fdl (fixedLine 0 6 [])) 11 0) [0x038, 0x070] = some [0x101, 1] ∧
    reads .fdlSetDelay (unit (.fdl (fixedLine 0 6 [])) 0 0) [0x038, 0x070] = some [1, 0] ∧
    reads .fdlSetDelay (unit (.fdl (allpassLine 0 10 [] false)) 0x3FE0000000000000#64 0) [0x038, 0x050] =
      some [1, 0x3FE0000000000000#64] ∧
    reads .fdlSetDelay (unit (.fdl (allpassLine 0 10 [] false)) 0x3FDFFFFFFFFFFFFF#64 0) [0x038, 0x050] =
      some [0x201, 0x3FE0000000000000#64] ∧
    reads .fdlSetDelay (unit (.fdl (linearLine 0 8 [])) 0x4024000000000000#64 0) [0x038, 0x050] =
      some [1, 0x4024000000000000#64] ∧
    reads .fdlSetDelay (unit (.fdl (linearLine 0 8 [])) 0x4024000000000001#64 0) [0x038, 0x050] =
      some [0x101, 0x4024000000000000#64] ∧
    reads .fdlSetDelay (unit (.fdl (linearLine 0 8 [])) 0x8000000000000001#64 0) [0x038, 0x050] = some [0x201, 0] := by
  decide +kernel

/-- The FDL invariant of a READY line, as FDL_CLEAR's second clause and the step need it. -/
theorem test_witness_fdl_inv : (fixedLine 4 10 fourWords).Inv (machine someUnit).params.fdlRamWords := by
  refine ⟨by decide, by decide, fun _ => ⟨by decide, by decide, by decide, by decide, 5, by decide, by decide, by decide⟩⟩

/-- A line with delay 2 that has room, fed two further inputs. -/
theorem test_witness_fixed_delay :
    2 < (fixedLine 4 2 fourWords).line.cap ∧ (fixedLine 4 2 fourWords).line.w < (fixedLine 4 2 fourWords).line.cap ∧
    (fixedLine 4 2 fourWords).line.r = modCap ((4 : Int) - 2) 11 ∧ [Config.one, Config.two].length = 2 := by decide

/-- A stored tap at the ends of the range, from R133 by hand: taps 1 and 5 of delay 5 are in range, 0 and 6 clamp. -/
theorem test_contents_at_edges :
    reads .fdlContentsAt (unit (.fdl (fixedLine 4 10 fourWords)) 1 0) [0x020, 0x038] = some [0x4010000000000000#64, 1] ∧
    reads .fdlContentsAt (unit (.fdl (fixedLine 4 10 fourWords)) 5 0) [0x020, 0x038] = some [0, 1] ∧
    reads .fdlContentsAt (unit (.fdl (fixedLine 4 10 fourWords)) 0 0) [0x020, 0x038] =
      some [0x4010000000000000#64, 0x401] ∧
    reads .fdlContentsAt (unit (.fdl (fixedLine 4 10 fourWords)) 6 0) [0x020, 0x038] = some [0, 0x401] := by
  decide +kernel

/-! The designs of LPF and BPF are finite whatever `tanF` and `cosF` return within R12's accuracy. -/

theorem one_below : Below 1 Config.one := ⟨false, ⟨0x3FF0000000000000, by decide⟩, by decide, 53, by decide, by decide⟩
theorem two_below : Below 2 Config.two := ⟨false, ⟨0x4000000000000000, by decide⟩, by decide, 53, by decide, by decide⟩
theorem minusTwo_below : Below 2 Config.minusTwo :=
  ⟨true, ⟨0x4000000000000000, by decide⟩, by decide, 53, by decide, by decide⟩
theorem sqrt2_below : Below 1 Config.sqrt2 :=
  ⟨false, ⟨0x3FF6A09E667F3BCD, by decide⟩, by decide, 53, by decide, by decide⟩
theorem one_atLeast : AtLeast 0 Config.one := ⟨⟨0x3FF0000000000000, by decide⟩, by decide, 52, by decide, by decide⟩

/-- `1.0 / tanF(v)` for an angle whose tangent is `2^-8` or more. -/
theorem cotangent_below (n : NanBits) {m : Fin infCode} {hi : Nat} (h : TanCode m 0x3F70000000000000 hi) :
    Below 10 (fdiv n Config.one (tanF (.fin false m))) ∧ Plus (fdiv n Config.one (tanF (.fin false m))) := by
  obtain ⟨m', hm, h1, -⟩ := h.tanF
  have ht : AtLeast (-8) (tanF (.fin false m)) := by
    rw [hm]
    refine atLeast_of_code (by decide) ?_
    omega
  have h := below_div (n := n) one_below ht (by decide) (by decide)
  exact ⟨h.1, h.2 ⟨_, show Config.one = .fin false ⟨0x3FF0000000000000, by decide⟩ by decide⟩⟩

/-- LPF designs a finite filter at every frequency and rate whose half angle has such a tangent. -/
theorem lpf_finite (f q sr : F64) {m : Fin infCode} {hi : Nat} (hf : halfAngle (freeNans 0) f sr = .fin false m)
    (h : TanCode m 0x3F70000000000000 hi) : (design (freeNans 0) .lpf f q sr).finite = true := by
  obtain ⟨hc, hcp⟩ := cotangent_below (freeNans 0 3) h
  have hs2p : Plus Config.sqrt2 := ⟨_, show Config.sqrt2 = .fin false ⟨0x3FF6A09E667F3BCD, by decide⟩ by decide⟩
  show (butterworth (freeNans 0) (fdiv (freeNans 0 3) Config.one (tanF (halfAngle (freeNans 0) f sr)))
    Config.minusTwo).finite = true
  rw [hf]
  generalize fdiv (freeNans 0 3) Config.one (tanF (.fin false m)) = c at hc hcp
  unfold butterworth
  generalize freeNans 0 = ν
  have hc2 := (hc.mul (n := ν 10) hc (by decide) (by decide)).mono (show _ ≤ (21 : Int) by decide)
  have hc2p := Plus.mul (n := ν 10) hcp hcp hc hc (by decide) (by decide)
  have hs := (hc.mul (n := ν 11) sqrt2_below (by decide) (by decide)).mono (show _ ≤ (12 : Int) by decide)
  have hsp := Plus.mul (n := ν 11) hcp hs2p hc sqrt2_below (by decide) (by decide)
  dsimp only
  generalize fmul (ν 10) c c = c2 at hc2 hc2p ⊢
  generalize fmul (ν 11) c Config.sqrt2 = s2c at hs hsp ⊢
  have h1 := one_below.mono (show _ ≤ (12 : Int) by decide)
  have hA := one_atLeast.add (n := ν 12) hsp h1 hs (by decide) (by decide)
  have hAb := h1.add (n := ν 12) hs (by decide) (by decide)
  have hD := hA.add (n := ν 13) hc2p (hAb.mono (show _ ≤ (21 : Int) by decide)) hc2 (by decide) (by decide)
  have ha := (below_div (n := ν 14) one_below hD (by decide) (by decide)).1
  have hb1 := ((minusTwo_below.mul (n := ν 16) ((one_below.mono (show _ ≤ (21 : Int) by decide)).sub (n := ν 15) hc2
    (by decide) (by decide)) (by decide) (by decide)).mul (n := ν 17) ha (by decide) (by decide))
  have hb2 := (((h1.sub (n := ν 18) hs (by decide) (by decide)).mono
    (show _ ≤ (21 : Int) by decide)).add (n := ν 19) hc2 (by decide) (by decide)).neg.mul (n := ν 20) ha (by decide)
    (by decide)
  simp only [designed, Coeffs.finite, ha.finite, hb1.finite, hb2.finite]
  rfl

/-- The tangents of the half angles of 100 Hz, 1000 Hz and 22 050 Hz at 44 100 Hz, to a factor of 2. -/
theorem tangents :
    TanCode ⟨0x3F7D2DD69613F104, by decide⟩ 0x3F70000000000000 0x3F80000000000000 ∧
    TanCode ⟨0x3FB23CA61DCC76A2, by decide⟩ 0x3F70000000000000 0x3FC0000000000000 ∧
    TanCode ⟨0x3FF921FB54442D18, by decide⟩ 0x3F70000000000000 0x4350000000000000 := by decide +kernel

/-- The tangent of BPF at 10 kHz and Q 0.3, -0.96385484040777774 (nearest code 0x3FEED7E61B349109, host libm): the values
`tanF` may return span fewer than 512 last places, 6e-14, so the slope of 1531 there moves a coefficient by less than
1e-10 (R12). -/
theorem test_tangent_interval :
    halfBandwidth (freeNans 0) (bits 0x40C3880000000000#64) (bits 0x3FD3333333333333#64) (bits Config.srReset) =
      bits 0x4002FF2D09B4FB94#64 ∧
    (let z := tanRatio ⟨0x4002FF2D09B4FB94, by decide⟩
     let d := tanTolerance true z.1.natAbs z.2.natAbs
     let lo := quotientCode (z.1.natAbs - d) z.2.natAbs
     let hi := quotientCode (z.1.natAbs + d) z.2.natAbs
     (z.1 < 0 ↔ 0 < z.2) ∧ lo ≤ 0x3FEED7E61B349109 ∧ 0x3FEED7E61B349109 ≤ hi ∧ hi < lo + 512) := by decide +kernel

/-- LPF at 100 Hz, at 1000 Hz, and at half the rate, R192's corner, designs a finite filter. -/
theorem test_witness_lpf (q : F64) :
    ∀ f ∈ [0x4059000000000000#64, 0x408F400000000000#64, 0x40D5888000000000#64],
      (design (freeNans 0) .lpf (bits f) q (bits Config.srReset)).finite = true := by
  intro f hf
  simp only [List.mem_cons, List.not_mem_nil, or_false] at hf
  rcases hf with rfl | rfl | rfl
  · exact lpf_finite _ q _ (by decide +kernel) tangents.1
  · exact lpf_finite _ q _ (by decide +kernel) tangents.2.1
  · exact lpf_finite _ q _ (by decide +kernel) tangents.2.2

/-- BPF at 1000 Hz and Q 1 designs a finite filter. -/
theorem test_witness_bpf :
    (design (freeNans 0) .bpf (bits 0x408F400000000000#64) Config.one (bits Config.srReset)).finite = true := by
  obtain ⟨hc, hcp⟩ := cotangent_below (freeNans 0 5) tangents.2.1
  have hcos : Below 2 (cosF (centreAngle (freeNans 0) (bits 0x408F400000000000#64) (bits Config.srReset))) := by
    rw [show centreAngle (freeNans 0) (bits 0x408F400000000000#64) (bits Config.srReset) =
      .fin false ⟨0x3FC23CA61DCC76A2, by decide⟩ by decide +kernel]
    obtain ⟨⟨s', m', hm, hle⟩, -⟩ := cosF_near false ⟨0x3FC23CA61DCC76A2, by decide⟩
    rw [hm]
    exact below_of_code (by decide) (by omega)
  show (designBpf (freeNans 0) _ _ _).finite = true
  unfold designBpf
  rw [show halfBandwidth (freeNans 0) (bits 0x408F400000000000#64) Config.one (bits Config.srReset) =
    .fin false ⟨0x3FB23CA61DCC76A2, by decide⟩ by decide +kernel]
  dsimp only
  generalize fdiv (freeNans 0 5) Config.one (tanF (.fin false ⟨0x3FB23CA61DCC76A2, _⟩)) = c at hc hcp ⊢
  generalize cosF (centreAngle (freeNans 0) (bits 0x408F400000000000#64) (bits Config.srReset)) = k at hcos ⊢
  generalize freeNans 0 = ν
  have hd := two_below.mul (n := ν 6) hcos (by decide) (by decide)
  have h1 := one_below.mono (show _ ≤ (10 : Int) by decide)
  have hA := one_atLeast.add (n := ν 7) hcp h1 hc (by decide) (by decide)
  have ha := (below_div (n := ν 8) one_below hA (by decide) (by decide)).1
  have hb1 := ((hc.mul (n := ν 9) hd (by decide) (by decide)).mul (n := ν 10) ha (by decide) (by decide))
  have hb2 := (h1.sub (n := ν 11) hc (by decide) (by decide)).mul (n := ν 12) ha (by decide) (by decide)
  simp only [designed, Coeffs.finite, ha.finite, hb1.finite, hb2.finite]
  rfl

/-- The other designs at frequency 0 and Q 2, where only `tanF(0)` and `cosF(0)` enter, with a valid rate. -/
theorem test_witness_designs :
    (design (freeNans 0) .hpf F64.zero Config.two (bits Config.srReset)).finite = true ∧
    (design (freeNans 0) .brf F64.zero Config.two (bits Config.srReset)).finite = true ∧
    (design (freeNans 0) .rlpf F64.zero Config.two (bits Config.srReset)).finite = true ∧
    (design (freeNans 0) .rhpf F64.zero Config.two (bits Config.srReset)).finite = true ∧
    (design (freeNans 0) .resonz F64.zero Config.two (bits Config.srReset)).finite = true ∧
    isFinite (bits Config.srReset) = true ∧ fgt (bits Config.srReset) F64.zero = true ∧ isFinite F64.zero = true ∧
    isFinite Config.two = true ∧ (machine (unit (.iir IirState.reset) 0 0)).Addresses (unit (.iir IirState.reset) 0 0) := by
  refine ⟨?_, ?_, ?_, ?_, ?_, ?_, ?_, ?_, ?_, rfl⟩ <;> decide +kernel

/-- The setters of a designed filter and of a BIQUAD, with valid operands: radius 0.0, 1.0, and past both ends. -/
theorem test_witness_iir_setters :
    (hpfZero.cfg = true ∧ hpfZero.variant ≠ .biquad ∧ isFinite hpfZero.q = true ∧ isFinite hpfZero.freq = true ∧
      (design (freeNans 0) .hpf F64.zero hpfZero.q (bits Config.srReset)).finite = true) ∧
    (biquad.cfg = true ∧ biquad.variant = .biquad ∧ biquad.c.finite = true) ∧
    (∀ r ∈ [F64.zero, Config.one], flt r F64.zero = false ∧ fgt r Config.one = false ∧
      isFinite (fmul (freeNans 0 4) r r) = true ∧
      isFinite (fmul (freeNans 0 3) (fmul (freeNans 0 0) Config.minusTwo r)
        (cosF (fdiv (freeNans 0 2) (fmul (freeNans 0 1) Config.twoPi F64.zero) (bits Config.srReset)))) = true ∧
      isFinite (fsub (freeNans 0 6) Config.half (fmul (freeNans 0 5) Config.half (fmul (freeNans 0 4) r r))) = true) ∧
    flt (bits 0x8000000000000001#64) F64.zero = true ∧ fgt (bits 0x3FF0000000000001#64) Config.one = true := by
  decide +kernel

/-- Each operand error of the setters. The last: `TWO_PI * f` overflows at the largest finite
frequency, so `cosF(inf)` makes the pole term a NaN. -/
theorem test_witness_invalid_operands :
    (allpassLine 0 10 [] false).variant ≠ .fixed ∧ isNaN (bits 0x7FF8000000000000#64) = true ∧
    isFinite (bits 0x7FF0000000000000#64) = false ∧
    (design (freeNans 0) .lpf F64.zero hpfZero.q (bits Config.srReset)).finite = false ∧
    (unit (.iir hpfZero) 0 0).body.ready = true ∧ (unit (.iir biquad) 0 0).body.ready = true ∧
    (unit (.rev (reverbA Config.half)) 0 0).body.ready = true ∧
    isFinite (bits 0x7FEFFFFFFFFFFFFF#64) = true ∧
    isFinite (fmul (freeNans 0 3) (fmul (freeNans 0 0) Config.minusTwo Config.one) (cosF (fdiv (freeNans 0 2)
      (fmul (freeNans 0 1) Config.twoPi (bits 0x7FEFFFFFFFFFFFFF#64)) (bits Config.srReset)))) = false := by decide +kernel

/-- REV_CONFIG that fits: topology B at 48 000 Hz needs exactly 22 982 words (R229). -/
theorem test_witness_rev_config :
    (((nominal .b).map (fun l => rescale l (bits 0x40E7700000000000#64) (refRate .b))).map (· + 1)).sum = 22982 ∧
    isFinite (bits 0x40E7700000000000#64) = true ∧ fgt (bits 0x40E7700000000000#64) F64.zero = true ∧
    isFinite Config.one = true ∧ fgt Config.one F64.zero = true ∧
    (machine (unit (.rev RevState.reset) 0 0)).params.revRamWords = 22982 := by decide +kernel

/-- Bounds of the primality and gain statements, and the three cases of the mix clamp at its ends. -/
theorem test_witness_rev_values :
    (1 ≤ 1 ∧ 1 < 2 ^ 53) ∧ (flt F64.zero F64.zero = false ∧ fgt Config.one Config.one = false) ∧
    (flt (bits 0x8000000000000001#64) F64.zero = true ∧ fgt (bits 0x3FF0000000000001#64) Config.one = true) ∧
    (isNaN F64.negZero = false ∧ isFinite F64.zero = true ∧ F64.zero.signBit = false ∧
      isFinite (bits 0x7FF0000000000000#64) = false) := by decide

/-- READY reverberators of each topology. -/
theorem test_witness_rev_ticks :
    (reverb .a [1, 1, 1, 1, 1, 1, 1, 1, 1] [] Config.half).cfg = true ∧
    (reverb .a [1] [] Config.half).topo = .a ∧ (reverb .b [1] [] Config.half).topo = .b ∧
    (reverb .c [1] [] Config.half).topo = .c ∧
    (machine (unit (.rev (reverb .c [1, 1, 1, 1] [] Config.half)) 0 0)).Addresses
      (unit (.rev (reverb .c [1, 1, 1, 1] [] Config.half)) 0 0) := ⟨rfl, rfl, rfl, rfl, rfl⟩

/-- A state that keeps the invariants and steps: a FIXED line about to tick. -/
theorem test_witness_fdl_step :
    (scheduled (unit (.fdl (fixedLine 4 10 fourWords)) 1 2) (.write 0x008 (bytesOfWord 4))).FdlInv ∧
    (scheduled (unit (.fdl (fixedLine 4 10 fourWords)) 1 2) (.write 0x008 (bytesOfWord 4))).StatusInv ∧
    ∃ t, step (scheduled (unit (.fdl (fixedLine 4 10 fourWords)) 1 2) (.write 0x008 (bytesOfWord 4))) = .next t := by
  refine ⟨?_, ?_, _, rfl⟩
  · intro u hu S hS
    obtain rfl := List.mem_singleton.1 hu
    obtain rfl := Body.fdl.inj hS
    exact test_witness_fdl_inv
  · intro u hu
    obtain rfl := List.mem_singleton.1 hu
    exact ⟨fun _ => rfl, fun _ => rfl⟩

/-- A BIQUAD about to sample. -/
theorem test_witness_iir_step :
    (scheduled (unit (.iir biquad) 0 0) (.write 0x008 (bytesOfWord 0x17))).IirInv ∧
    ∃ t, step (scheduled (unit (.iir biquad) 0 0) (.write 0x008 (bytesOfWord 0x17))) = .next t := by
  refine ⟨?_, _, rfl⟩
  intro u hu S hS
  obtain rfl := List.mem_singleton.1 hu
  obtain rfl := Body.iir.inj hS
  exact ⟨by decide, by decide, by decide, by decide, fun h => absurd rfl h⟩

/-- A topology C about to tick, its lines short. -/
theorem test_witness_rev_step :
    (scheduled (unit (.rev (reverb .c [1, 1, 3, 5] [Config.half, Config.half] Config.half)) 0 0)
      (.write 0x008 (bytesOfWord 0x23))).RevInv ∧
    ∃ t, step (scheduled (unit (.rev (reverb .c [1, 1, 3, 5] [Config.half, Config.half] Config.half)) 0 0)
      (.write 0x008 (bytesOfWord 0x23))) = .next t := by
  refine ⟨?_, _, rfl⟩
  intro u hu S hS
  obtain rfl := List.mem_singleton.1 hu
  obtain rfl := Body.rev.inj hS
  refine ⟨by decide, ?_, by decide, ⟨by decide, by decide⟩, fun _ => by decide⟩
  intro l hl
  simp only [reverb, List.map_cons, List.map_nil, List.mem_cons, List.not_mem_nil, or_false] at hl
  rcases hl with rfl | rfl | rfl | rfl <;>
    exact ⟨by decide, by decide, by decide, by decide, by decide⟩

/-- Two RAMs in canonical form, and operands of each kind in R9's cases: a quotient, a tie (`1.0 + 2^-53`, `1.0` has the even
significand), a sum halfway above the largest finite value, and the largest exact integer. -/
theorem test_witness_arithmetic :
    Ram.wf fourWords = true ∧ isFinite Config.one = true ∧ isFinite Config.two = true ∧ Config.two ≠ F64.zero ∧
    fadd (freeNans 0 0) Config.one (bits 0x3CA0000000000000#64) = Config.one ∧
    fadd (freeNans 0 0) (bits 0x3FF0000000000001#64) (bits 0x3CA0000000000000#64) = bits 0x3FF0000000000002#64 ∧
    fadd (freeNans 0 0) (bits 0x7FEFFFFFFFFFFFFF#64) (bits 0x7C90000000000000#64) = .inf false ∧
    fdiv (freeNans 0 0) Config.one (bits 0x4008000000000000#64) = bits 0x3FD5555555555555#64 ∧
    i2f (2 ^ 53) = bits 0x4340000000000000#64 ∧ i2f (2 ^ 53 + 1) = bits 0x4340000000000000#64 := by decide +kernel

end Sys2Proof.Tests
end

section
/-! No step moves a window or changes a unit type or a parameter (00_scope.md R3, R6; 10_state.md R23; 20_memory.md
R68). -/

namespace Sys2Proof.Machine

/-- Every command is NOP or runs in the execution cycle of one of the three families (40_common.md R100, R102). -/
theorem exec_eq_runCommand (i : Instr) (s : State) :
    exec i s = execNop s ∨ (∃ c, exec i s = runCommand fdlFamily c s) ∨ (∃ c, exec i s = runCommand iirFamily c s) ∨
      ∃ c, exec i s = runCommand revFamily c s := by
  cases i with
  | nop => exact .inl rfl
  | fdlConfigFixed | fdlConfigAllpass | fdlConfigLinear | fdlSetDelay | fdlClear | fdlTick | fdlNextOut | fdlContentsAt
  | fdlEnergy => exact .inr (.inl ⟨_, rfl⟩)
  | iirConfigLpf | iirConfigHpf | iirConfigBpf | iirConfigBrf | iirConfigRlpf | iirConfigRhpf | iirConfigResonz
  | iirConfigBiquad | iirSetFreq | iirSetQ | iirSetResonance | iirSetResonanceNorm | iirSetNotch | iirSetGain | iirSample
  | iirClear => exact .inr (.inr (.inl ⟨_, rfl⟩))
  | revConfigA | revConfigB | revConfigC | revSetMix | revTick | revClear => exact .inr (.inr (.inr ⟨_, rfl⟩))

/-- What a command answers as next state: the state itself, or the addressed unit replaced by what `Execute` of a family
makes of it, a family whose internal states are all of one unit type. -/
theorem exec_next {i : Instr} {s t : State} (h : exec i s = .next t) :
    t = s ∨ ∃ (σ : Type) (fam : Family σ) (c : Command σ) (u : DspUnit),
      (∀ (b : Body) (S S' : σ), fam.view b = some S → (fam.wrap S').type = b.type) ∧
      s.selected? = some u ∧ t = s.afterCommand (u.execute fam c (freeNans s.draws)) := by
  rcases exec_eq_runCommand i s with he | ⟨c, he⟩ | ⟨c, he⟩ | ⟨c, he⟩ <;> rw [he] at h
  · exact .inl (execNop_next h).1
  · obtain ⟨u, hu, ht⟩ := runCommand_next h
    exact .inr ⟨_, fdlFamily, c, u, fun b S S' hb => by rw [fdlFamily_view_eq hb]; rfl, hu, ht⟩
  · obtain ⟨u, hu, ht⟩ := runCommand_next h
    exact .inr ⟨_, iirFamily, c, u, fun b S S' hb => by rw [iirFamily_view_eq hb]; rfl, hu, ht⟩
  · obtain ⟨u, hu, ht⟩ := runCommand_next h
    exact .inr ⟨_, revFamily, c, u, fun b S S' hb => by rw [revFamily_view_eq hb]; rfl, hu, ht⟩

/-- What the platform fixed of a unit. -/
def DspUnit.window (u : DspUnit) : UnitType × Nat := (u.body.type, u.base)

theorem State.platform_eq (s : State) : s.platform = (s.units.map DspUnit.window, s.params) := rfl

@[simp] theorem DspUnit.raise_window (u : DspUnit) (c : ErrCode) : (u.raise c).window = u.window := by
  simp [DspUnit.window]

@[simp] theorem DspUnit.reset_window (t : UnitType) (b : Nat) : (DspUnit.reset t b).window = (t, b) := by
  simp [DspUnit.window, DspUnit.reset]

@[simp] theorem DspUnit.writeReg_window (u : DspUnit) (off : Nat) (v : Word) : (u.writeReg off v).window = u.window := by
  unfold DspUnit.writeReg
  split <;> rfl

/-- `Execute` keeps the window where the family's internal states are all of one unit type. -/
theorem DspUnit.execute_window {σ : Type} {fam : Family σ} (c : Command σ) (ν : NanSource) (u : DspUnit)
    (hfam : ∀ (b : Body) (S S' : σ), fam.view b = some S → (fam.wrap S').type = b.type) :
    (u.execute fam c ν).window = u.window := by
  rcases DspUnit.execute_cases fam c ν u with ⟨e, he, -⟩ | ⟨S, S', o, w, hv, -, -, -, he⟩
  · rw [he, DspUnit.raise_window]
  · rw [he]
    simp [DspUnit.window, hfam u.body S S' hv]

/-- Replacing a unit by one with the same window keeps the list of windows. -/
theorem map_window_set {l : List DspUnit} {k : Nat} {u u' : DspUnit} (hu : l[k]? = some u) (h : u'.window = u.window) :
    (l.set k u').map DspUnit.window = l.map DspUnit.window := by
  obtain ⟨hk, rfl⟩ := List.getElem?_eq_some_iff.1 hu
  rw [List.map_set, h, ← List.getElem_map DspUnit.window, List.set_getElem_self]
  simpa using hk

theorem afterCommand_platform {s : State} {u u' : DspUnit} (hu : s.selected? = some u) (h : u'.window = u.window) :
    (s.afterCommand u').platform = s.platform := by
  simp only [State.platform_eq, State.afterCommand_units, State.afterCommand_params, map_window_set hu h]

theorem exec_platform {i : Instr} {s t : State} (h : exec i s = .next t) : t.platform = s.platform := by
  rcases exec_next h with rfl | ⟨σ, fam, c, u, hfam, hu, rfl⟩
  · rfl
  · exact afterCommand_platform hu (u.execute_window c _ hfam)

theorem rejectCommand_platform (s : State) (k : Nat) (c : ErrCode) : (s.rejectCommand k c).platform = s.platform := by
  unfold State.rejectCommand
  split
  · rename_i u hu
    simp only [State.platform_eq, map_window_set hu (u.raise_window c)]
  · rfl

theorem doWrite_platform (s : State) (k off : Nat) (v : Word) : (s.doWrite k off v).platform = s.platform := by
  unfold State.doWrite
  split
  · rename_i u hu
    simp only [State.platform_eq, map_window_set hu (u.writeReg_window off v)]
  · rfl

theorem doRead_platform (s : State) (k off : Nat) : (s.doRead k off).platform = s.platform := by
  simp only [State.platform_eq, State.doRead_units, State.doRead_params]

theorem powerOn_platform (s : State) : s.powerOn.platform = s.platform := by
  simp only [State.platform_eq, State.powerOn_units, State.powerOn_params, List.map_map, Prod.mk.injEq, and_true]
  exact List.map_congr_left fun u _ => DspUnit.reset_window u.body.type u.base

theorem issue_platform {k : Nat} {v : Word} {s t : State} (h : issue k v s = .next t) : t.platform = s.platform := by
  unfold issue at h
  split at h
  · cases h
  · split at h
    · injection h with h
      rw [← h, rejectCommand_platform]
      rfl
    · exact (exec_platform h).trans rfl

theorem perform_platform {s t : State} {r : Request} (h : perform s r = .next t) : t.platform = s.platform := by
  cases r with
  | reset => injection h with h; rw [← h, powerOn_platform]
  | outside _ | busError _ _ => cases h
  | read k off => injection h with h; rw [← h, doRead_platform]
  | write k off v => injection h with h; rw [← h, doWrite_platform]
  | command k v => exact issue_platform h

/-- Settles O20: a step carries out at most one request, and each request keeps the platform. -/
theorem stepKeepsThePlatform : Obligations.StepKeepsThePlatform := by
  intro s t h
  unfold step nextEvent at h
  split at h
  · injection h with h; rw [h]
  · exact (perform_platform h).trans rfl

end Sys2Proof.Machine
end

section
/-! `roundExact` answers the nearest magnitude code, ties to even, also for an exact value that its arguments only stand
for (00_scope.md R9). -/

namespace Sys2Proof.Machine

theorem codeValue_strictMono : StrictMono codeValue := fun _ _ h =>
  mul_lt_mul_of_pos_right (by exact_mod_cast units_strictMono h) (by positivity)

theorem codeValue_zero : codeValue 0 = 0 := by simp [codeValue, units]

/-- The value of the code made of an exponent and a significand. -/
theorem codeValue_eq {q : Int} {k : Nat} (hk : k ≤ 2 ^ 53) (hq : -1074 ≤ q) (h : q = -1074 ∨ 2 ^ 52 ≤ k) :
    codeValue ((q + 1074).toNat * 4503599627370496 + k) = k * 2 ^ q := by
  unfold codeValue
  rw [units_code hk (by omega), two_zpow_split q (-1074) hq, sub_neg_eq_add]
  push_cast
  ring

/-- `n` is the code nearest to `x`, the even one of two equally near; codes are unbounded here. -/
def NearestCode (x : ℚ) (n : Nat) : Prop :=
  ∀ c : Nat, |codeValue n - x| ≤ |codeValue c - x| ∧ (|codeValue n - x| = |codeValue c - x| → c = n ∨ n % 2 = 0)

/-- `k * 2^q` is `x` rounded to a multiple of `2^q`, ties to even, and `2^q` is the place at which `x` is to be rounded. -/
structure RoundsAt (x : ℚ) (q : Int) (k : Nat) : Prop where
  least : -1074 ≤ q
  error : |k * 2 ^ q - x| ≤ 2 ^ (q - 1)
  tie   : |k * 2 ^ q - x| = 2 ^ (q - 1) → k % 2 = 0
  low   : q = -1074 ∨ 2 ^ 52 * 2 ^ q ≤ x
  high  : x ≤ 2 ^ 53 * 2 ^ q

theorem two_zpow_pred (q : Int) : (2 : ℚ) ^ q = 2 * 2 ^ (q - 1) := by
  rw [← zpow_one_add₀ (by norm_num)]; congr 1; ring

section RoundsAt
variable {x : ℚ} {q : Int} {k : Nat} (h : RoundsAt x q k)
include h

theorem RoundsAt.le : k ≤ 2 ^ 53 := by
  have herr := (abs_le.1 h.error).2
  have hhigh := h.high
  have hp : (0 : ℚ) < 2 ^ (q - 1) := by positivity
  rw [two_zpow_pred q] at herr hhigh
  have : (k : ℚ) < 2 ^ 53 + 1 := by nlinarith
  exact Nat.lt_succ_iff.1 (by exact_mod_cast this)

theorem RoundsAt.ge : q = -1074 ∨ 2 ^ 52 ≤ k := by
  refine h.low.imp id fun hlow => ?_
  have herr := (abs_le.1 h.error).1
  have hp : (0 : ℚ) < 2 ^ (q - 1) := by positivity
  rw [two_zpow_pred q] at herr hlow
  have : (2 ^ 52 : ℚ) < k + 1 := by nlinarith
  exact Nat.lt_succ_iff.1 (by exact_mod_cast this)

theorem RoundsAt.value : codeValue ((q + 1074).toNat * 4503599627370496 + k) = k * 2 ^ q :=
  codeValue_eq h.le h.least h.ge

/-- Every greater code is at least one place further up, where `x` lies above the rounded value. -/
theorem RoundsAt.succ_le (hx : k * 2 ^ q < x) {c : Nat} (hc : (q + 1074).toNat * 4503599627370496 + k < c) :
    (k + 1) * 2 ^ q ≤ codeValue c := by
  have hk : k < 2 ^ 53 := by
    have := lt_of_mul_lt_mul_right (hx.trans_le h.high) (by positivity)
    exact_mod_cast this
  have hge := h.ge
  have heq := codeValue_eq (q := q) (k := k + 1) hk h.least (by omega)
  push_cast at heq
  rw [← heq]
  exact codeValue_mono (by omega)

/-- Every smaller code is at least one place further down, where `x` lies below the rounded value. -/
theorem RoundsAt.le_pred (hx : x < k * 2 ^ q) {c : Nat} (hc : c < (q + 1074).toNat * 4503599627370496 + k) :
    codeValue c ≤ (k - 1) * 2 ^ q := by
  have hlow : q = -1074 ∨ 2 ^ 52 < k := h.low.imp id fun hlow => by
    have := lt_of_mul_lt_mul_right (hlow.trans_lt hx) (by positivity)
    exact_mod_cast this
  have hk := h.le
  obtain ⟨j, rfl⟩ : ∃ j, k = j + 1 := ⟨k - 1, by omega⟩
  have hj := codeValue_eq (q := q) (k := j) (by omega) h.least (by omega)
  push_cast
  rw [add_sub_cancel_right, ← hj]
  exact codeValue_mono (by omega)

theorem RoundsAt.nearest : NearestCode x ((q + 1074).toNat * 4503599627370496 + k) := by
  intro c
  rw [h.value]
  have hq := two_zpow_pred q
  have herr := h.error
  have hp : (0 : ℚ) < 2 ^ q := by positivity
  have htie : |(k : ℚ) * 2 ^ q - x| = 2 ^ (q - 1) →
      ((q + 1074).toNat * 4503599627370496 + k) % 2 = 0 := fun ht => by have := h.tie ht; omega
  have hfar : 2 ^ (q - 1) ≤ |codeValue c - x| → |k * 2 ^ q - x| ≤ |codeValue c - x| ∧
      (|k * 2 ^ q - x| = |codeValue c - x| → ((q + 1074).toNat * 4503599627370496 + k) % 2 = 0) := fun hf =>
    ⟨herr.trans hf, fun he => htie (le_antisymm herr (he ▸ hf))⟩
  rcases lt_trichotomy c ((q + 1074).toNat * 4503599627370496 + k) with hc | rfl | hc
  · have hlt := codeValue_strictMono hc
    rw [h.value] at hlt
    rcases le_or_gt ((k : ℚ) * 2 ^ q) x with hx | hx
    · rw [abs_of_nonpos (by linarith), abs_of_neg (by linarith)]
      exact ⟨by linarith, fun he => by linarith⟩
    · have := h.le_pred hx hc
      obtain ⟨h1, h2⟩ := hfar (le_abs.2 (.inr (by linarith [(abs_le.1 herr).2])))
      exact ⟨h1, .inr ∘ h2⟩
  · rw [h.value]
    exact ⟨le_rfl, fun _ => .inl rfl⟩
  · have hlt := codeValue_strictMono hc
    rw [h.value] at hlt
    rcases le_or_gt x ((k : ℚ) * 2 ^ q) with hx | hx
    · rw [abs_of_nonneg (by linarith), abs_of_pos (by linarith)]
      exact ⟨by linarith, fun he => by linarith⟩
    · have := h.succ_le hx hc
      obtain ⟨h1, h2⟩ := hfar (le_abs.2 (.inl (by linarith [(abs_le.1 herr).1])))
      exact ⟨h1, .inr ∘ h2⟩

end RoundsAt

/-! ### What `roundExact` is given -/

/-- `m * 2^e` stands for `x` in the rounding: it is `x`, or `m` is odd, `x` lies strictly between the neighbours of `m`, and
the place to round at is at least two bits up. -/
def StandsFor (m : Nat) (e : Int) (x : ℚ) : Prop :=
  x = m * 2 ^ e ∨ (m % 2 = 1 ∧ e + 2 ≤ ulpExponent m e ∧ |x - m * 2 ^ e| < 2 ^ e)

/-- The place to round at beside the binade of `m * 2^e`. -/
theorem ulpExponent_binade (m : Nat) (e : Int) :
    (ulpExponent m e = -1074 ∨ (ulpExponent m e = e + Nat.log2 m - 52 ∧
      (2 : ℚ) ^ 52 * 2 ^ ulpExponent m e = 2 ^ Nat.log2 m * 2 ^ e)) ∧
    (2 : ℚ) ^ (Nat.log2 m + 1) * 2 ^ e ≤ 2 ^ 53 * 2 ^ ulpExponent m e := by
  have hq : ulpExponent m e = -1074 ∨ ulpExponent m e = e + Nat.log2 m - 52 := by unfold ulpExponent; omega
  have hle : e + Nat.log2 m - 52 ≤ ulpExponent m e := by unfold ulpExponent; omega
  constructor
  · refine hq.imp id fun hq => ⟨hq, ?_⟩
    rw [hq, ← zpow_natCast, ← zpow_natCast, ← zpow_add₀ (by norm_num), ← zpow_add₀ (by norm_num)]
    congr 1
    push_cast
    ring
  · rw [← zpow_natCast, ← zpow_natCast, ← zpow_add₀ (by norm_num), ← zpow_add₀ (by norm_num)]
    exact two_zpow_le (by push_cast; omega)

/-- The exact value `m * 2^e` is rounded at its place. -/
theorem roundsAt_exact {m : Nat} (hm : m ≠ 0) (e : Int) : RoundsAt (m * 2 ^ e) (ulpExponent m e) (rounded m e) where
  least := by unfold ulpExponent; omega
  error := (rounded_error m e).1
  tie := (rounded_error m e).2
  low := by
    refine (ulpExponent_binade m e).1.imp id fun ⟨_, hbin⟩ => hbin ▸ mul_le_mul_of_nonneg_right ?_ (by positivity)
    exact_mod_cast Nat.log2_self_le hm
  high := by
    refine le_trans (mul_le_mul_of_nonneg_right ?_ (by positivity)) (ulpExponent_binade m e).2
    exact_mod_cast Nat.lt_log2_self.le

/-- Cutting two or more bits off an odd integer: it and its neighbours lie strictly within half a place of the result. -/
theorem shiftRightEven_odd {m d : Nat} (hm : m % 2 = 1) (hd : 2 ≤ d) :
    2 * (m + 1) ≤ (2 * shiftRightEven m d + 1) * 2 ^ d ∧ 2 * shiftRightEven m d * 2 ^ d + 2 ≤ 2 * m + 2 ^ d := by
  obtain ⟨⟨h1, h2⟩, -⟩ := shiftRightEven_spec m d
  obtain ⟨j, rfl⟩ : ∃ j, d = j + 2 := ⟨d - 2, by omega⟩
  generalize shiftRightEven m (j + 2) = k at *
  rw [pow_add] at h1 h2 ⊢
  generalize 2 ^ j = D at *
  have e1 : (2 * k + 1) * (D * 2 ^ 2) = 8 * (k * D) + 4 * D := by ring
  have e2 : 2 * k * (D * 2 ^ 2) = 8 * (k * D) := by ring
  rw [e1] at h1 ⊢
  rw [e2] at h2 ⊢
  omega

/-- A value strictly between the neighbours of an odd `m` is rounded as `m` is. -/
theorem roundsAt_odd {m : Nat} {e : Int} {x : ℚ} (hm : m % 2 = 1) (he : e + 2 ≤ ulpExponent m e)
    (hx : |x - m * 2 ^ e| < 2 ^ e) : RoundsAt x (ulpExponent m e) (rounded m e) := by
  obtain ⟨hbin, htop⟩ := ulpExponent_binade m e
  have hE : (0 : ℚ) < 2 ^ e := by positivity
  obtain ⟨hx1, hx2⟩ := abs_lt.1 hx
  have herr : |rounded m e * 2 ^ ulpExponent m e - x| < 2 ^ (ulpExponent m e - 1) := by
    have hr : rounded m e = shiftRightEven m (ulpExponent m e - e).toNat := by unfold rounded; rw [if_neg (by omega)]
    obtain ⟨h1, h2⟩ := shiftRightEven_odd (d := (ulpExponent m e - e).toNat) hm (by omega)
    have hpred := two_zpow_pred (ulpExponent m e)
    rw [two_zpow_split _ e (by omega)] at hpred ⊢
    rw [hr]
    generalize shiftRightEven m (ulpExponent m e - e).toNat = k at *
    generalize (2 : Nat) ^ (ulpExponent m e - e).toNat = D at *
    generalize (2 : ℚ) ^ (ulpExponent m e - 1) = H at *
    generalize (2 : ℚ) ^ e = E at *
    have h1' : (2 * (m + 1) : ℚ) * E ≤ (2 * k + 1) * D * E := mul_le_mul_of_nonneg_right (by exact_mod_cast h1) hE.le
    have h2' : (2 * k * D + 2 : ℚ) * E ≤ (2 * m + D) * E := mul_le_mul_of_nonneg_right (by exact_mod_cast h2) hE.le
    exact abs_lt.2 ⟨by linarith, by linarith⟩
  refine ⟨by unfold ulpExponent; omega, herr.le, fun ht => absurd ht herr.ne, ?_, ?_⟩
  · refine hbin.imp id fun ⟨hq, hbin⟩ => ?_
    have hlow : 2 ^ Nat.log2 m + 1 ≤ m := by
      have hle : 2 ^ Nat.log2 m ≤ m := Nat.log2_self_le (by omega)
      obtain ⟨j, hj⟩ : ∃ j, Nat.log2 m = j + 1 := ⟨Nat.log2 m - 1, by omega⟩
      rw [hj, pow_succ] at hle ⊢
      omega
    have : ((2 : ℚ) ^ Nat.log2 m + 1) * 2 ^ e ≤ m * 2 ^ e := mul_le_mul_of_nonneg_right (by exact_mod_cast hlow) hE.le
    linarith
  · have hhigh : m + 1 ≤ 2 ^ (Nat.log2 m + 1) := Nat.lt_log2_self
    have : (m + 1 : ℚ) * 2 ^ e ≤ 2 ^ (Nat.log2 m + 1) * 2 ^ e := mul_le_mul_of_nonneg_right (by exact_mod_cast hhigh) hE.le
    linarith

/-- Twice a quotient is what `jam` stands for, where the integer part has 53 bits to spare. -/
theorem jam_standsFor {n d : Nat} (hd : 0 < d) (e : Int) (h : n % d ≠ 0 → 2 ^ 53 * d ≤ n) :
    StandsFor (jam (n / d) (n % d = 0)) e (2 * (n / d) * 2 ^ e) := by
  have hE : (0 : ℚ) < 2 ^ e := by positivity
  have hd' : (0 : ℚ) < d := by exact_mod_cast hd
  have hdiv : (d : ℚ) * ((n / d : Nat) : ℚ) + ((n % d : Nat) : ℚ) = n := by exact_mod_cast Nat.div_add_mod n d
  have hv : (n / d : ℚ) = ((n / d : Nat) : ℚ) + ((n % d : Nat) : ℚ) / d := by rw [← hdiv]; field_simp
  by_cases h0 : n % d = 0
  · left
    simp [jam, hv, h0]
  · right
    have hq : 2 ^ 53 ≤ n / d := (Nat.le_div_iff_mul_le hd).2 (h h0)
    have hr : ((n % d : Nat) : ℚ) / d < 1 := (div_lt_one hd').2 (by exact_mod_cast Nat.mod_lt n hd)
    have hr0 : 0 < ((n % d : Nat) : ℚ) / d := div_pos (by exact_mod_cast Nat.pos_of_ne_zero h0) hd'
    have hjam : jam (n / d) (n % d = 0) = 2 * (n / d) + 1 := by simp [jam, h0]
    rw [hjam, hv]
    refine ⟨by omega, ?_, ?_⟩
    · have : 54 ≤ Nat.log2 (2 * (n / d) + 1) := (Nat.le_log2 (by omega)).2 (by omega)
      unfold ulpExponent
      omega
    · push_cast
      rw [← sub_mul, abs_mul, abs_of_pos hE]
      exact mul_lt_of_lt_one_left hE (abs_lt.2 ⟨by linarith, by linarith⟩)

/-- The finite value of sign `s` and code `n`, the infinity of that sign where `n` is past the finite codes. -/
def saturate (s : Bool) (n : Nat) : F64 := if h : n < infCode then .fin s ⟨n, h⟩ else .inf s

/-- `roundExact` answers the code nearest to every value its arguments stand for. -/
theorem roundExact_nearest (s : Bool) {m : Nat} {e : Int} {x : ℚ} (h : StandsFor m e x) :
    ∃ n, NearestCode x n ∧ roundExact s m e = saturate s n := by
  by_cases hm : m = 0
  · obtain rfl : x = 0 := by
      rcases h with h | ⟨h, -⟩
      · simpa [hm] using h
      · omega
    refine ⟨0, fun c => ⟨?_, fun _ => .inr rfl⟩, by rw [roundExact, if_pos hm]; rfl⟩
    rw [codeValue_zero, sub_zero, abs_zero]
    exact abs_nonneg _
  · have hr : RoundsAt x (ulpExponent m e) (rounded m e) := by
      rcases h with rfl | ⟨hodd, he, hx⟩
      · exact roundsAt_exact hm e
      · exact roundsAt_odd hodd he hx
    exact ⟨_, hr.nearest, by unfold roundExact saturate rounded; rw [if_neg hm]⟩

end Sys2Proof.Machine
end

section
/-! The four operations round their exact result to nearest, ties to even; comparisons, small integers and floors are exact
(00_scope.md R8, R9; 40_common.md R105). -/

namespace Sys2Proof.Machine

/-! ### Signs and values -/

/-- `x` with its sign flipped where `s` is set. -/
def signed (s : Bool) (x : ℚ) : ℚ := if s then -x else x

@[simp] theorem signed_false (x : ℚ) : signed false x = x := rfl
@[simp] theorem signed_true (x : ℚ) : signed true x = -x := rfl
@[simp] theorem signed_zero (s : Bool) : signed s 0 = 0 := by cases s <;> simp
@[simp] theorem abs_signed (s : Bool) (x : ℚ) : |signed s x| = |x| := by cases s <;> simp
@[simp] theorem signed_eq_zero {s : Bool} {x : ℚ} : signed s x = 0 ↔ x = 0 := by cases s <;> simp

theorem signed_sub (s : Bool) (x y : ℚ) : signed s x - signed s y = signed s (x - y) := by
  cases s <;> simp; ring

theorem signed_not (s : Bool) (x : ℚ) : signed (!s) x = -signed s x := by cases s <;> simp

theorem signed_mul (s t : Bool) (x y : ℚ) : signed s x * signed t y = signed (s != t) (x * y) := by
  cases s <;> cases t <;> simp

theorem signed_div (s t : Bool) (x y : ℚ) : signed s x / signed t y = signed (s != t) (x / y) := by
  cases s <;> cases t <;> simp [neg_div, div_neg]

theorem signed_neg_iff {s : Bool} {x : ℚ} (h : 0 < x) : signed s x < 0 ↔ s = true := by
  cases s
  · simp [h.le]
  · simp [h]

theorem valueOf_eq_signed (s : Bool) (m : Fin infCode) :
    valueOf (.fin s m) = signed s (significand m * 2 ^ exponent m) := by
  cases s <;> simp [valueOf]

theorem valueOf_eq_codeValue (s : Bool) (m : Fin infCode) : valueOf (.fin s m) = signed s (codeValue m.val) := by
  rw [valueOf_fin, codeValue]; cases s <;> simp

/-- A finite value is its sign and its code. -/
theorem eq_saturate_of_isFinite {y : F64} (h : isFinite y = true) :
    ∃ s n, n < infCode ∧ y = saturate s n := by
  cases y with
  | nan _ | inf _ => cases h
  | fin s m => exact ⟨s, m.val, m.isLt, by simp [saturate]⟩

theorem saturate_of_lt (s : Bool) {n : Nat} (h : n < infCode) : saturate s n = .fin s ⟨n, h⟩ := dif_pos h

theorem saturate_of_le (s : Bool) {n : Nat} (h : infCode ≤ n) : saturate s n = .inf s := dif_neg (by omega)

@[simp] theorem saturate_signBit (s : Bool) (n : Nat) : (saturate s n).signBit = s := by
  unfold saturate; split <;> rfl

theorem valueOf_saturate (s : Bool) {n : Nat} (h : n < infCode) : valueOf (saturate s n) = signed s (codeValue n) := by
  rw [saturate_of_lt s h, valueOf_eq_codeValue]

theorem saturate_toBits_even (s : Bool) {n : Nat} (h : n < infCode) (he : n % 2 = 0) :
    (saturate s n).toBits.getLsbD 0 = false := by
  rw [saturate_of_lt s h, BitVec.getLsbD, Nat.testBit_zero, F64.toBits_toNat]
  refine decide_eq_false ?_
  show ¬ (_ * 9223372036854775808 + n) % 2 = 1
  omega

/-! ### Overflow -/

/-- The code of infinity is where the next value would stand. -/
theorem codeValue_infCode : codeValue infCode = 2 ^ 54 * 2 ^ 970 := by
  have h := codeValue_eq (q := 971) (k := 2 ^ 53) (by norm_num) (by norm_num) (by norm_num)
  rw [show infCode = ((971 : Int) + 1074).toNat * 4503599627370496 + 2 ^ 53 from rfl, h, two_zpow_pred,
    show (971 : Int) - 1 = (970 : Nat) from rfl, zpow_natCast]
  generalize (2 : ℚ) ^ 970 = H
  norm_num
  ring

/-- The largest finite value. -/
theorem codeValue_largest : codeValue (infCode - 1) = (2 ^ 54 - 2) * 2 ^ 970 := by
  have h := codeValue_eq (q := 971) (k := 2 ^ 53 - 1) (by norm_num) (by norm_num) (by norm_num)
  rw [show infCode - 1 = ((971 : Int) + 1074).toNat * 4503599627370496 + (2 ^ 53 - 1) from rfl, h, two_zpow_pred,
    show (971 : Int) - 1 = (970 : Nat) from rfl, zpow_natCast]
  generalize (2 : ℚ) ^ 970 = H
  norm_num
  ring

/-- The nearest code is finite below the value halfway above the largest finite one, and there alone. -/
theorem NearestCode.lt_infCode_iff {x : ℚ} {n : Nat} (h : NearestCode x n) :
    n < infCode ↔ x < 2 ^ 1024 - 2 ^ 970 := by
  have hinf := codeValue_infCode
  have hmax := codeValue_largest
  have hH : (0 : ℚ) < 2 ^ 970 := by positivity
  rw [show (2 : ℚ) ^ 1024 = 2 ^ 54 * 2 ^ 970 from pow_add 2 54 970]
  generalize (2 : ℚ) ^ 970 = H at *
  constructor
  · intro hn
    by_contra hx
    have hle := codeValue_mono (show n ≤ infCode - 1 by omega)
    obtain ⟨hnear, htie⟩ := h infCode
    have heq : |codeValue n - x| = |codeValue infCode - x| := by
      refine le_antisymm hnear (abs_le.2 ⟨?_, ?_⟩) <;> rw [abs_of_nonpos (by linarith)] <;> linarith
    have hodd : n = infCode - 1 := by
      refine codeValue_strictMono.injective (le_antisymm hle ?_)
      rw [abs_of_nonpos (by linarith)] at heq
      rcases abs_cases (codeValue infCode - x) with ⟨he, -⟩ | ⟨he, -⟩ <;> rw [he] at heq <;> linarith
    rcases htie heq with rfl | heven
    · omega
    · rw [hodd] at heven
      exact absurd heven (by decide)
  · intro hx
    by_contra hn
    have hge := codeValue_mono (show infCode ≤ n by omega)
    have hnear := (h (infCode - 1)).1
    rw [abs_of_pos (by linarith)] at hnear
    rcases abs_cases (codeValue (infCode - 1) - x) with ⟨he, -⟩ | ⟨he, -⟩ <;> rw [he] at hnear <;> linarith

theorem lt_overflow {x : ℚ} (h : x ≤ 2 ^ 55) : x < 2 ^ 1024 - 2 ^ 970 := by
  have hH : (2 : ℚ) ^ 56 ≤ 2 ^ 970 := pow_le_pow_right₀ (by norm_num) (by norm_num)
  rw [show (2 : ℚ) ^ 1024 = 2 ^ 54 * 2 ^ 970 from pow_add 2 54 970]
  generalize (2 : ℚ) ^ 970 = H at *
  norm_num at h hH ⊢
  linarith

/-! ### Rounding to nearest -/

/-- `z` is the exact result rounded (R9): its sign bit, `zeroSign` where the exact result is 0; the overflow to infinity; the
nearest finite value, the one with the even significand of two equally near. -/
def RoundedTo (z : F64) (exact : ℚ) (zeroSign : Bool) : Prop :=
  z.signBit = (if exact = 0 then zeroSign else decide (exact < 0)) ∧
  (2 ^ 1024 - 2 ^ 970 ≤ |exact| → z = .inf (decide (exact < 0))) ∧
  (|exact| < 2 ^ 1024 - 2 ^ 970 → isFinite z = true ∧ ∀ y : F64, isFinite y = true →
    |valueOf z - exact| ≤ |valueOf y - exact| ∧
    (|valueOf z - exact| = |valueOf y - exact| → valueOf y = valueOf z ∨ z.toBits.getLsbD 0 = false))

/-- Among the finite values of both signs, the one with the nearest code and the sign of the exact result is nearest. -/
theorem NearestCode.nearest_value {x : ℚ} {n : Nat} (h : NearestCode x n) (hx : 0 ≤ x) (hn : n < infCode) (s : Bool)
    {y : F64} (hy : isFinite y = true) :
    |valueOf (saturate s n) - signed s x| ≤ |valueOf y - signed s x| ∧
    (|valueOf (saturate s n) - signed s x| = |valueOf y - signed s x| →
      valueOf y = valueOf (saturate s n) ∨ (saturate s n).toBits.getLsbD 0 = false) := by
  obtain ⟨t, c, hc, rfl⟩ := eq_saturate_of_isFinite hy
  rw [valueOf_saturate s hn, valueOf_saturate t hc, signed_sub, abs_signed]
  have heven := saturate_toBits_even s hn
  by_cases hts : t = s
  · subst hts
    rw [signed_sub, abs_signed]
    exact ⟨(h c).1, fun he => ((h c).2 he).imp (by rintro rfl; rfl) heven⟩
  · obtain rfl : t = !s := Bool.eq_not.2 hts
    have hc0 := codeValue_nonneg c
    have hfar : |signed (!s) (codeValue c) - signed s x| = codeValue c + x := by
      rw [signed_not, ← neg_add', abs_neg]
      cases s
      · exact abs_of_nonneg (by simp; linarith)
      · rw [signed_true, signed_true, ← neg_add, abs_neg, abs_of_nonneg (by linarith)]
    obtain ⟨hle, htie⟩ := h 0
    rw [codeValue_zero, zero_sub, abs_neg, abs_of_nonneg hx] at hle htie
    rw [hfar]
    refine ⟨by linarith, fun he => (htie (by linarith)).imp ?_ heven⟩
    rintro rfl
    rw [codeValue_zero, zero_sub, abs_neg, abs_of_nonneg hx] at he
    rw [codeValue_zero, show codeValue c = 0 by linarith, signed_zero, signed_zero]

theorem NearestCode.roundedTo {x : ℚ} {n : Nat} (h : NearestCode x n) (hx : 0 ≤ x) {s zeroSign : Bool}
    (h0 : x = 0 → s = zeroSign) : RoundedTo (saturate s n) (signed s x) zeroSign := by
  have hsign : signed s x ≠ 0 → decide (signed s x < 0) = s := fun hne => by
    have hpos : 0 < x := lt_of_le_of_ne hx fun he => hne (by rw [← he, signed_zero])
    rw [Bool.decide_congr (signed_neg_iff hpos), Bool.decide_eq_true]
  refine ⟨?_, fun hbig => ?_, fun hsmall => ?_⟩
  · rw [saturate_signBit]
    split
    · rename_i he
      exact h0 (signed_eq_zero.1 he)
    · rename_i hne
      exact (hsign hne).symm
  · rw [abs_signed, abs_of_nonneg hx] at hbig
    have hne : signed s x ≠ 0 := fun he => absurd hbig (not_le.2 (lt_overflow (by rw [signed_eq_zero.1 he]; norm_num)))
    rw [hsign hne, saturate_of_le s (not_lt.1 (mt h.lt_infCode_iff.1 (not_lt.2 hbig)))]
  · rw [abs_signed, abs_of_nonneg hx] at hsmall
    have hn := h.lt_infCode_iff.2 hsmall
    exact ⟨by rw [saturate_of_lt s hn]; rfl, fun y hy => h.nearest_value hx hn s hy⟩

theorem StandsFor.roundedTo {m : Nat} {e : Int} {x : ℚ} (h : StandsFor m e x) (hx : 0 ≤ x) {s zeroSign : Bool}
    (h0 : x = 0 → s = zeroSign) : RoundedTo (roundExact s m e) (signed s x) zeroSign := by
  obtain ⟨n, hn, hr⟩ := roundExact_nearest s h
  rw [hr]
  exact hn.roundedTo hx h0

/-- An integer over a power of two, where a zero has the sign it is given. -/
theorem roundExact_int_roundedTo (t e : Int) (zeroSign : Bool) :
    RoundedTo (if t = 0 then .fin zeroSign ⟨0, by decide⟩ else roundExact (decide (t < 0)) t.natAbs e) (t * 2 ^ e)
      zeroSign := by
  have hval : (t : ℚ) * 2 ^ e = signed (decide (t < 0)) (t.natAbs * 2 ^ e) := by
    rw [Nat.cast_natAbs]
    by_cases h : t < 0
    · rw [decide_eq_true h, abs_of_neg h]; simp
    · rw [decide_eq_false h, abs_of_nonneg (not_lt.1 h)]; simp
  split
  · rename_i h0
    have h := StandsFor.roundedTo (m := 0) (e := e) (x := 0) (s := zeroSign) (.inl (by simp)) le_rfl fun _ => rfl
    rw [signed_zero] at h
    rwa [h0, Int.cast_zero, zero_mul]
  · rename_i h0
    rw [hval]
    have hne : (t.natAbs : ℚ) * 2 ^ e ≠ 0 := mul_ne_zero (by simpa using h0) (by positivity)
    exact StandsFor.roundedTo (.inl rfl) (by positivity) fun hx => absurd hx hne

/-! ### The four operations -/

theorem eq_fin_of_isFinite {a : F64} (h : isFinite a = true) : ∃ s m, a = .fin s m := by
  cases a with
  | nan _ | inf _ => cases h
  | fin s m => exact ⟨s, m, rfl⟩

/-- A finite value over a smaller exponent. -/
theorem scaled_value (s : Bool) (m : Fin infCode) {e : Int} (he : e ≤ exponent m) :
    valueOf (.fin s m) = ((if s then -((significand m * 2 ^ (exponent m - e).toNat : Nat) : Int)
      else (significand m * 2 ^ (exponent m - e).toNat : Nat) : Int) : ℚ) * 2 ^ e := by
  rw [valueOf_eq_signed, two_zpow_split _ e he]
  cases s <;> simp [mul_assoc]

theorem fadd_roundedTo (n : NanBits) {a b : F64} (ha : isFinite a = true) (hb : isFinite b = true) :
    RoundedTo (fadd n a b) (valueOf a + valueOf b) (a.signBit && b.signBit) := by
  obtain ⟨sa, ma, rfl⟩ := eq_fin_of_isFinite ha
  obtain ⟨sb, mb, rfl⟩ := eq_fin_of_isFinite hb
  show RoundedTo (addFinite sa ma sb mb) _ (sa && sb)
  rw [addFinite_eq sa ma sb mb _ _ _ _ rfl rfl rfl rfl, scaled_value sa ma (min_le_left _ (exponent mb)),
    scaled_value sb mb (min_le_right (exponent ma) _), ← add_mul, ← Int.cast_add]
  exact roundExact_int_roundedTo _ _ _

theorem fneg_signBit (a : F64) : (fneg a).signBit = !a.signBit := by cases a <;> rfl

theorem fneg_isFinite (a : F64) : isFinite (fneg a) = isFinite a := by cases a <;> rfl

theorem valueOf_fneg (a : F64) : valueOf (fneg a) = -valueOf a := by
  cases a with
  | nan _ | inf _ => exact neg_zero.symm
  | fin s m => rw [fneg, valueOf_eq_signed, valueOf_eq_signed, signed_not]

theorem fsub_roundedTo (n : NanBits) {a b : F64} (ha : isFinite a = true) (hb : isFinite b = true) :
    RoundedTo (fsub n a b) (valueOf a - valueOf b) (a.signBit && !b.signBit) := by
  rw [sub_eq_add_neg, ← valueOf_fneg, ← fneg_signBit]
  exact fadd_roundedTo n ha (by rwa [fneg_isFinite])

theorem fmul_roundedTo (n : NanBits) {a b : F64} (ha : isFinite a = true) (hb : isFinite b = true) :
    RoundedTo (fmul n a b) (valueOf a * valueOf b) (a.signBit != b.signBit) := by
  obtain ⟨sa, ma, rfl⟩ := eq_fin_of_isFinite ha
  obtain ⟨sb, mb, rfl⟩ := eq_fin_of_isFinite hb
  rw [valueOf_eq_signed, valueOf_eq_signed, signed_mul]
  refine StandsFor.roundedTo (.inl ?_) (by positivity) fun _ => rfl
  rw [zpow_add₀ (by norm_num)]
  push_cast
  ring

theorem significand_eq_zero {m : Fin infCode} : significand m = 0 ↔ m.val = 0 := by
  unfold significand
  split <;> omega

/-- The quotient of two magnitudes is what `divFinite` jams. -/
theorem quotient_standsFor (ma : Fin infCode) {mb : Fin infCode} (hb : significand mb ≠ 0) :
    StandsFor (jam (significand ma * 2 ^ 120 / significand mb) (significand ma * 2 ^ 120 % significand mb = 0))
      (exponent ma - exponent mb - 121)
      (significand ma * 2 ^ exponent ma / (significand mb * 2 ^ exponent mb)) := by
  have hspare : significand ma * 2 ^ 120 % significand mb ≠ 0 → 2 ^ 53 * significand mb ≤ significand ma * 2 ^ 120 := by
    intro hr
    have ha : significand ma ≠ 0 := fun h => hr (by rw [h, zero_mul, Nat.zero_mod])
    have := significand_lt mb
    omega
  convert jam_standsFor (Nat.pos_of_ne_zero hb) (exponent ma - exponent mb - 121) hspare using 1
  have hb' : (significand mb : ℚ) ≠ 0 := by exact_mod_cast hb
  rw [sub_eq_add_neg, sub_eq_add_neg, zpow_add₀ (by norm_num), zpow_add₀ (by norm_num), zpow_neg]
  push_cast
  field_simp
  norm_num

theorem fdiv_roundedTo (n : NanBits) {a b : F64} (ha : isFinite a = true) (hb : isFinite b = true) (h0 : valueOf b ≠ 0) :
    RoundedTo (fdiv n a b) (valueOf a / valueOf b) (a.signBit != b.signBit) := by
  obtain ⟨sa, ma, rfl⟩ := eq_fin_of_isFinite ha
  obtain ⟨sb, mb, rfl⟩ := eq_fin_of_isFinite hb
  have hb0 : significand mb ≠ 0 := fun h => h0 (by rw [valueOf_eq_signed, h]; simp)
  rw [valueOf_eq_signed, valueOf_eq_signed, signed_div]
  simp only [fdiv, if_neg (mt significand_eq_zero.2 hb0)]
  exact (quotient_standsFor ma hb0).roundedTo (by positivity) fun _ => rfl

/-! ### Comparison, integers, floor -/

theorem keyValue_of_neg {k : Int} (h : k < 0) : keyValue k = -codeValue k.natAbs := by
  rw [keyValue, if_pos h, neg_one_mul]

theorem keyValue_of_nonneg {k : Int} (h : 0 ≤ k) : keyValue k = codeValue k.natAbs := by
  rw [keyValue, if_neg (by omega), one_mul]

theorem keyValue_strictMono : StrictMono keyValue := by
  intro a b hab
  by_cases hb : b < 0
  · rw [keyValue_of_neg hb, keyValue_of_neg (hab.trans hb)]
    exact neg_lt_neg (codeValue_strictMono (by omega))
  · by_cases ha : a < 0
    · rw [keyValue_of_neg ha, keyValue_of_nonneg (not_lt.1 hb)]
      have hpos := codeValue_strictMono (show 0 < a.natAbs by omega)
      rw [codeValue_zero] at hpos
      linarith [codeValue_nonneg b.natAbs]
    · rw [keyValue_of_nonneg (not_lt.1 ha), keyValue_of_nonneg (by omega)]
      exact codeValue_strictMono (by omega)

theorem valueOf_eq_keyValue {a : F64} (h : isFinite a = true) : valueOf a = keyValue (orderKey a) := by
  obtain ⟨s, m, rfl⟩ := eq_fin_of_isFinite h
  rw [valueOf_eq_codeValue]
  cases s with
  | false => rw [orderKey, if_neg Bool.false_ne_true, keyValue_of_nonneg (by omega)]; rfl
  | true =>
    rw [orderKey, if_pos rfl]
    by_cases h0 : m.val = 0
    · rw [h0]; simp [keyValue, codeValue_zero]
    · rw [keyValue_of_neg (by omega), Int.natAbs_neg]; rfl

theorem flt_iff_valueOf {a b : F64} (ha : isFinite a = true) (hb : isFinite b = true) :
    flt a b = true ↔ valueOf a < valueOf b := by
  rw [valueOf_eq_keyValue ha, valueOf_eq_keyValue hb, keyValue_strictMono.lt_iff_lt]
  obtain ⟨sa, ma, rfl⟩ := eq_fin_of_isFinite ha
  obtain ⟨sb, mb, rfl⟩ := eq_fin_of_isFinite hb
  simp [flt, isNaN]

/-- Every natural number up to `2^53` is the value of a code: moved up until it has 53 bits. -/
theorem exists_code_nat {m : Nat} (h : m ≤ 2 ^ 53) : ∃ c, codeValue c = m := by
  by_cases h0 : m = 0
  · exact ⟨0, by rw [h0, codeValue_zero, Nat.cast_zero]⟩
  obtain ⟨j, hj⟩ : ∃ j, j = 52 - Nat.log2 m := ⟨_, rfl⟩
  have hlow : 2 ^ 52 ≤ m * 2 ^ j :=
    calc 2 ^ 52 ≤ 2 ^ Nat.log2 m * 2 ^ j := by rw [← pow_add]; exact Nat.pow_le_pow_right (by decide) (by omega)
      _ ≤ m * 2 ^ j := Nat.mul_le_mul_right _ (Nat.log2_self_le h0)
  have hhigh : m * 2 ^ j ≤ 2 ^ 53 := by
    by_cases hj0 : j = 0
    · rw [hj0, pow_zero, mul_one]; exact h
    · calc m * 2 ^ j ≤ 2 ^ (Nat.log2 m + 1) * 2 ^ j := Nat.mul_le_mul_right _ Nat.lt_log2_self.le
        _ = 2 ^ 53 := by rw [← pow_add]; congr 1; omega
  refine ⟨_, (codeValue_eq (q := -j) hhigh (by omega) (.inr hlow)).trans ?_⟩
  rw [zpow_neg, zpow_natCast]
  push_cast
  exact mul_inv_cancel_right₀ (by positivity) _

/-- Every integer up to `2^53` in magnitude is a finite value. -/
theorem exists_value_int {i : Int} (h : |i| ≤ 2 ^ 53) : ∃ y, isFinite y = true ∧ valueOf y = i := by
  have hm : i.natAbs ≤ 2 ^ 53 := by rw [Int.abs_eq_natAbs] at h; omega
  obtain ⟨c, hc⟩ := exists_code_nat hm
  have hlt : c < infCode := by
    by_contra hge
    have hge := codeValue_mono (not_lt.1 hge)
    rw [hc, codeValue_infCode] at hge
    have hH : (1 : ℚ) ≤ 2 ^ 970 := one_le_pow₀ (by norm_num)
    have hi : ((i.natAbs : Nat) : ℚ) ≤ 2 ^ 53 := by exact_mod_cast hm
    generalize (2 : ℚ) ^ 970 = H at *
    norm_num at hge hi
    linarith
  refine ⟨.fin (decide (i < 0)) ⟨c, hlt⟩, rfl, ?_⟩
  rw [valueOf_eq_codeValue]
  show signed _ (codeValue c) = i
  rw [hc, Nat.cast_natAbs]
  by_cases hi : i < 0
  · rw [decide_eq_true hi, abs_of_neg hi]; simp
  · rw [decide_eq_false hi, abs_of_nonneg (not_lt.1 hi)]; simp

theorem i2f_roundedTo (i : Int) : RoundedTo (i2f i) i false := by
  have h := roundExact_int_roundedTo i 0 false
  rw [zpow_zero, mul_one] at h
  convert h using 1
  split
  · rename_i h0; rw [h0]; rfl
  · rfl

/-- An exact result that is a value is the answer. -/
theorem RoundedTo.exact {z y : F64} {x : ℚ} {zeroSign : Bool} (h : RoundedTo z x zeroSign)
    (hx : |x| < 2 ^ 1024 - 2 ^ 970) (hy : isFinite y = true) (hyx : valueOf y = x) : isFinite z = true ∧ valueOf z = x := by
  obtain ⟨-, -, hnear⟩ := h
  obtain ⟨hfin, hnear⟩ := hnear hx
  have hle := (hnear y hy).1
  rw [hyx, sub_self, abs_zero] at hle
  exact ⟨hfin, sub_eq_zero.1 (abs_nonpos_iff.1 hle)⟩

theorem i2f_exact {i : Int} (h : |i| ≤ 2 ^ 53) : isFinite (i2f i) = true ∧ valueOf (i2f i) = i := by
  obtain ⟨y, hy, hyi⟩ := exists_value_int h
  have hi : |(i : ℚ)| ≤ 2 ^ 53 := by exact_mod_cast h
  exact (i2f_roundedTo i).exact (lt_overflow (hi.trans (by norm_num))) hy hyi

theorem ffloor_eq_floor {a : F64} (h : isFinite a = true) : ffloor a = ⌊valueOf a⌋ := by
  obtain ⟨s, m, rfl⟩ := eq_fin_of_isFinite h
  have hval : valueOf (.fin s m) = ((if s then -(significand m : Int) else significand m : Int) : ℚ) * 2 ^ exponent m := by
    rw [valueOf_eq_signed]; cases s <;> simp
  rw [hval]
  simp only [ffloor]
  generalize (if s then -(significand m : Int) else significand m : Int) = v
  generalize exponent m = e
  split
  · rename_i he
    rw [← Int.toNat_of_nonneg he, zpow_natCast, Int.toNat_natCast]
    exact_mod_cast (Int.floor_intCast (R := ℚ) (v * 2 ^ e.toNat)).symm
  · rename_i he
    have hpow : (2 : ℚ) ^ e = (((2 ^ (-e).toNat : Nat) : ℚ))⁻¹ := by
      rw [Nat.cast_pow, Nat.cast_ofNat, ← zpow_natCast, ← zpow_neg]; congr 1; omega
    rw [hpow, ← div_eq_mul_inv, Rat.floor_intCast_div_natCast]
    push_cast
    rfl

/-- Settles O60: each operation's exact result is rounded to the nearest code, and the sign is put back. -/
theorem sumsAndProductsRoundToNearest : Obligations.SumsAndProductsRoundToNearest := by
  refine ⟨fun n a b z exact zeroSign ha hb h => ?_, fun a b ha hb => flt_iff_valueOf ha hb, fun i hi => i2f_exact hi,
    fun a ha => ffloor_eq_floor ha⟩
  show RoundedTo z exact zeroSign
  rcases h with ⟨rfl, rfl, rfl⟩ | ⟨rfl, rfl, rfl⟩ | ⟨rfl, rfl, rfl⟩ | ⟨rfl, h0, rfl, rfl⟩
  · exact fadd_roundedTo n ha hb
  · exact fsub_roundedTo n ha hb
  · exact fmul_roundedTo n ha hb
  · exact fdiv_roundedTo n ha hb h0

end Sys2Proof.Machine
end

section
/-! A comb gain is a power of ten at a negative argument, so it lies in [0, 1] (43_reverberator.md R225). -/

namespace Sys2Proof.Machine

/-- A finite value below 0 is a nonzero magnitude with the sign bit set. -/
theorem eq_fin_true_of_valueOf_neg {a : F64} (ha : isFinite a = true) (h : valueOf a < 0) :
    ∃ m : Fin infCode, a = .fin true m ∧ m.val ≠ 0 := by
  obtain ⟨s, m, rfl⟩ := eq_fin_of_isFinite ha
  rw [valueOf_eq_codeValue] at h
  have hc := codeValue_nonneg m.val
  cases s with
  | false => exact absurd h (not_lt.2 hc)
  | true => exact ⟨m, rfl, fun h0 => by rw [h0, codeValue_zero, signed_zero] at h; exact lt_irrefl _ h⟩

/-- A finite value above `+0.0` has a clear sign bit. -/
theorem plus_of_fgt_zero {a : F64} (ha : isFinite a = true) (h : fgt a F64.zero = true) : Plus a := by
  obtain ⟨s, m, rfl⟩ := eq_fin_of_isFinite ha
  cases s with
  | false => exact ⟨m, rfl⟩
  | true =>
    have hlt := (flt_iff_valueOf rfl ha).1 h
    rw [F64.zero, valueOf_eq_codeValue, valueOf_eq_codeValue, signed_false, signed_true, codeValue_zero] at hlt
    exact absurd hlt (not_lt.2 (neg_nonpos.2 (codeValue_nonneg _)))

theorem roundExact_eq_saturate (s : Bool) (m : Nat) (e : Int) : ∃ n, roundExact s m e = saturate s n := by
  obtain ⟨n, -, h⟩ := roundExact_nearest s (m := m) (e := e) (.inl rfl)
  exact ⟨n, h⟩

theorem Plus.mul_eq_saturate (n : NanBits) {a b : F64} (ha : Plus a) (hb : Plus b) :
    ∃ c, fmul n a b = saturate false c := by
  obtain ⟨ma, rfl⟩ := ha
  obtain ⟨mb, rfl⟩ := hb
  exact roundExact_eq_saturate ..

/-- A nonzero value with the sign bit set over one with a clear sign bit, a zero or the infinity: the sign bit is set and the
quotient is not NaN. -/
theorem fdiv_neg_eq_saturate (n : NanBits) {m : Fin infCode} (hm : m.val ≠ 0) (c : Nat) :
    ∃ c', fdiv n (.fin true m) (saturate false c) = saturate true c' := by
  by_cases hc : c < infCode
  · rw [saturate_of_lt false hc]
    by_cases h0 : c = 0
    · exact ⟨infCode, by simp [fdiv, h0, hm, saturate_of_le]⟩
    · simp only [fdiv, if_neg h0]
      exact roundExact_eq_saturate ..
  · rw [saturate_of_le false (not_lt.1 hc)]
    exact ⟨0, rfl⟩

theorem valueOf_minusThree : valueOf Config.minusThree = -3 := by
  rw [show Config.minusThree = .fin true ⟨0x4008000000000000, by decide⟩ by decide]
  unfold valueOf significand exponent
  norm_num

/-- The rounded `-3.0 * l` of a length is finite and below 0. -/
theorem numerator_neg (n : NanBits) {l : Nat} (h1 : 1 ≤ l) (h2 : l < 2 ^ 53) :
    isFinite (fmul n Config.minusThree (i2f l)) = true ∧ valueOf (fmul n Config.minusThree (i2f l)) < 0 := by
  obtain ⟨hfin, hval⟩ := i2f_exact (i := l) (by rw [Int.abs_eq_natAbs]; omega)
  obtain ⟨-, -, hnear⟩ := fmul_roundedTo n (show isFinite Config.minusThree = true by decide) hfin
  have hl1 : (1 : ℚ) ≤ l := by exact_mod_cast h1
  have hl2 : (l : ℚ) < 2 ^ 53 := by exact_mod_cast h2
  rw [valueOf_minusThree, hval, Int.cast_natCast] at hnear
  obtain ⟨hfin', hnear⟩ := hnear (lt_overflow (by rw [abs_of_nonpos (by linarith)]; linarith))
  have hle := (hnear Config.minusThree (by decide)).1
  rw [valueOf_minusThree, abs_of_nonneg (show (0 : ℚ) ≤ -3 - -3 * l by linarith)] at hle
  exact ⟨hfin', by linarith [(abs_le.1 hle).2]⟩

/-- `pow10F` of a value with the sign bit set, a zero or the infinity, lies in [0, 1]. -/
theorem pow10F_inRange (c : Nat) : InRange F64.zero (pow10F (saturate true c)) Config.one := by
  by_cases hc : c < infCode
  · rw [saturate_of_lt true hc]
    obtain ⟨⟨m, hm, hle⟩, -⟩ := pow10F_near ⟨c, hc⟩
    rw [hm, show Config.one = .fin false ⟨0x3FF0000000000000, by decide⟩ by decide]
    constructor
    · simp [fle, isNaN, orderKey, F64.zero]
    · simp [fle, isNaN, orderKey]; omega
  · rw [saturate_of_le true (not_lt.1 hc)]
    show InRange F64.zero F64.zero Config.one
    exact ⟨by decide, by decide⟩

/-- Settles O51: the argument of the power of ten is negative, whether or not `t60 * sr` underflows or overflows. -/
theorem combGainsLieInZeroOne : Obligations.CombGainsLieInZeroOne := by
  intro ν k l t60 sr h1 h2 ht ht0 hs hs0
  obtain ⟨hfin, hneg⟩ := numerator_neg (ν (16 * k)) h1 h2
  obtain ⟨m, hm, hm0⟩ := eq_fin_true_of_valueOf_neg hfin hneg
  obtain ⟨d, hd⟩ := (plus_of_fgt_zero ht ht0).mul_eq_saturate (ν (16 * k + 1)) (plus_of_fgt_zero hs hs0)
  obtain ⟨c, hc⟩ := fdiv_neg_eq_saturate (ν (16 * k + 2)) hm0 d
  rw [combGain, hm, hd, hc]
  exact pow10F_inRange c

end Sys2Proof.Machine
end

section
/-! What a step does to the units (20_memory.md R60, R70; 40_common.md R100), and how a property of every unit is carried over
a step: the bus can reset, write and refuse, everything else is a command. -/

namespace Sys2Proof.Machine

theorem step_nil {s : State} (h : s.bus = []) : step s = .next s := by
  simp [step, nextEvent, h]

theorem step_cons {s : State} {e : Event} {rest : List Event} (h : s.bus = e :: rest) :
    step s = perform { s with bus := rest } (s.request e) := by
  simp [step, nextEvent, h]

@[simp] theorem DspUnit.writeReg_body (u : DspUnit) (off : Nat) (v : Word) : (u.writeReg off v).body = u.body := by
  unfold DspUnit.writeReg
  split <;> rfl

@[simp] theorem DspUnit.reset_body (t : UnitType) (b : Nat) : (DspUnit.reset t b).body = Body.reset t := rfl

/-- An error leaves the internal state, or resets it. -/
theorem DspUnit.raise_body (u : DspUnit) (c : ErrCode) :
    (u.raise c).body = u.body ∨ (u.raise c).body = Body.reset u.body.type := by
  unfold DspUnit.raise
  split
  · exact .inr rfl
  · exact .inl rfl

theorem forall_mem_set {P : DspUnit → Prop} {l : List DspUnit} {u' : DspUnit} (k : Nat) (hl : ∀ u ∈ l, P u) (hu : P u') :
    ∀ u ∈ l.set k u', P u := by
  intro u hmem
  rcases List.mem_or_eq_of_mem_set hmem with hmem | rfl
  · exact hl u hmem
  · exact hu

/-- `P` is kept by what the bus itself can do to a unit: power-on reset, a register write, a command word that the unit's
decoder refuses. -/
structure KeptByBus (P : DspUnit → Prop) : Prop where
  reset    : ∀ t b, P (DspUnit.reset t b)
  writeReg : ∀ u off v, P u → P (u.writeReg off v)
  refuse   : ∀ (u : DspUnit) v c, decode u.body.type v = .error c → P u → P (u.raise c)

section Units
variable {P : DspUnit → Prop} {s t : State}

/-- A command keeps `P` of every unit where `Execute` keeps it of the addressed one. -/
theorem runCommand_forall_units {σ : Type} {fam : Family σ} {c : Command σ}
    (hexec : ∀ ν u, P u → P (u.execute fam c ν)) (hs : ∀ u ∈ s.units, P u) (h : runCommand fam c s = .next t) :
    ∀ u ∈ t.units, P u := by
  obtain ⟨u, hu, rfl⟩ := runCommand_next h
  exact forall_mem_set s.sel hs (hexec _ u (hs u (List.mem_of_getElem? hu)))

variable (hP : KeptByBus P) (hs : ∀ u ∈ s.units, P u)
include hP hs

theorem issue_forall_units {k : Nat} {v : Word}
    (hexec : ∀ i, exec i { s with sel := k } = .next t → ∀ u ∈ t.units, P u) (h : issue k v s = .next t) :
    ∀ u ∈ t.units, P u := by
  unfold issue at h
  split at h
  · cases h
  · rename_i u hu
    split at h
    · rename_i c hc
      injection h with h
      rw [← h]
      simp only [State.rejectCommand, hu]
      exact forall_mem_set k hs (hP.refuse u v c hc (hs u (List.mem_of_getElem? hu)))
    · exact hexec _ h

theorem doWrite_forall_units (k off : Nat) (v : Word) : ∀ u ∈ (s.doWrite k off v).units, P u := by
  unfold State.doWrite
  split
  · rename_i u hu
    exact forall_mem_set k hs (hP.writeReg u off v (hs u (List.mem_of_getElem? hu)))
  · exact hs

/-- A step keeps `P` of every unit where the bus and every command do. -/
theorem step_forall_units
    (hexec : ∀ i r, r.params = s.params → (∀ u ∈ r.units, P u) → exec i r = .next t → ∀ u ∈ t.units, P u)
    (h : step s = .next t) : ∀ u ∈ t.units, P u := by
  cases hbus : s.bus with
  | nil =>
    rw [step_nil hbus] at h
    injection h with h
    exact h ▸ hs
  | cons e rest =>
    rw [step_cons hbus] at h
    cases hr : s.request e with rw [hr] at h
    | reset =>
      injection h with h
      rw [← h]
      intro u hu
      obtain ⟨u₀, -, rfl⟩ := List.mem_map.1 hu
      exact hP.reset _ _
    | outside _ | busError _ _ => cases h
    | read k off =>
      injection h with h
      rw [← h, State.doRead_units]
      exact hs
    | write k off v =>
      injection h with h
      rw [← h]
      exact doWrite_forall_units (s := { s with bus := rest }) hP hs k off v
    | command k v => exact issue_forall_units (s := { s with bus := rest }) hP hs (fun i => hexec i _ rfl hs) h

end Units

end Sys2Proof.Machine
end

section
/-! Every step keeps the delay-line invariant (10_state.md R32; 20_memory.md R66; 41_delay_line.md R122 to R124, R136). -/

namespace Sys2Proof.Machine

/-! ### Order of numbers -/

theorem fle_of_flt_false {a b : F64} (ha : isNaN a = false) (hb : isNaN b = false) (h : flt b a = false) :
    fle a b = true := by
  simpa [flt, fle, ha, hb] using h

theorem fle_self {a : F64} (h : isNaN a = false) : fle a a = true := by simp [fle, h]

/-- A finite value that is at most a nonnegative integer is at most the integer rounded to binary64. -/
theorem fle_i2f {a : F64} {i : Int} (ha : isFinite a = true) (hi : 0 ≤ i) (h : valueOf a ≤ i) : fle a (i2f i) = true := by
  obtain ⟨s, m, rfl⟩ := eq_fin_of_isFinite ha
  obtain ⟨-, hbig, hsmall⟩ := i2f_roundedTo i
  have hi' : (0 : ℚ) ≤ i := by exact_mod_cast hi
  rw [abs_of_nonneg hi', decide_eq_false (not_lt.2 hi')] at hbig
  rw [abs_of_nonneg hi'] at hsmall
  rcases le_or_gt (2 ^ 1024 - 2 ^ 970) (i : ℚ) with hle | hlt
  · rw [hbig hle]
    cases s <;> simp [fle, isNaN, orderKey]
  · obtain ⟨hfin, hnear⟩ := hsmall hlt
    have hdist := (hnear _ ha).1
    rw [abs_of_nonpos (show valueOf (.fin s m) - i ≤ 0 by linarith)] at hdist
    have hge : valueOf (.fin s m) ≤ valueOf (i2f i) := by linarith [(abs_le.1 hdist).1]
    obtain ⟨s', m', hz⟩ := eq_fin_of_isFinite hfin
    refine fle_of_flt_false rfl (by rw [hz]; rfl) (Bool.eq_false_iff.2 fun hlt => ?_)
    exact absurd ((flt_iff_valueOf hfin ha).1 hlt) (not_lt.2 hge)

theorem valueOf_apMinDelay : valueOf Config.apMinDelay = 1 / 2 := by
  rw [show Config.apMinDelay = .fin false ⟨0x3FE0000000000000, by decide⟩ by decide]
  unfold valueOf significand exponent
  norm_num

theorem valueOf_zero : valueOf F64.zero = 0 := by simp [valueOf, F64.zero, significand]

/-- The top of a delay's range is a number. -/
theorem isNaN_of_fle {a b : F64} (h : fle a b = true) : isNaN b = false := by
  simp only [fle, Bool.and_eq_true, Bool.not_eq_true'] at h
  exact h.1.2

/-- The lower ends of the ranges of a delay lie below the top of a line of two words or more. -/
theorem fle_top {cap : Nat} (h : 2 ≤ cap) :
    fle Config.apMinDelay (i2f ((cap : Int) - 1)) = true ∧ fle F64.zero (i2f ((cap : Int) - 1)) = true := by
  have h1 : (1 : ℚ) ≤ (((cap : Int) - 1 : Int) : ℚ) := by exact_mod_cast (show (1 : Int) ≤ (cap : Int) - 1 by omega)
  exact ⟨fle_i2f (by decide) (by omega) (by rw [valueOf_apMinDelay]; linarith),
    fle_i2f (by decide) (by omega) (by rw [valueOf_zero]; linarith)⟩

/-! ### The parts of the invariant -/

/-- A sample RAM in canonical form, its words below `n` (20_memory.md R66, log 8). -/
def Ram.Within (n : Nat) (m : Ram) : Prop := m.wf = true ∧ ∀ c ∈ m, c.1 < n

theorem Ram.within_nil (n : Nat) : Ram.Within n [] := ⟨rfl, fun _ h => nomatch h⟩

theorem Ram.Within.write {n : Nat} {m : Ram} (h : m.Within n) {i : Nat} (hi : i < n) (v : F64) : (m.write i v).Within n := by
  refine ⟨Ram.wf_write i v h.1, fun c hc => ?_⟩
  rcases Ram.mem_write hc with rfl | hc
  · exact hi
  · exact h.2 c hc

theorem Ram.Within.zeroBelow {n : Nat} {m : Ram} (h : m.Within n) (k : Nat) : (m.zeroBelow k).Within n :=
  ⟨Ram.wf_zeroBelow k h.1, fun c hc => h.2 c (List.mem_filter.1 hc).1⟩

/-- The part of the invariant that a READY line meets. -/
structure FdlState.ReadyInv (n : Nat) (S : FdlState) : Prop where
  two_le : 2 ≤ S.line.cap
  cap_le : S.line.cap ≤ n
  w_lt   : S.line.w < S.line.cap
  r_lt   : S.line.r < S.line.cap
  delay  : S.DelayInv

theorem FdlState.inv_iff {n : Nat} {S : FdlState} :
    S.Inv n ↔ S.line.buf.Within n ∧ (S.cfg = true → S.ReadyInv n) := by
  constructor
  · rintro ⟨hwf, hmem, hready⟩
    refine ⟨⟨hwf, hmem⟩, fun hc => ?_⟩
    obtain ⟨h2, hn, hw, hr, hd⟩ := hready hc
    exact ⟨h2, hn, hw, hr, hd⟩
  · rintro ⟨⟨hwf, hmem⟩, hready⟩
    exact ⟨hwf, hmem, fun hc => have h := hready hc; ⟨h.two_le, h.cap_le, h.w_lt, h.r_lt, h.delay⟩⟩

theorem FdlState.reset_inv (n : Nat) : FdlState.reset.Inv n :=
  FdlState.inv_iff.2 ⟨Ram.within_nil n, fun h => nomatch h⟩

theorem FdlState.delayInv_fixed {S : FdlState} (hv : S.variant = .fixed) :
    S.DelayInv ↔
      ∃ d : Nat, d < S.line.cap ∧ S.line.delay = i2f d ∧ S.line.r = modCap ((S.line.w : Int) - d) S.line.cap := by
  simp [FdlState.DelayInv, hv]

theorem FdlState.delayInv_allpass {S : FdlState} (hv : S.variant = .allpass) :
    S.DelayInv ↔ InRange Config.apMinDelay S.line.delay (i2f ((S.line.cap : Int) - 1)) := by
  simp [FdlState.DelayInv, hv]

theorem FdlState.delayInv_linear {S : FdlState} (hv : S.variant = .linear) :
    S.DelayInv ↔ InRange F64.zero S.line.delay (i2f ((S.line.cap : Int) - 1)) := by
  simp [FdlState.DelayInv, hv]

/-- On an interpolating line only the delay and the capacity matter. -/
theorem FdlState.DelayInv.of_interpolating {S S' : FdlState} (h : S.DelayInv) (hS : S.variant ≠ .fixed)
    (hv : S'.variant = S.variant) (hc : S'.line.cap = S.line.cap) (hd : S'.line.delay = S.line.delay) : S'.DelayInv := by
  cases hvar : S.variant with
  | fixed => exact absurd hvar hS
  | allpass =>
    rw [FdlState.delayInv_allpass hvar] at h
    rwa [FdlState.delayInv_allpass (hv.trans hvar), hc, hd]
  | linear =>
    rw [FdlState.delayInv_linear hvar] at h
    rwa [FdlState.delayInv_linear (hv.trans hvar), hc, hd]

/-! ### SetDelay -/

/-- `S'` is `S` after SetDelay: a read index inside the line and a delay in the variant's range, whatever the coefficients
are; buffer, write index and capacity are those of `S`. -/
structure Repositioned (S S' : FdlState) : Prop where
  variant : S'.variant = S.variant
  cap     : S'.line.cap = S.line.cap
  w       : S'.line.w = S.line.w
  buf     : S'.line.buf = S.line.buf
  r_lt    : S'.line.r < S'.line.cap
  delay   : S'.DelayInv

theorem Repositioned.inv {n : Nat} {S S' : FdlState} (h : Repositioned S S') (hbuf : S.line.buf.Within n)
    (h2 : 2 ≤ S.line.cap) (hn : S.line.cap ≤ n) (hw : S.line.w < S.line.cap) : S'.Inv n :=
  FdlState.inv_iff.2 ⟨by rwa [h.buf], fun _ =>
    ⟨by rwa [h.cap], by rwa [h.cap], by rwa [h.w, h.cap], h.r_lt, h.delay⟩⟩

theorem setDelayFixed_repositioned {S : FdlState} (hv : S.variant = .fixed) (h2 : 2 ≤ S.line.cap) (d : Int) :
    Repositioned S (setDelayFixed S d).1 := by
  have hset : ∀ d' : Nat, d' < S.line.cap → Repositioned S { S with
      line := { S.line with r := modCap ((S.line.w : Int) - d') S.line.cap, delay := i2f d' } } := fun d' hd' =>
    ⟨rfl, rfl, rfl, rfl, modCap_lt (by omega), (FdlState.delayInv_fixed (by exact hv)).2 ⟨d', hd', rfl, rfl⟩⟩
  unfold setDelayFixed
  dsimp only
  split
  · have h := hset (S.line.cap - 1) (by omega)
    rwa [Nat.cast_sub (by omega), Nat.cast_one] at h
  · split
    · exact hset 0 (by omega)
    · have h := hset d.toNat (by omega)
      rwa [Int.toNat_of_nonneg (by omega)] at h

theorem setAllpassPointer_repositioned {S : FdlState} {delay : F64} (ν : NanSource) (op : F64) (hv : S.variant = .allpass)
    (h2 : 2 ≤ S.line.cap) (hd : InRange Config.apMinDelay delay (i2f ((S.line.cap : Int) - 1))) :
    Repositioned S (setAllpassPointer ν S op delay) := by
  refine ⟨rfl, rfl, rfl, rfl, ?_, (FdlState.delayInv_allpass (by exact hv)).2 hd⟩
  unfold setAllpassPointer
  dsimp only
  generalize (if flt op F64.zero = true then fadd (ν 2) op (i2f S.line.cap) else op) = wrapped
  split
  · exact nextIndex_lt (Nat.zero_lt_of_lt h2)
  · exact modCap_lt (Nat.zero_lt_of_lt h2)

theorem setDelayAllpass_repositioned {S : FdlState} (ν : NanSource) {d : F64} (hv : S.variant = .allpass)
    (h2 : 2 ≤ S.line.cap) (hd : isNaN d = false) : Repositioned S (setDelayAllpass ν S d).1 := by
  obtain ⟨hmin, -⟩ := fle_top h2
  have htop := isNaN_of_fle hmin
  unfold setDelayAllpass
  dsimp only
  split
  · exact setAllpassPointer_repositioned ν _ hv h2 ⟨hmin, fle_self htop⟩
  · rename_i hhi
    split
    · exact setAllpassPointer_repositioned ν _ hv h2 ⟨fle_self (by decide), hmin⟩
    · rename_i hlo
      exact setAllpassPointer_repositioned ν _ hv h2
        ⟨fle_of_flt_false (by decide) hd (Bool.eq_false_iff.2 hlo), fle_of_flt_false hd htop (Bool.eq_false_iff.2 hhi)⟩

theorem setLinearPointer_repositioned {S : FdlState} {d : F64} (ν : NanSource) (hv : S.variant = .linear)
    (h2 : 2 ≤ S.line.cap) (hd : InRange F64.zero d (i2f ((S.line.cap : Int) - 1))) :
    Repositioned S (setLinearPointer ν S d) :=
  ⟨rfl, rfl, rfl, rfl, modCap_lt (Nat.zero_lt_of_lt h2), (FdlState.delayInv_linear (by exact hv)).2 hd⟩

theorem setDelayLinear_repositioned {S : FdlState} (ν : NanSource) {d : F64} (hv : S.variant = .linear)
    (h2 : 2 ≤ S.line.cap) (hd : isNaN d = false) : Repositioned S (setDelayLinear ν S d).1 := by
  obtain ⟨-, hzero⟩ := fle_top h2
  have htop := isNaN_of_fle hzero
  unfold setDelayLinear
  dsimp only
  split
  · exact setLinearPointer_repositioned ν hv h2 ⟨hzero, fle_self htop⟩
  · rename_i hhi
    split
    · exact setLinearPointer_repositioned ν hv h2 ⟨fle_self (by decide), hzero⟩
    · rename_i hlo
      exact setLinearPointer_repositioned ν hv h2
        ⟨fle_of_flt_false (by decide) hd (Bool.eq_false_iff.2 hlo), fle_of_flt_false hd htop (Bool.eq_false_iff.2 hhi)⟩

theorem setDelay_repositioned (ν : NanSource) {S : FdlState} {v : FdlVariant} {a : Word} (hv : S.variant = v)
    (h2 : 2 ≤ S.line.cap) (hnan : nanDelay v a = false) : Repositioned S (setDelay ν v S a).1 := by
  cases v with
  | fixed => exact setDelayFixed_repositioned hv h2 _
  | allpass => exact setDelayAllpass_repositioned ν hv h2 hnan
  | linear => exact setDelayLinear_repositioned ν hv h2 hnan

/-! ### The commands -/

/-- A command of the delay line keeps the invariant where it completes. -/
def Command.KeepsFdlInv (c : Command FdlState) (n : Nat) : Prop :=
  ∀ ν o S S' out w, (c.config = true ∨ S.cfg = true) → S.Inv n → c.body ν o S = .done S' out w → S'.Inv n

theorem fdlConfig_keepsFdlInv (v : FdlVariant) (n : Nat) : (fdlConfig v n).KeepsFdlInv n := by
  intro ν o S S' out w _ hS hbody
  change fdlConfigBody v n ν o S = _ at hbody
  unfold fdlConfigBody at hbody
  dsimp only at hbody
  split at hbody
  · cases hbody
  · split at hbody
    · cases hbody
    · split at hbody
      · cases hbody
      · rename_i hm hn hnan
        cases hbody
        obtain ⟨hbuf, -⟩ := FdlState.inv_iff.1 hS
        refine (setDelay_repositioned ν (S := freshFdl v _ _) rfl ?_ (Bool.eq_false_iff.2 hnan)).inv
          (hbuf.zeroBelow _) ?_ ?_ ?_ <;> simp only [freshFdl] <;> omega

theorem fdlSetDelay_keepsFdlInv (n : Nat) :
    Command.KeepsFdlInv { config := false, applies := fun _ => true, body := fdlSetDelayBody } n := by
  intro ν o S S' out w hr hS hbody
  obtain ⟨hbuf, hready⟩ := FdlState.inv_iff.1 hS
  have hR := hready (hr.resolve_left Bool.false_ne_true)
  change fdlSetDelayBody ν o S = _ at hbody
  unfold fdlSetDelayBody at hbody
  split at hbody
  · cases hbody
  · rename_i hnan
    cases hbody
    exact (setDelay_repositioned ν rfl hR.two_le (Bool.eq_false_iff.2 hnan)).inv hbuf hR.two_le hR.cap_le hR.w_lt

theorem clearFdl_inv {n : Nat} {S : FdlState} (h : S.Inv n) : (clearFdl S).Inv n := by
  obtain ⟨hbuf, hready⟩ := FdlState.inv_iff.1 h
  refine FdlState.inv_iff.2 ⟨hbuf.zeroBelow _, fun hc => ?_⟩
  obtain ⟨h2, hn, hw, hr, hd⟩ := hready hc
  exact ⟨h2, hn, hw, hr, hd⟩

theorem tickFixed_inv {n : Nat} {S : FdlState} (hv : S.variant = .fixed) (hc : S.cfg = true) (h : S.Inv n) (x : F64) :
    (tickFixed S x).Inv n := by
  obtain ⟨hbuf, hready⟩ := FdlState.inv_iff.1 h
  obtain ⟨h2, hn, hw, hr, hd⟩ := hready hc
  refine FdlState.inv_iff.2 ⟨hbuf.write (hw.trans_le hn) x, fun _ => ⟨h2, hn, ?_, ?_, ?_⟩⟩
  · exact nextIndex_lt (Nat.zero_lt_of_lt h2)
  · exact nextIndex_lt (Nat.zero_lt_of_lt h2)
  · obtain ⟨d, hdc, hdelay, hrd⟩ := (FdlState.delayInv_fixed hv).1 hd
    refine (FdlState.delayInv_fixed (by exact hv)).2 ⟨d, hdc, hdelay, ?_⟩
    simp only [tickFixed, Line.tick_r, Line.tick_w, Line.tick_cap]
    rw [hrd, nextIndex_modCap (by omega)]

@[simp] theorem nextOut_variant (ν : NanSource) (S : FdlState) : (nextOut ν S).variant = S.variant := by
  unfold nextOut; split <;> rfl

@[simp] theorem nextOut_line (ν : NanSource) (S : FdlState) : (nextOut ν S).line = S.line := by
  unfold nextOut; split <;> rfl

theorem nextOut_inv {n : Nat} {S : FdlState} (ν : NanSource) (h : S.Inv n) : (nextOut ν S).Inv n := by
  unfold nextOut
  split
  · exact h
  · exact h

theorem tickInterpolating_inv {n : Nat} {S : FdlState} (ν : NanSource) (hv : S.variant ≠ .fixed) (hc : S.cfg = true)
    (h : S.Inv n) (x : F64) : (tickInterpolating ν S x).Inv n := by
  obtain ⟨hbuf, hready⟩ := FdlState.inv_iff.1 h
  obtain ⟨h2, hn, hw, hr, hd⟩ := hready hc
  refine FdlState.inv_iff.2 ⟨?_, fun _ => ⟨?_, ?_, ?_, ?_, hd.of_interpolating hv ?_ ?_ ?_⟩⟩ <;>
    simp only [tickInterpolating, nextOut_line, nextOut_variant, Line.pop_cap, Line.pop_w, Line.pop_r, Line.pop_delay,
      Line.pop_buf, Line.push_cap, Line.push_w, Line.push_r, Line.push_delay, Line.push_buf]
  · exact hbuf.write (hw.trans_le hn) x
  · exact h2
  · exact hn
  · exact nextIndex_lt (by omega)
  · exact nextIndex_lt (by omega)

theorem tickFdl_inv {n : Nat} {S : FdlState} (ν : NanSource) (hc : S.cfg = true) (h : S.Inv n) (x : F64) :
    (tickFdl ν S x).Inv n := by
  unfold tickFdl
  split
  · rename_i hv
    exact tickFixed_inv hv hc h x
  · rename_i hv
    exact tickInterpolating_inv ν (by simp [hv]) hc h x
  · rename_i hv
    exact tickInterpolating_inv ν (by simp [hv]) hc h x

theorem fdlTick_keepsFdlInv (n : Nat) :
    Command.KeepsFdlInv { config := false, applies := fun _ => true, body := fdlTickBody } n := by
  intro ν o S S' out w hr hS hbody
  cases hbody
  exact tickFdl_inv ν (hr.resolve_left Bool.false_ne_true) hS _

/-! ### Units and steps -/

/-- The delay-line invariant of a unit of any type. -/
def DspUnit.FdlInv (n : Nat) (u : DspUnit) : Prop := ∀ S, u.body = .fdl S → S.Inv n

theorem State.fdlInv_iff {s : State} : s.FdlInv ↔ ∀ u ∈ s.units, u.FdlInv s.params.fdlRamWords := Iff.rfl

theorem DspUnit.fdlInv_of_reset {n : Nat} {u : DspUnit} {t : UnitType} (h : u.body = Body.reset t) : u.FdlInv n := by
  intro S hS
  cases t with
  | fdl => cases h.symm.trans hS; exact FdlState.reset_inv n
  | iir | rev => cases h.symm.trans hS

theorem DspUnit.raise_fdlInv {n : Nat} {u : DspUnit} (h : u.FdlInv n) (c : ErrCode) : (u.raise c).FdlInv n := by
  rcases u.raise_body c with hb | hb
  · exact fun S hS => h S (hb ▸ hS)
  · exact DspUnit.fdlInv_of_reset hb

theorem fdlInv_keptByBus (n : Nat) : KeptByBus (DspUnit.FdlInv n) where
  reset _ _ := DspUnit.fdlInv_of_reset rfl
  writeReg u off v h := fun S hS => h S (u.writeReg_body off v ▸ hS)
  refuse _ _ c _ h := DspUnit.raise_fdlInv h c

theorem execute_fdlInv {n : Nat} {c : Command FdlState} (hc : c.KeepsFdlInv n) (ν : NanSource) (u : DspUnit)
    (h : u.FdlInv n) : (u.execute fdlFamily c ν).FdlInv n := by
  rcases DspUnit.execute_cases fdlFamily c ν u with ⟨e, he, -⟩ | ⟨S, S', o, w, hv, hr, -, hb, he⟩ <;> rw [he]
  · exact DspUnit.raise_fdlInv h e
  · intro T hT
    cases hT
    exact hc _ _ _ _ _ _ hr (h S (fdlFamily_view_eq hv)) hb

/-- A command of another family makes no delay line. -/
theorem execute_fdlInv_of_wrap {n : Nat} {σ : Type} {fam : Family σ} (hfam : ∀ S T, fam.wrap S ≠ .fdl T) (c : Command σ)
    (ν : NanSource) (u : DspUnit) (h : u.FdlInv n) : (u.execute fam c ν).FdlInv n := by
  rcases DspUnit.execute_cases fam c ν u with ⟨e, he, -⟩ | ⟨S, S', o, w, -, -, -, -, he⟩ <;> rw [he]
  · exact DspUnit.raise_fdlInv h e
  · exact fun T hT => absurd hT (hfam S' T)

theorem exec_fdlInv {i : Instr} {s t : State} (hs : ∀ u ∈ s.units, u.FdlInv s.params.fdlRamWords)
    (h : exec i s = .next t) : ∀ u ∈ t.units, u.FdlInv s.params.fdlRamWords := by
  have hfdl : ∀ c : Command FdlState, c.KeepsFdlInv s.params.fdlRamWords → runCommand fdlFamily c s = .next t →
      ∀ u ∈ t.units, u.FdlInv s.params.fdlRamWords := fun c hc => runCommand_forall_units (execute_fdlInv hc) hs
  cases i with
  | nop => rw [(execNop_next h).1]; exact hs
  | fdlConfigFixed | fdlConfigAllpass | fdlConfigLinear => exact hfdl _ (fdlConfig_keepsFdlInv _ _) h
  | fdlSetDelay => exact hfdl _ (fdlSetDelay_keepsFdlInv _) h
  | fdlTick => exact hfdl _ (fdlTick_keepsFdlInv _) h
  | fdlClear => exact hfdl _ (fun ν o S S' out w _ hS hb => by cases hb; exact clearFdl_inv hS) h
  | fdlNextOut => exact hfdl _ (fun ν o S S' out w _ hS hb => by cases hb; exact nextOut_inv ν hS) h
  | fdlContentsAt | fdlEnergy => exact hfdl _ (fun ν o S S' out w _ hS hb => by cases hb; exact hS) h
  | iirConfigLpf | iirConfigHpf | iirConfigBpf | iirConfigBrf | iirConfigRlpf | iirConfigRhpf | iirConfigResonz
  | iirConfigBiquad | iirSetFreq | iirSetQ | iirSetResonance | iirSetResonanceNorm | iirSetNotch | iirSetGain | iirSample
  | iirClear =>
    exact runCommand_forall_units (execute_fdlInv_of_wrap (fam := iirFamily) (fun S T h => nomatch h) _) hs h
  | revConfigA | revConfigB | revConfigC | revSetMix | revTick | revClear =>
    exact runCommand_forall_units (execute_fdlInv_of_wrap (fam := revFamily) (fun S T h => nomatch h) _) hs h

/-- Settles O55: the bus and each command keep the invariant of every unit, and no step changes the RAM's size. -/
theorem stepKeepsFdlInvariant : Obligations.StepKeepsFdlInvariant := by
  intro s t hs h
  have hp : t.params = s.params := congrArg Prod.snd (stepKeepsThePlatform s t h)
  rw [State.fdlInv_iff, hp]
  refine step_forall_units (fdlInv_keptByBus _) hs (fun i r hr hunits hexec => ?_) h
  rw [← hr] at hunits ⊢
  exact exec_fdlInv hunits hexec

end Sys2Proof.Machine
end

section
/-! What a command can do to the registers of a unit: its checks (30_encoding.md R84; 60_exceptions.md R261), its warnings
(60_exceptions.md R266) and its results (10_state.md R26). -/

namespace Sys2Proof.Machine

/-! ### What each command completes with -/

/-- The results a body completes with meet `P`. -/
def BodyResult.Answers {σ : Type} (P : Results → Prop) : BodyResult σ → Prop
  | .done _ out _ => P out
  | .error _ => True

@[simp] theorem BodyResult.answers_done {σ : Type} {P : Results → Prop} {S : σ} {out : Results} {w : Warnings} :
    (BodyResult.done S out w).Answers P ↔ P out := Iff.rfl

@[simp] theorem BodyResult.answers_error {σ : Type} {P : Results → Prop} {e : ErrCode} :
    (BodyResult.error e : BodyResult σ).Answers P := trivial

theorem BodyResult.Answers.mono {σ : Type} {P Q : Results → Prop} {b : BodyResult σ} (h : b.Answers P)
    (hPQ : ∀ out, P out → Q out) : b.Answers Q := by
  cases b with
  | done S out w => exact hPQ out h
  | error e => trivial

section Bodies
variable (ν : NanSource) (o : Operands)

theorem fdlConfigBody_quiet (v : FdlVariant) (n : Nat) (S : FdlState) : (fdlConfigBody v n ν o S).Answers (· = {}) := by
  unfold fdlConfigBody
  dsimp only
  split_ifs <;> simp

theorem fdlSetDelayBody_quiet (S : FdlState) : (fdlSetDelayBody ν o S).Answers (· = {}) := by
  unfold fdlSetDelayBody
  split_ifs <;> simp

theorem iirConfigBody_quiet (v : IirVariant) (S : IirState) : (iirConfigBody v ν o S).Answers (· = {}) := by
  unfold iirConfigBody
  dsimp only
  split_ifs
  · simp
  · simp
  · split <;> simp

theorem iirSetFreqBody_quiet (S : IirState) : (iirSetFreqBody ν o S).Answers (· = {}) := by
  unfold iirSetFreqBody
  split <;> simp

theorem iirSetQBody_quiet (S : IirState) : (iirSetQBody ν o S).Answers (· = {}) := by
  unfold iirSetQBody
  split <;> simp

theorem iirSetResonanceBody_quiet (norm : Bool) (S : IirState) :
    (iirSetResonanceBody norm ν o S).Answers (· = {}) := by
  unfold iirSetResonanceBody
  dsimp only
  split_ifs <;> simp

theorem iirSetNotchBody_quiet (S : IirState) : (iirSetNotchBody ν o S).Answers (· = {}) := by
  unfold iirSetNotchBody
  dsimp only
  split_ifs <;> simp

theorem iirSetGainBody_quiet (S : IirState) : (iirSetGainBody ν o S).Answers (· = {}) := by
  unfold iirSetGainBody
  split_ifs <;> simp

theorem revConfigBody_quiet (t : RevTopology) (n : Nat) (S : RevState) :
    (revConfigBody t n ν o S).Answers (· = {}) := by
  unfold revConfigBody
  split_ifs
  · simp
  · simp
  · split <;> simp

theorem revSetMixBody_quiet (S : RevState) : (revSetMixBody ν o S).Answers (· = {}) := by
  unfold revSetMixBody
  split_ifs <;> simp

end Bodies

/-- The results that the table of R26 admits of a command. -/
def Instr.MayAnswer (i : Instr) (out : Results) : Prop :=
  (i ∉ [Instr.fdlTick, .fdlNextOut, .fdlContentsAt, .fdlEnergy, .iirSample, .revTick] → out.res0 = none) ∧
  (i ≠ .revTick → out.res1 = none ∧ out.res2 = none)

theorem Instr.mayAnswer_none (i : Instr) : Instr.MayAnswer i {} := ⟨fun _ => rfl, fun _ => ⟨rfl, rfl⟩⟩

theorem BodyResult.Answers.quiet {σ : Type} {i : Instr} {b : BodyResult σ} (h : b.Answers (· = {})) :
    b.Answers (Instr.MayAnswer i) := h.mono fun _ hout => hout ▸ Instr.mayAnswer_none i

theorem Instr.mayAnswer_one {i : Instr} (v : F64)
    (h : i ∈ [Instr.fdlTick, .fdlNextOut, .fdlContentsAt, .fdlEnergy, .iirSample, .revTick]) :
    Instr.MayAnswer i { res0 := some v } := ⟨fun hi => absurd h hi, fun _ => ⟨rfl, rfl⟩⟩

theorem Instr.mayAnswer_revTick (out : Results) : Instr.MayAnswer .revTick out :=
  ⟨fun hi => absurd (by decide) hi, fun hi => absurd rfl hi⟩

/-! ### The command behind each instruction -/

/-- `c`, a command of the family `fam`, is what the instruction `i` runs: on the units that accept `i`, as a CONFIG where `i`
also runs UNCONFIGURED, with the results of R26. -/
structure Implements {σ : Type} (i : Instr) (fam : Family σ) (c : Command σ) : Prop where
  view    : ∀ b : Body, i.legalIn b.type = false ↔ fam.view b = none
  ready   : ∀ b S, fam.view b = some S → fam.ready S = b.ready
  config  : c.config = runsUnconfigured i
  answers : ∀ ν o S, (c.body ν o S).Answers (Instr.MayAnswer i)

theorem legalIn_of_owner {i : Instr} {o : UnitType} (h : i.opcode.owner = some o) (t : UnitType) :
    i.legalIn t = (o == t) := by simp [Instr.legalIn, h]

theorem implements_fdl {i : Instr} {c : Command FdlState} (ho : i.opcode.owner = some .fdl)
    (hc : c.config = runsUnconfigured i) (ha : ∀ ν o S, (c.body ν o S).Answers (Instr.MayAnswer i)) :
    Implements i fdlFamily c where
  view b := by cases b <;> simp [legalIn_of_owner ho, fdlFamily, Body.type]
  ready b S hb := by rw [fdlFamily_view_eq hb]; rfl
  config := hc
  answers := ha

theorem implements_iir {i : Instr} {c : Command IirState} (ho : i.opcode.owner = some .iir)
    (hc : c.config = runsUnconfigured i) (ha : ∀ ν o S, (c.body ν o S).Answers (Instr.MayAnswer i)) :
    Implements i iirFamily c where
  view b := by cases b <;> simp [legalIn_of_owner ho, iirFamily, Body.type]
  ready b S hb := by rw [iirFamily_view_eq hb]; rfl
  config := hc
  answers := ha

theorem implements_rev {i : Instr} {c : Command RevState} (ho : i.opcode.owner = some .rev)
    (hc : c.config = runsUnconfigured i) (ha : ∀ ν o S, (c.body ν o S).Answers (Instr.MayAnswer i)) :
    Implements i revFamily c where
  view b := by cases b <;> simp [legalIn_of_owner ho, revFamily, Body.type]
  ready b S hb := by rw [revFamily_view_eq hb]; rfl
  config := hc
  answers := ha

/-- Every command but NOP runs in the execution cycle. -/
theorem exec_implements {i : Instr} (hi : i ≠ .nop) (s : State) :
    ∃ (σ : Type) (fam : Family σ) (c : Command σ), exec i s = runCommand fam c s ∧ Implements i fam c := by
  cases i with
  | nop => exact absurd rfl hi
  | fdlConfigFixed | fdlConfigAllpass | fdlConfigLinear =>
    exact ⟨_, _, _, rfl, implements_fdl rfl rfl fun ν o S => (fdlConfigBody_quiet ν o _ _ S).quiet⟩
  | fdlSetDelay => exact ⟨_, _, _, rfl, implements_fdl rfl rfl fun ν o S => (fdlSetDelayBody_quiet ν o S).quiet⟩
  | fdlClear => exact ⟨_, _, _, rfl, implements_fdl rfl rfl fun _ _ _ => Instr.mayAnswer_none _⟩
  | fdlTick | fdlNextOut | fdlContentsAt | fdlEnergy =>
    exact ⟨_, _, _, rfl, implements_fdl rfl rfl fun _ _ _ => Instr.mayAnswer_one _ (by decide)⟩
  | iirConfigLpf | iirConfigHpf | iirConfigBpf | iirConfigBrf | iirConfigRlpf | iirConfigRhpf | iirConfigResonz
  | iirConfigBiquad =>
    exact ⟨_, _, _, rfl, implements_iir rfl rfl fun ν o S => (iirConfigBody_quiet ν o _ S).quiet⟩
  | iirSetFreq => exact ⟨_, _, _, rfl, implements_iir rfl rfl fun ν o S => (iirSetFreqBody_quiet ν o S).quiet⟩
  | iirSetQ => exact ⟨_, _, _, rfl, implements_iir rfl rfl fun ν o S => (iirSetQBody_quiet ν o S).quiet⟩
  | iirSetResonance | iirSetResonanceNorm =>
    exact ⟨_, _, _, rfl, implements_iir rfl rfl fun ν o S => (iirSetResonanceBody_quiet ν o _ S).quiet⟩
  | iirSetNotch => exact ⟨_, _, _, rfl, implements_iir rfl rfl fun ν o S => (iirSetNotchBody_quiet ν o S).quiet⟩
  | iirSetGain => exact ⟨_, _, _, rfl, implements_iir rfl rfl fun ν o S => (iirSetGainBody_quiet ν o S).quiet⟩
  | iirSample => exact ⟨_, _, _, rfl, implements_iir rfl rfl fun _ _ _ => Instr.mayAnswer_one _ (by decide)⟩
  | iirClear => exact ⟨_, _, _, rfl, implements_iir rfl rfl fun _ _ _ => Instr.mayAnswer_none _⟩
  | revConfigA | revConfigB | revConfigC =>
    exact ⟨_, _, _, rfl, implements_rev rfl rfl fun ν o S => (revConfigBody_quiet ν o _ _ S).quiet⟩
  | revSetMix => exact ⟨_, _, _, rfl, implements_rev rfl rfl fun ν o S => (revSetMixBody_quiet ν o S).quiet⟩
  | revTick => exact ⟨_, _, _, rfl, implements_rev rfl rfl fun _ _ _ => Instr.mayAnswer_revTick _⟩
  | revClear => exact ⟨_, _, _, rfl, implements_rev rfl rfl fun _ _ _ => Instr.mayAnswer_none _⟩

/-! ### The checks -/

section Checks
variable {σ : Type} {fam : Family σ} {c : Command σ} {S : σ} {u : DspUnit}

theorem DspUnit.execute_illegalOpcode (ν : NanSource) (hv : fam.view u.body = none) :
    u.execute fam c ν = u.raise .illegalOpcode := by
  simp [DspUnit.execute, hv]

theorem DspUnit.execute_notConfigured (ν : NanSource) (hv : fam.view u.body = some S) (hc : c.config = false)
    (hr : fam.ready S = false) : u.execute fam c ν = u.raise .notConfigured := by
  simp [DspUnit.execute, hv, hc, hr]

theorem DspUnit.execute_wrongVariant (ν : NanSource) (hv : fam.view u.body = some S) (hr : fam.ready S = true)
    (ha : c.applies S = false) : u.execute fam c ν = u.raise .wrongVariant := by
  simp [DspUnit.execute, hv, hr, ha]

/-- An error that is no CFG error sets ERR and ERRCODE alone (R261). -/
theorem DspUnit.raise_of_not_cfg (u : DspUnit) {e : ErrCode} (h : isCfgError e = false) :
    u.raise e = { u with regs := { u.regs with err := true, errcode := e } } := by
  unfold DspUnit.raise
  rw [if_neg (Bool.eq_false_iff.1 h)]
  rfl

theorem runCommand_wrongVariant {s : State} (hs : s.Addresses u) (hv : fam.view u.body = some S)
    (hr : fam.ready S = true) (ha : c.applies S = false) :
    runCommand fam c s =
      .next (s.afterCommand { u with regs := { u.regs with err := true, errcode := .wrongVariant } }) := by
  rw [runCommand_some hs, DspUnit.execute_wrongVariant _ hv hr ha, DspUnit.raise_of_not_cfg u rfl]

end Checks

/-- Settles O15: the family of the instruction does not see a unit of another type, and the checks that `Execute` makes
before it runs the body raise no CFG error. -/
theorem unitChecksRejectInOrder : Obligations.UnitChecksRejectInOrder := by
  intro i s u c hs h
  rcases h with ⟨hl, rfl⟩ | ⟨hl, hrun, hready, rfl⟩ | ⟨hready, rfl, h⟩
  · obtain ⟨σ, fam, c, he, hi⟩ := exec_implements (i := i) (by rintro rfl; cases hl) s
    rw [he, runCommand_some hs, DspUnit.execute_illegalOpcode _ ((hi.view _).1 hl), DspUnit.raise_of_not_cfg u rfl]
  · obtain ⟨σ, fam, c, he, hi⟩ := exec_implements (i := i) (by rintro rfl; cases hrun) s
    cases hv : fam.view u.body with
    | none => rw [(hi.view _).2 hv] at hl; cases hl
    | some S =>
      rw [he, runCommand_some hs, DspUnit.execute_notConfigured _ hv (hi.config.trans hrun)
        ((hi.ready _ S hv).trans hready), DspUnit.raise_of_not_cfg u rfl]
  · rcases h with ⟨S, hb, hvar, rfl⟩ | ⟨S, hb, hvar, rfl | rfl⟩ | ⟨S, hb, hvar, rfl | rfl | rfl⟩ <;>
      rw [hb] at hready <;>
      exact runCommand_wrongVariant hs (by rw [hb]; rfl) hready (by simp [hvar])

/-! ### Warnings and results -/

/-- What holds of the addressed unit and of what `Execute` makes of it, and of a unit and itself, holds of every unit before
and after the command. -/
theorem exec_related {R : DspUnit → DspUnit → Prop} {i : Instr} {s t : State} {k : Nat} {u : DspUnit}
    (hrefl : ∀ u, R u u)
    (hexec : ∀ {σ : Type} {fam : Family σ} {c : Command σ} (ν : NanSource) (u : DspUnit), Implements i fam c →
      R u (u.execute fam c ν))
    (h : exec i s = .next t) (hu : s.units[k]? = some u) : ∃ u', t.units[k]? = some u' ∧ R u u' := by
  by_cases hi : i = .nop
  · subst hi
    rw [(execNop_next h).1]
    exact ⟨u, hu, hrefl u⟩
  · obtain ⟨σ, fam, c, he, himp⟩ := exec_implements hi s
    obtain ⟨v, hv, rfl⟩ := runCommand_next (he ▸ h)
    by_cases hk : s.sel = k
    · subst hk
      obtain rfl : v = u := Option.some.inj (hv.symm.trans hu)
      refine ⟨_, ?_, hexec (freeNans s.draws) v himp⟩
      rw [State.afterCommand_units, List.getElem?_set_self (List.getElem?_eq_some_iff.1 hu).1]
    · refine ⟨u, ?_, hrefl u⟩
      rw [State.afterCommand_units, List.getElem?_set_ne hk, hu]

/-- Settles O17: an error leaves the warnings, and a completed command ORs its own into them. -/
theorem commandsKeepWarnings : Obligations.CommandsKeepWarnings := by
  intro i s t k u h hu
  refine exec_related (R := fun u u' => ∀ b : Nat, u.regs.warn.getLsbD b = true → u'.regs.warn.getLsbD b = true)
    (fun _ _ hb => hb) (fun {σ fam c} ν u _ b hb => ?_) h hu
  rcases DspUnit.execute_cases fam c ν u with ⟨e, he, -⟩ | ⟨S, S', o, w, -, -, -, -, he⟩ <;> rw [he]
  · rw [DspUnit.raise_regs, Regs.recordError_warn, hb]
  · rw [DspUnit.commit_regs, Regs.commitWarnings_warn, Regs.writeResults_warn, BitVec.getLsbD_or, hb, Bool.true_or]

/-- The data registers of `r'` are those of `r`, but for the results that the table of R26 admits of `i`. -/
def DataRegsKept (i : Instr) (r r' : Regs) : Prop :=
  r'.opa = r.opa ∧ r'.opb = r.opb ∧ r'.sr = r.sr ∧
  (i ∉ [Instr.fdlTick, .fdlNextOut, .fdlContentsAt, .fdlEnergy, .iirSample, .revTick] → r'.res0 = r.res0) ∧
  (i ≠ .revTick → r'.res1 = r.res1 ∧ r'.res2 = r.res2)

theorem dataRegsKept_self (i : Instr) (r : Regs) : DataRegsKept i r r := ⟨rfl, rfl, rfl, fun _ => rfl, fun _ => ⟨rfl, rfl⟩⟩

theorem dataRegsKept_writeResults {i : Instr} {out : Results} (h : Instr.MayAnswer i out) (r : Regs) :
    DataRegsKept i r (r.writeResults out) := by
  obtain ⟨h0, h12⟩ := h
  refine ⟨rfl, rfl, rfl, fun hi => ?_, fun hi => ?_⟩
  · simp [Regs.writeResults, h0 hi]
  · simp [Regs.writeResults, h12 hi]

theorem execute_dataRegsKept {σ : Type} {i : Instr} {fam : Family σ} {c : Command σ} (hi : Implements i fam c)
    (ν : NanSource) (u : DspUnit) : DataRegsKept i u.regs (u.execute fam c ν).regs := by
  rcases DspUnit.execute_cases fam c ν u with ⟨e, he, -⟩ | ⟨S, S', o, w, -, -, -, hb, he⟩ <;> rw [he]
  · rw [DspUnit.raise_regs]
    exact dataRegsKept_self i u.regs
  · have ho := hi.answers ν u.regs.operands S
    rw [hb] at ho
    exact dataRegsKept_writeResults ho u.regs

/-- Settles O18: results are written as the table of R26 admits them, and nothing else writes a data register. -/
theorem onlyResultCommandsWriteDataRegisters : Obligations.OnlyResultCommandsWriteDataRegisters := by
  intro i s t k u h hu
  exact exec_related (R := fun u u' => DataRegsKept i u.regs u'.regs) (fun u => dataRegsKept_self i u.regs)
    (fun ν u hi => execute_dataRegsKept hi ν u) h hu

end Sys2Proof.Machine
end

section
/-! The register window (10_state.md R20 to R36; 20_memory.md R60 to R64): what an admitted access asks of a unit, what each
offset reads, what a write stores, where the fields of STATUS stand, and the registers after reset. -/

namespace Sys2Proof.Machine

/-! ### Admitted accesses -/

section Access
variable {s : State} {a k : Nat} {u : DspUnit} {data : List Byte}

theorem State.offsetIn_eq (hu : s.units[k]? = some u) : s.offsetIn k a = a - u.base := by simp [State.offsetIn, hu]

theorem State.request_read (hk : s.unitAt a = some k) (hu : s.units[k]? = some u) (ha : a % 8 = 0) :
    s.request (.read a 8) = .read k (a - u.base) := by
  simp [State.request, hk, ha, State.offsetIn_eq hu]

theorem State.request_write (hk : s.unitAt a = some k) (hu : s.units[k]? = some u) (ha : a % 8 = 0)
    (hd : data.length = 8) : s.request (.write a data) = writeRequest k (a - u.base) (wordOfBytes data) := by
  simp [State.request, hk, ha, hd, State.offsetIn_eq hu]

theorem State.doRead_eq (hu : s.units[k]? = some u) (off : Nat) :
    s.doRead k off = { s with readData := bytesOfWord (u.readReg off) } := by simp [State.doRead, hu]

theorem State.doWrite_eq (hu : s.units[k]? = some u) (off : Nat) (v : Word) :
    s.doWrite k off v = { s with units := s.units.set k (u.writeReg off v) } := by simp [State.doWrite, hu]

theorem issue_of_decode {v : Word} {i : Instr} (hu : s.units[k]? = some u) (hd : decode u.body.type v = .ok i) :
    issue k v s = exec i { s with sel := k } := by simp [issue, hu, hd]

end Access

/-- Settles O5: the offset of the address is that of CMD, so the write is a command, and the unit decodes it. -/
theorem stepRunsTheDecodedCommand : Obligations.StepRunsTheDecodedCommand := by
  intro s a k data rest u i hbus hk hu hcmd ha hlen hd
  have hoff : a - u.base = 0x008 := by omega
  rw [step_cons hbus, State.request_write hk hu ha hlen, hoff]
  exact issue_of_decode hu hd

/-! ### Register writes -/

theorem DspUnit.writeReg_eq (u : DspUnit) (off : Nat) (v : Word) :
    u.writeReg off v =
      if off = 0x010 then { u with regs := { u.regs with opa := v } }
      else if off = 0x018 then { u with regs := { u.regs with opb := v } }
      else if off = 0x038 then { u with regs := u.regs.writeStatus v }
      else if off = 0x040 then { u with regs := { u.regs with sr := v } }
      else u := by
  unfold DspUnit.writeReg
  split <;> simp_all

/-- Settles O10: the write is no command, and `writeReg` tells the offsets apart. -/
theorem registerWritesStoreOrAreIgnored : Obligations.RegisterWritesStoreOrAreIgnored := by
  intro s a k data rest u hbus hk hu ha hlen hcmd
  have hoff : ∀ off, 0 < off → (a - u.base = off ↔ a = u.base + off) := fun off h => by omega
  have hne : a - u.base ≠ 0x008 := fun h => hcmd ((hoff _ (by decide)).1 h)
  rw [step_cons hbus, State.request_write hk hu ha hlen, writeRequest, if_neg hne]
  show Host.Outcome.next (State.doWrite _ k _ _) = _
  rw [State.doWrite_eq (s := { s with bus := rest }) hu, DspUnit.writeReg_eq]
  simp only [hoff 0x010 (by decide), hoff 0x018 (by decide), hoff 0x038 (by decide), hoff 0x040 (by decide)]

/-! ### Register reads -/

theorem fdlView_eq (S : FdlState) (off : Nat) :
    fdlView S off =
      if off = 0x050 then S.line.delay.toBits
      else if off = 0x058 then BitVec.ofNat 64 S.line.cap
      else if off = 0x060 then S.line.last.toBits
      else if off = 0x068 then BitVec.ofNat 64 S.line.w
      else if off = 0x070 then BitVec.ofNat 64 S.line.r
      else if off = 0x078 then S.alpha.toBits
      else if off = 0x080 then S.omalpha.toBits
      else if off = 0x088 then S.coeff.toBits
      else if off = 0x090 then S.apin.toBits
      else if off = 0x098 then (if S.cvalid then 1 else 0)
      else if off = 0x0A0 then S.cval.toBits
      else 0 := by
  unfold fdlView
  split <;> simp_all [intWord]

theorem iirView_eq (S : IirState) (off : Nat) :
    iirView S off =
      if off = 0x050 then S.freq.toBits
      else if off = 0x058 then S.q.toBits
      else if off = 0x060 then S.gain.toBits
      else if off = 0x068 then S.y1.toBits
      else if off = 0x070 then S.y2.toBits
      else if off = 0x078 then S.c.c0.toBits
      else if off = 0x080 then S.c.c1.toBits
      else if off = 0x088 then S.c.c2.toBits
      else if off = 0x090 then S.c.c3.toBits
      else if off = 0x098 then S.c.c4.toBits
      else 0 := by
  unfold iirView
  split <;> simp_all

theorem revView_eq (S : RevState) (off : Nat) :
    revView S off =
      if off = 0x050 then S.mix.toBits
      else if off = 0x058 then S.t60.toBits
      else if off = 0x060 then S.lastL.toBits
      else if off = 0x068 then S.lastR.toBits
      else if off = 0x070 then S.lp.toBits
      else if off = 0x078 then BitVec.ofNat 64 S.len.length
      else if off % 8 = 0 ∧ 0x080 ≤ off ∧ off < 0x100 then BitVec.ofNat 64 (S.len.getD ((off - 0x080) / 8) 0)
      else if off % 8 = 0 ∧ 0x100 ≤ off ∧ off < 0x130 then (S.cg.getD ((off - 0x100) / 8) F64.zero).toBits
      else if off = 0x130 then S.srcfg.toBits
      else 0 := by
  unfold revView
  split
  case h_8 =>
    by_cases h8 : off % 8 = 0 <;> simp_all [intWord]
  all_goals simp [intWord]

/-- The register map of every unit type, with STATUS and the type's own views under their names. -/
theorem DspUnit.readReg_eq (u : DspUnit) (off : Nat) :
    u.readReg off =
      if off = 0x000 then idWord u.body.type
      else if off = 0x008 then 0
      else if off = 0x010 then u.regs.opa
      else if off = 0x018 then u.regs.opb
      else if off = 0x020 then u.regs.res0
      else if off = 0x028 then u.regs.res1
      else if off = 0x030 then u.regs.res2
      else if off = 0x038 then u.readReg 0x038
      else if off = 0x040 then u.regs.sr
      else if off = 0x048 then (modeCode u.body).setWidth 64
      else viewWord u.body off := by
  conv_lhs => unfold DspUnit.readReg
  split <;> simp_all [DspUnit.readReg]

theorem modeCode_fdl (S : FdlState) :
    (modeCode (.fdl S)).setWidth 64 = match S.variant with | .fixed => 0 | .allpass => 1 | .linear => 2 := by
  cases h : S.variant <;> simp [modeCode, h]

theorem modeCode_iir (S : IirState) :
    (modeCode (.iir S)).setWidth 64 = match S.variant with
      | .lpf => 0 | .hpf => 1 | .bpf => 2 | .brf => 3 | .rlpf => 4 | .rhpf => 5 | .resonz => 6 | .biquad => 7 := by
  cases h : S.variant <;> simp [modeCode, h]

theorem modeCode_rev (S : RevState) :
    (modeCode (.rev S)).setWidth 64 = match S.topo with | .a => 0 | .b => 1 | .c => 2 := by
  cases h : S.topo <;> simp [modeCode, h]

/-- Settles O8: the read returns `readReg`, which is the register map of the unit's type. -/
theorem readReturnsTheRegister : Obligations.ReadReturnsTheRegister := by
  intro s a k off rest u v hbus hk hu ha hoff hv
  rw [step_cons hbus, State.request_read hk hu ha, ← hoff]
  show Host.Outcome.next (State.doRead _ k off) = _
  rw [State.doRead_eq (s := { s with bus := rest }) hu, hv, DspUnit.readReg_eq]
  obtain ⟨base, regs, body⟩ := u
  cases body with
  | fdl S => rw [modeCode_fdl, viewWord, fdlView_eq]; rfl
  | iir S => rw [modeCode_iir, viewWord, iirView_eq]; rfl
  | rev S => rw [modeCode_rev, viewWord, revView_eq]; rfl

/-! ### STATUS -/

theorem statusWord_getLsbD (ready : Bool) (r : Regs) (i : Nat) :
    (statusWord ready r).getLsbD i =
      (if i = 0 then ready
       else if 8 ≤ i ∧ i ≤ 12 then r.warn.getLsbD (i - 8)
       else if i = 16 then r.err
       else if 24 ≤ i ∧ i ≤ 31 then (errValue r.errcode).getLsbD (i - 24)
       else false) := by
  rw [statusWord]
  iterate 7 rw [BitVec.getLsbD_append]
  simp only [BitVec.getLsbD_zero, BitVec.getLsbD_ofBool, Nat.sub_sub, Nat.reduceAdd]
  split_ifs <;> try omega
  all_goals simp_all

section WriteStatus
variable (r : Regs) (v : Word)

/-- A write to STATUS touches the warnings, ERR and ERRCODE alone. -/
theorem Regs.writeStatus_eq :
    r.writeStatus v = { r with
      warn := r.warn &&& ~~~(v.extractLsb' 8 5)
      err := r.err && !v.getLsbD 16
      errcode := if v.getLsbD 16 then .noError else r.errcode } := by
  unfold Regs.writeStatus
  cases v.getLsbD 16 <;> simp

theorem Regs.writeStatus_warn_getLsbD {i : Nat} (hi : 8 ≤ i ∧ i ≤ 12) :
    (r.writeStatus v).warn.getLsbD (i - 8) = (r.warn.getLsbD (i - 8) && !v.getLsbD i) := by
  have h5 : i - 8 < 5 := by omega
  have h8 : 8 + (i - 8) = i := by omega
  rw [Regs.writeStatus_eq]
  simp [h5, h8]

theorem Regs.writeStatus_errValue_getLsbD (j : Nat) :
    (errValue (r.writeStatus v).errcode).getLsbD j = ((errValue r.errcode).getLsbD j && !v.getLsbD 16) := by
  rw [Regs.writeStatus_eq]
  cases v.getLsbD 16 <;> simp [errValue]

end WriteStatus

theorem DspUnit.readReg_status (u : DspUnit) : u.readReg 0x038 = statusWord u.body.ready u.regs := rfl

theorem DspUnit.writeReg_status (u : DspUnit) (v : Word) :
    u.writeReg 0x038 v = { u with regs := u.regs.writeStatus v } := rfl

theorem DspUnit.readReg_writeReg_status_of_ne (u : DspUnit) (v : Word) {off : Nat} (h : off ≠ 0x038) :
    (u.writeReg 0x038 v).readReg off = u.readReg off := by
  rw [DspUnit.readReg_eq, DspUnit.readReg_eq u, DspUnit.writeReg_status, Regs.writeStatus_eq]
  simp only [if_neg h]

/-- Settles O12: every bit of STATUS is a bit of one field, and the write's effect is known field by field. -/
theorem statusFieldsReadAndClear : Obligations.StatusFieldsReadAndClear := by
  refine ⟨by decide, fun u v i _ =>
    ⟨statusWord_getLsbD _ _ i, ?_, fun off h => u.readReg_writeReg_status_of_ne v h, rfl, rfl⟩⟩
  rw [DspUnit.writeReg_status, DspUnit.readReg_status, DspUnit.readReg_status, statusWord_getLsbD, statusWord_getLsbD]
  by_cases hw : 8 ≤ i ∧ i ≤ 12
  · rw [if_neg (by omega), if_pos hw, if_pos (.inl hw), if_neg (by omega), if_pos hw]
    exact u.regs.writeStatus_warn_getLsbD v hw
  · by_cases he : i = 16
    · subst he
      simp [Regs.writeStatus_eq]
    · have hn : ¬ ((8 ≤ i ∧ i ≤ 12) ∨ i = 16) := not_or.2 ⟨hw, he⟩
      by_cases hc : 24 ≤ i ∧ i ≤ 31
      · simp only [if_neg hw, if_neg he, if_neg hn, if_pos hc, if_neg (show ¬ i = 0 by omega)]
        exact u.regs.writeStatus_errValue_getLsbD v _
      · simp only [if_neg hw, if_neg he, if_neg hn, if_neg hc]

/-! ### Reset -/

theorem zero_toBits : F64.zero.toBits = 0 := by decide

theorem mem_resetWith_units {l : List (UnitType × Nat)} {p : Params} {u : DspUnit} (h : u ∈ (State.resetWith l p).units) :
    ∃ t b, (t, b) ∈ l ∧ u = DspUnit.reset t b := by
  obtain ⟨⟨t, b⟩, hmem, rfl⟩ := List.mem_map.1 h
  exact ⟨t, b, hmem, rfl⟩

theorem viewWord_reset (t : UnitType) (off : Nat) : viewWord (Body.reset t) off = 0 := by
  cases t with
  | fdl => simp [viewWord, Body.reset, fdlView_eq, FdlState.reset, Line.blank, zero_toBits]
  | iir => simp [viewWord, Body.reset, iirView_eq, IirState.reset, Coeffs.zero, zero_toBits]
  | rev => simp [viewWord, Body.reset, revView_eq, RevState.reset, zero_toBits]

theorem DspUnit.reset_ready (t : UnitType) (b : Nat) : (DspUnit.reset t b).body.ready = false := by cases t <;> rfl

theorem statusWord_reset : statusWord false Regs.reset = 0 := by decide

theorem modeCode_reset (t : UnitType) : modeCode (Body.reset t) = 0 := by cases t <;> rfl

theorem DspUnit.reset_readReg (t : UnitType) (b off : Nat) :
    (DspUnit.reset t b).readReg off = if off = 0x000 then idWord t else if off = 0x040 then Config.srReset else 0 := by
  have hstatus : (DspUnit.reset t b).readReg 0x038 = 0 := by
    rw [DspUnit.readReg_status, DspUnit.reset_ready]
    exact statusWord_reset
  rw [DspUnit.readReg_eq, hstatus, DspUnit.reset_body, Body.reset_type, viewWord_reset, modeCode_reset]
  by_cases h : off = 0x040
  · subst h
    simp [DspUnit.reset, Regs.reset]
  · simp [DspUnit.reset, Regs.reset, h]

/-- Settles O13: every register of a reset unit, and the units after a power-on reset as those of a reset machine. -/
theorem resetPutsEveryUnitInItsResetState : Obligations.ResetPutsEveryUnitInItsResetState := by
  constructor
  · intro l p u off hu
    obtain ⟨t, b, hmem, rfl⟩ := mem_resetWith_units hu
    rw [DspUnit.reset_readReg, DspUnit.reset_ready, DspUnit.reset_body, Body.reset_type]
    exact ⟨hmem, rfl, by cases t <;> rfl⟩
  · intro s rest hbus
    rw [step_cons hbus]
    show Host.Outcome.next (State.powerOn _) = _
    simp [State.powerOn, State.resetWith, Function.comp_def]

theorem IirState.reset_inv : IirState.reset.Inv := ⟨flush_zero, flush_zero, rfl, rfl, fun _ => ⟨rfl, rfl⟩⟩

theorem RevState.reset_inv (n : Nat) : RevState.reset.Inv n :=
  ⟨rfl, List.forall_mem_nil _, flush_zero, ⟨by decide, by decide⟩, fun h => absurd h Bool.false_ne_true⟩

/-- Settles O58: each invariant holds of the reset state of its unit type, and a reset unit is in that state. -/
theorem invariantsHoldAtReset : Obligations.InvariantsHoldAtReset := by
  intro l p
  refine ⟨fun u hu => ?_, fun u hu => ?_, fun u hu S hS => ?_, fun u hu S hS => ?_⟩ <;>
    obtain ⟨t, b, -, rfl⟩ := mem_resetWith_units hu
  · exact ⟨fun _ => rfl, fun _ => rfl⟩
  · exact DspUnit.fdlInv_of_reset rfl
  · cases t <;> cases hS
    exact IirState.reset_inv
  · cases t <;> cases hS
    exact RevState.reset_inv _

end Sys2Proof.Machine
end

section
/-! A schedule of admitted accesses runs to its end (20_memory.md R62; 40_common.md R100; 60_exceptions.md R277): an admitted
event asks for nothing that stops the machine, and no step moves a window, so the events behind it stay admitted. -/

namespace Sys2Proof.Machine

/-! ### Windows -/

theorem findUnit_getElem? {l : List DspUnit} {a j k : Nat} (h : findUnit l a j = some k) :
    ∃ i u, k = j + i ∧ l[i]? = some u := by
  induction l generalizing j with
  | nil => cases h
  | cons u rest ih =>
    unfold findUnit at h
    split at h
    · exact ⟨0, u, by injection h with h; exact h.symm, rfl⟩
    · obtain ⟨i, v, rfl, hv⟩ := ih h
      exact ⟨i + 1, v, by omega, by simpa using hv⟩

/-- An access inside some window reaches a unit that exists. -/
theorem State.exists_unit_of_unitAt_isSome {s : State} {a : Nat} (h : (s.unitAt a).isSome = true) :
    ∃ k u, s.unitAt a = some k ∧ s.units[k]? = some u := by
  obtain ⟨k, hk⟩ := Option.isSome_iff_exists.1 h
  obtain ⟨i, u, rfl, hu⟩ := findUnit_getElem? hk
  exact ⟨0 + i, u, hk, by simpa using hu⟩

/-- Which unit an access reaches depends on the bases alone. -/
theorem findUnit_congr {l l' : List DspUnit} (h : l.map (·.base) = l'.map (·.base)) (a k : Nat) :
    findUnit l a k = findUnit l' a k := by
  induction l generalizing l' k with
  | nil => rw [List.map_eq_nil_iff.1 h.symm]
  | cons u rest ih =>
    obtain ⟨u', rest', rfl, hu, hrest⟩ := List.map_eq_cons_iff.1 h.symm
    rw [findUnit, findUnit, ih hrest.symm, DspUnit.covers, DspUnit.covers, hu]

theorem State.unitAt_congr {s t : State} (h : t.platform = s.platform) (a : Nat) : t.unitAt a = s.unitAt a := by
  refine findUnit_congr ?_ a 0
  simpa [State.platform, Function.comp_def] using congrArg (fun p => p.1.map Prod.snd) h

/-- Moving no window keeps what is admitted. -/
theorem State.admits_congr {s t : State} (h : t.platform = s.platform) (e : Event) : t.admits e = s.admits e := by
  cases e <;> simp only [State.admits, State.unitAt_congr h]

/-! ### Requests that do not stop the machine -/

/-- A command on an addressed unit answers a next state and leaves the schedule. -/
theorem exec_answers (i : Instr) {s : State} {u : DspUnit} (hu : s.selected? = some u) :
    ∃ t, exec i s = .next t ∧ t.bus = s.bus := by
  rcases exec_eq_runCommand i s with he | ⟨c, he⟩ | ⟨c, he⟩ | ⟨c, he⟩ <;> rw [he]
  · exact ⟨s, by simp [execNop, hu], rfl⟩
  all_goals exact ⟨_, runCommand_some hu, rfl⟩

@[simp] theorem State.rejectCommand_bus (s : State) (k : Nat) (c : ErrCode) : (s.rejectCommand k c).bus = s.bus := by
  unfold State.rejectCommand
  split <;> rfl

theorem issue_answers {s : State} {k : Nat} {u : DspUnit} (hu : s.units[k]? = some u) (v : Word) :
    ∃ t, issue k v s = .next t ∧ t.bus = s.bus := by
  cases hd : decode u.body.type v with
  | ok i =>
    rw [issue_of_decode hu hd]
    exact exec_answers i hu
  | error c =>
    exact ⟨State.rejectCommand { s with sel := k } k c, by simp only [issue, hu, hd], State.rejectCommand_bus ..⟩

theorem perform_writeRequest_answers {s : State} {k : Nat} {u : DspUnit} (hu : s.units[k]? = some u) (off : Nat)
    (v : Word) : ∃ t, perform s (writeRequest k off v) = .next t ∧ t.bus = s.bus := by
  unfold writeRequest
  split
  · exact issue_answers hu v
  · exact ⟨_, rfl, State.doWrite_bus ..⟩

/-- An admitted access lies in a unit's window, 8 bytes at a multiple of 8. -/
theorem State.admits_read {s : State} {a n : Nat} (h : s.admits (.read a n) = true) :
    n = 8 ∧ a % 8 = 0 ∧ ∃ k u, s.unitAt a = some k ∧ s.units[k]? = some u := by
  simp only [State.admits, Event.wellFormed, Bool.and_eq_true, beq_iff_eq] at h
  obtain ⟨hk, hlen, ha⟩ := h
  exact ⟨hlen, ha, State.exists_unit_of_unitAt_isSome hk⟩

theorem State.admits_write {s : State} {a : Nat} {data : List Byte} (h : s.admits (.write a data) = true) :
    data.length = 8 ∧ a % 8 = 0 ∧ ∃ k u, s.unitAt a = some k ∧ s.units[k]? = some u := by
  simp only [State.admits, Event.wellFormed, Bool.and_eq_true, beq_iff_eq] at h
  obtain ⟨hk, hlen, ha⟩ := h
  exact ⟨hlen, ha, State.exists_unit_of_unitAt_isSome hk⟩

/-- A step whose event is admitted answers a next state, with the event taken off the schedule. -/
theorem step_answers_of_admits {s : State} {e : Event} {rest : List Event} (hbus : s.bus = e :: rest)
    (he : s.admits e = true) : ∃ t, step s = .next t ∧ t.bus = rest := by
  rw [step_cons hbus]
  cases e with
  | read a n =>
    obtain ⟨rfl, ha, k, u, hk, hu⟩ := State.admits_read he
    rw [State.request_read hk hu ha]
    exact ⟨_, rfl, State.doRead_bus ..⟩
  | write a data =>
    obtain ⟨hlen, ha, k, u, hk, hu⟩ := State.admits_write he
    rw [State.request_write hk hu ha hlen]
    exact perform_writeRequest_answers (s := { s with bus := rest }) hu _ _
  | powerOnReset => exact ⟨_, rfl, rfl⟩

/-- A step of a safe schedule answers a next state, whose schedule is safe. -/
theorem State.SafeSchedule.step_answers {s : State} (h : s.SafeSchedule) : ∃ t, step s = .next t ∧ t.SafeSchedule := by
  cases hbus : s.bus with
  | nil => exact ⟨s, step_nil hbus, h⟩
  | cons e rest =>
    obtain ⟨t, ht, hrest⟩ := step_answers_of_admits hbus (h e (by simp [hbus]))
    refine ⟨t, ht, fun e' he' => ?_⟩
    rw [State.admits_congr (stepKeepsThePlatform s t ht)]
    exact h e' (hbus ▸ List.mem_cons_of_mem e (hrest ▸ he'))

theorem core_run_succ {s t : State} (h : step s = .next t) (n : Nat) :
    Host.Core.run Sys2Proof.core (n + 1) s = Host.Core.run Sys2Proof.core n t := by
  have h' : Sys2Proof.core.step s = .next t := h
  simp only [Host.Core.run, h']

/-- Settles O14, by induction on the number of steps: a step answers a next state and keeps the schedule safe. -/
theorem admittedScheduleNeverStops : Obligations.AdmittedScheduleNeverStops := by
  intro s h n
  induction n generalizing s with
  | zero => exact ⟨s, rfl⟩
  | succ n ih =>
    obtain ⟨t, ht, hsafe⟩ := h.step_answers
    rw [core_run_succ ht]
    exact ih t hsafe

end Sys2Proof.Machine
end

section
/-! The bytes of a register on the bus have the register's bits (20_memory.md R61). -/

namespace Sys2Proof.Machine

/-- Bit `i` of bytes in ascending order is bit `i % 8` of byte `i / 8`. -/
theorem natOfBytes_testBit (l : List Byte) (i : Nat) :
    (natOfBytes l).testBit i = (l.getD (i / 8) 0).getLsbD (i % 8) := by
  induction l generalizing i with
  | nil => simp [natOfBytes]
  | cons b rest ih =>
    rw [natOfBytes, Nat.add_comm, show 256 = 2 ^ 8 from rfl, Nat.testBit_two_pow_mul_add _ b.isLt]
    split
    · rename_i h
      rw [Nat.div_eq_of_lt h, Nat.mod_eq_of_lt h]
      rfl
    · rename_i h
      rw [ih, show i / 8 = (i - 8) / 8 + 1 by omega, show (i - 8) % 8 = i % 8 by omega, List.getD_cons_succ]

theorem wordOfBytes_getLsbD (l : List Byte) {i : Nat} (hi : i < 64) :
    (wordOfBytes l).getLsbD i = (l.getD (i / 8) 0).getLsbD (i % 8) := by
  rw [wordOfBytes, BitVec.getLsbD_ofNat, natOfBytes_testBit, decide_eq_true hi, Bool.true_and]

@[simp] theorem bytesOfWord_length (v : Word) : (bytesOfWord v).length = 8 := by simp [bytesOfWord]

theorem bytesOfWord_getElem? (v : Word) {k : Nat} (hk : k < 8) : (bytesOfWord v)[k]? = some (byteOf v k) := by
  simp [bytesOfWord, hk]

theorem byteOf_getLsbD (v : Word) (k : Nat) {j : Nat} (hj : j < 8) :
    (byteOf v k).getLsbD j = v.getLsbD (8 * k + j) := by
  simp [byteOf, hj]

/-- The bytes of a register write the register. -/
theorem wordOfBytes_bytesOfWord (v : Word) : wordOfBytes (bytesOfWord v) = v := by
  refine BitVec.eq_of_getLsbD_eq fun i hi => ?_
  rw [wordOfBytes_getLsbD _ hi, List.getD_eq_getElem?_getD, bytesOfWord_getElem? v (by omega), Option.getD_some,
    byteOf_getLsbD v _ (by omega), Nat.div_add_mod]

theorem byteOf_wordOfBytes (l : List Byte) {k : Nat} (hk : k < 8) : byteOf (wordOfBytes l) k = l.getD k 0 := by
  refine BitVec.eq_of_getLsbD_eq fun j hj => ?_
  rw [byteOf_getLsbD _ _ hj, wordOfBytes_getLsbD _ (by omega), show (8 * k + j) / 8 = k by omega,
    show (8 * k + j) % 8 = j by omega]

/-- Eight bytes are the bytes of the register they write. -/
theorem bytesOfWord_wordOfBytes {l : List Byte} (hl : l.length = 8) : bytesOfWord (wordOfBytes l) = l := by
  refine List.ext_getElem (by simp [hl]) fun k hk hk' => ?_
  have h8 : k < 8 := hl ▸ hk'
  rw [List.getElem_eq_iff, bytesOfWord_getElem? _ h8, byteOf_wordOfBytes l h8, List.getD_eq_getElem _ _ hk']

/-- Settles O9: the bytes of a word and the word of eight bytes have the same bits. -/
theorem registerBytesAreLittleEndian : Obligations.RegisterBytesAreLittleEndian :=
  ⟨fun v _ hk => bytesOfWord_getElem? v hk, fun v => ⟨bytesOfWord_length v, wordOfBytes_bytesOfWord v⟩,
    fun _ hl => bytesOfWord_wordOfBytes hl⟩

end Sys2Proof.Machine
end

section
/-! A sample RAM in canonical form is determined by what its words read (20_memory.md R66, log 8). -/

namespace Sys2Proof.Machine

namespace Ram

theorem pairwise_of_sorted {m : Ram} (h : sorted m = true) : m.Pairwise (fun c d => c.1 < d.1) := by
  induction m with
  | nil => exact .nil
  | cons a rest ih =>
    obtain ⟨ha, hr⟩ := sorted_cons.1 h
    exact .cons ha (ih hr)

theorem read_of_mem {m : Ram} {c : Nat × F64} (h : sorted m = true) (hc : c ∈ m) : m.read c.1 = c.2 := by
  induction m with
  | nil => cases hc
  | cons a rest ih =>
    obtain ⟨ha, hr⟩ := sorted_cons.1 h
    rcases List.mem_cons.1 hc with rfl | hc
    · simp [read]
    · rw [read, if_neg (ha c hc).ne', ih hr hc]

theorem mem_of_read_ne {m : Ram} {i : Nat} (h : m.read i ≠ F64.zero) : (i, m.read i) ∈ m := by
  induction m with
  | nil => exact absurd rfl h
  | cons a rest ih =>
    rw [read] at h ⊢
    split at h
    · rename_i hi
      simp [hi]
    · rename_i hi
      rw [if_neg hi]
      exact List.mem_cons_of_mem _ (ih h)

theorem wf_iff {m : Ram} : m.wf = true ↔ sorted m = true ∧ ∀ c ∈ m, c.2 ≠ F64.zero := by
  simp [wf]

/-- A canonical RAM lists the words that do not read `+0.0`. -/
theorem mem_iff_read {m : Ram} (h : m.wf = true) {c : Nat × F64} : c ∈ m ↔ m.read c.1 = c.2 ∧ c.2 ≠ F64.zero := by
  obtain ⟨hs, hne⟩ := wf_iff.1 h
  refine ⟨fun hc => ⟨read_of_mem hs hc, hne c hc⟩, fun ⟨hr, hc⟩ => ?_⟩
  have := mem_of_read_ne (hr ▸ hc)
  rwa [hr] at this

/-- Two canonical RAMs with the same contents list the same words in the same order. -/
theorem ext_of_wf {m m' : Ram} (h : m.wf = true) (h' : m'.wf = true) (hread : ∀ i, m.read i = m'.read i) : m = m' := by
  have : Std.Irrefl (fun c d : Nat × F64 => c.1 < d.1) := ⟨fun c => lt_irrefl c.1⟩
  refine (pairwise_of_sorted (wf_iff.1 h).1).eq_of_mem_iff (pairwise_of_sorted (wf_iff.1 h').1) fun c => ?_
  rw [mem_iff_read h, mem_iff_read h', hread]

end Ram

/-- Settles O59: a read after a write and the form a write keeps are known of every RAM, and a canonical RAM is determined by
what its words read. -/
theorem ramWritesOneWord : Obligations.RamWritesOneWord :=
  ⟨Ram.read_write, fun _ i v h => Ram.wf_write i v h, fun _ _ h h' => Ram.ext_of_wf h h'⟩

end Sys2Proof.Machine
end

section
/-! Accesses that stop the machine, and accesses that nothing answers (20_memory.md R62, R63; 60_exceptions.md R277). -/

namespace Sys2Proof.Machine

/-! ### Accesses that stop the machine -/

section Unadmitted
variable {s : State} {a k n : Nat} {data : List Byte}

theorem State.request_read_of_unadmitted (hk : s.unitAt a = some k) (h : n ≠ 8 ∨ a % 8 ≠ 0) :
    s.request (.read a n) = .busError a n := by
  simp only [State.request, hk]
  exact if_neg (not_and_or.2 h)

theorem State.request_write_of_unadmitted (hk : s.unitAt a = some k) (h : data.length ≠ 8 ∨ a % 8 ≠ 0) :
    s.request (.write a data) = .busError a data.length := by
  simp only [State.request, hk]
  exact if_neg (not_and_or.2 h)

theorem State.request_read_of_outside (hk : s.unitAt a = none) : s.request (.read a n) = .outside a := by
  simp only [State.request, hk]

theorem State.request_write_of_outside (hk : s.unitAt a = none) : s.request (.write a data) = .outside a := by
  simp only [State.request, hk]

end Unadmitted

/-- Settles O7: the window and the form of the access decide what the event asks for. -/
theorem unadmittedAccessesStop : Obligations.UnadmittedAccessesStop := by
  intro s a k n data rest
  refine ⟨fun hk h hbus => ?_, fun hk h hbus => ?_, fun hk hbus => ?_, fun hk hbus => ?_⟩ <;> rw [step_cons hbus]
  · rw [State.request_read_of_unadmitted hk h]; rfl
  · rw [State.request_write_of_unadmitted hk h]; rfl
  · rw [State.request_read_of_outside hk]; rfl
  · rw [State.request_write_of_outside hk]; rfl

/-! ### Reserved offsets, read-only registers and zeros written to STATUS -/

theorem viewWord_of_lastOffset_lt {b : Body} {off : Nat} (h : lastOffset b.type < off) : viewWord b off = 0 := by
  cases b with
  | fdl S =>
    have h : 0x0A0 < off := h
    rw [viewWord, fdlView_eq]
    iterate 11 rw [if_neg (by omega)]
  | iir S =>
    have h : 0x098 < off := h
    rw [viewWord, iirView_eq]
    iterate 10 rw [if_neg (by omega)]
  | rev S =>
    have h : 0x130 < off := h
    rw [viewWord, revView_eq]
    iterate 9 rw [if_neg (by omega)]

theorem le_lastOffset (t : UnitType) : 0x098 ≤ lastOffset t := by cases t <;> decide

/-- Past the last named offset, and at CMD, a unit reads 0 (R63). -/
theorem DspUnit.readReg_eq_zero (u : DspUnit) {off : Nat} (h : lastOffset u.body.type < off ∨ off = 0x008) :
    u.readReg off = 0 := by
  rcases h with h | rfl
  · have h98 := le_lastOffset u.body.type
    rw [DspUnit.readReg_eq, viewWord_of_lastOffset_lt h]
    iterate 10 rw [if_neg (by omega)]
  · rfl

theorem bytesOfWord_zero : bytesOfWord 0 = List.replicate 8 0#8 := by decide

theorem Regs.writeStatus_zero (r : Regs) : r.writeStatus 0 = r := by
  have hkeep : ~~~((0 : Word).extractLsb' 8 5) = BitVec.allOnes 5 := by decide
  rw [Regs.writeStatus_eq, hkeep, BitVec.and_allOnes]
  simp

theorem DspUnit.writeReg_status_zero (u : DspUnit) : u.writeReg 0x038 0 = u := by
  rw [DspUnit.writeReg_status, Regs.writeStatus_zero]

/-- Only OPA, OPB, STATUS and SR store a write. -/
theorem DspUnit.writeReg_of_not_mem (u : DspUnit) {off : Nat} (v : Word) (h : off ∉ [0x010, 0x018, 0x038, 0x040]) :
    u.writeReg off v = u := by
  simp only [List.mem_cons, List.not_mem_nil, or_false, not_or] at h
  obtain ⟨hopa, hopb, hstatus, hsr⟩ := h
  rw [DspUnit.writeReg_eq, if_neg hopa, if_neg hopb, if_neg hstatus, if_neg hsr]

/-- A write that the addressed unit ignores only takes its event off the schedule. -/
theorem step_of_ignored_write {s : State} {a k off : Nat} {data : List Byte} {rest : List Event} {u : DspUnit}
    (hbus : s.bus = .write a data :: rest) (hk : s.unitAt a = some k) (hu : s.units[k]? = some u) (ha : a % 8 = 0)
    (hlen : data.length = 8) (hoff : off = a - u.base) (hcmd : off ≠ 0x008)
    (h : u.writeReg off (wordOfBytes data) = u) : step s = .next { s with bus := rest } := by
  obtain ⟨hlt, hget⟩ := List.getElem?_eq_some_iff.1 hu
  rw [step_cons hbus, State.request_write hk hu ha hlen, ← hoff, writeRequest, if_neg hcmd]
  show Host.Outcome.next (State.doWrite _ k _ _) = _
  rw [State.doWrite_eq (s := { s with bus := rest }) hu, h, ← hget, List.set_getElem_self]

/-- A bit of STATUS below ERRCODE stays where 0 is written. -/
theorem DspUnit.readReg_status_of_zero_bit (u : DspUnit) {v : Word} {i : Nat} (hv : v.getLsbD i = false) (hi : i < 24) :
    ((u.writeReg 0x038 v).readReg 0x038).getLsbD i = (u.readReg 0x038).getLsbD i := by
  obtain ⟨-, hfields⟩ := statusFieldsReadAndClear
  obtain ⟨-, hwrite, -⟩ := hfields u v i (by omega)
  rw [hwrite, hv, if_neg (show ¬ (24 ≤ i ∧ i ≤ 31) by omega), Bool.not_false, Bool.and_true, ite_self]

/-- Settles O11: the register map is 0 there, `writeReg` keeps the unit, and a 0 clears no bit. -/
theorem reservedOffsetsReadZeroAndIgnoreWrites : Obligations.ReservedOffsetsReadZeroAndIgnoreWrites := by
  intro s a k off data rest u hk hu ha hoff hlen
  refine ⟨fun h hbus => ?_, fun h hbus => ?_, fun h hv hbus => ?_, fun v i hv hi => u.readReg_status_of_zero_bit hv hi⟩
  · rw [step_cons hbus, State.request_read hk hu ha, ← hoff]
    show Host.Outcome.next (State.doRead _ k off) = _
    rw [State.doRead_eq (s := { s with bus := rest }) hu, u.readReg_eq_zero h, bytesOfWord_zero]
  · obtain ⟨hcmd, hstored⟩ : off ≠ 0x008 ∧ off ∉ [0x010, 0x018, 0x038, 0x040] := by simpa using h
    exact step_of_ignored_write hbus hk hu ha hlen hoff hcmd (u.writeReg_of_not_mem _ hstored)
  · refine step_of_ignored_write hbus hk hu ha hlen hoff (by omega) ?_
    rw [h, hv, u.writeReg_status_zero]

end Sys2Proof.Machine
end

section
/-! The command words (30_encoding.md R80 to R84): a word is its three fields, each table of the decoder answers exactly
where the encoder's table agrees, and the words that decode to nothing. -/

namespace Sys2Proof

/-! ### The fields of a word -/

theorem append_fields (w : Word) : ((rsvField w ++ subField w) ++ opField w : Word) = w := by
  unfold rsvField subField opField
  rw [BitVec.extractLsb'_append_extractLsb'_eq_extractLsb' (by decide),
    BitVec.extractLsb'_append_extractLsb'_eq_extractLsb' (by decide)]
  exact BitVec.extractLsb'_eq_self

@[simp] theorem opField_encode (i : Instr) : opField (encode i) = opValue i.opcode := BitVec.extractLsb'_append_eq_right

@[simp] theorem subField_encode (i : Instr) : subField (encode i) = subValue i :=
  (BitVec.extractLsb'_append_eq_of_le (by decide)).trans BitVec.extractLsb'_append_eq_right

@[simp] theorem rsvField_encode (i : Instr) : rsvField (encode i) = 0 :=
  (BitVec.extractLsb'_append_eq_of_le (by decide)).trans BitVec.extractLsb'_append_eq_left

/-- A word is the encoding of a command exactly when its fields are those of the command (R80). -/
theorem eq_encode_iff {w : Word} {i : Instr} :
    w = encode i ↔ opField w = opValue i.opcode ∧ rsvField w = 0 ∧ subField w = subValue i := by
  constructor
  · rintro rfl
    simp
  · rintro ⟨hop, hrsv, hsub⟩
    rw [← append_fields w, hop, hrsv, hsub]
    rfl

/-! ### The two tables of the decoder -/

/-- A unit type accepts an opcode: it is NOP's or the type's own (R83, R84 step 1). -/
def Opcode.acceptedBy (o : Opcode) (t : UnitType) : Prop := o.owner = none ∨ o.owner = some t

theorem Instr.legalIn_iff {i : Instr} {t : UnitType} : i.legalIn t = true ↔ i.opcode.acceptedBy t := by
  unfold Instr.legalIn Opcode.acceptedBy
  cases i.opcode.owner <;> simp

/-- The OP table of a window is `opValue` read backwards, on the opcodes the unit accepts (R83). -/
theorem opcodeOf_eq_some_iff {t : UnitType} {op : BitVec 8} {o : Opcode} :
    opcodeOf t op = some o ↔ op = opValue o ∧ o.acceptedBy t := by
  constructor
  · intro h
    unfold opcodeOf at h
    split at h <;> cases h
    case h_1 hop => exact ⟨BitVec.eq_of_toNat_eq hop, .inl rfl⟩
    all_goals exact ⟨BitVec.eq_of_toNat_eq ‹_›, .inr rfl⟩
  · rintro ⟨rfl, hacc⟩
    cases o with
    | nop => rfl
    | _ =>
      obtain hnone | hown := hacc
      · cases hnone
      · cases hown
        rfl

theorem subZero_eq_ok_iff {sub : BitVec 4} {i j : Instr} : subZero sub j = .ok i ↔ sub = 0 ∧ j = i := by
  by_cases hsub : sub = 0
  · simp [subZero, hsub]
  · simp only [subZero, hsub, if_false, false_and, reduceCtorEq]

theorem subZero_eq_error {sub : BitVec 4} {j : Instr} {c : ErrCode} (h : subZero sub j = .error c) :
    c = .reservedBits := by
  unfold subZero at h
  split at h <;> cases h
  rfl

/-- The SUB table of an opcode is `subValue` read backwards, on the commands of the opcode (R82). -/
theorem selectSub_eq_ok_iff {o : Opcode} {sub : BitVec 4} {i : Instr} :
    selectSub o sub = .ok i ↔ i.opcode = o ∧ sub = subValue i := by
  constructor
  · intro h
    cases o with
    | fdlConfig | iirConfig | iirSetResonance | revConfig =>
      unfold selectSub at h
      dsimp only at h
      split at h <;> cases h <;> exact ⟨rfl, BitVec.eq_of_toNat_eq ‹_›⟩
    | _ =>
      obtain ⟨hsub, rfl⟩ := subZero_eq_ok_iff.1 h
      exact ⟨rfl, hsub⟩
  · rintro ⟨rfl, rfl⟩
    cases i <;> rfl

/-- The error of a SUB outside the range of its opcode (R82). -/
def Opcode.subError (o : Opcode) : ErrCode :=
  if o = .fdlConfig ∨ o = .iirConfig ∨ o = .revConfig then .badVariant else .reservedBits

theorem eq_subError_of_selectSub {o : Opcode} {sub : BitVec 4} {c : ErrCode} (h : selectSub o sub = .error c) :
    c = o.subError := by
  cases o with
  | fdlConfig | iirConfig | iirSetResonance | revConfig =>
    unfold selectSub at h
    dsimp only at h
    split at h <;> cases h
    rfl
  | _ => exact subZero_eq_error h

theorem subValue_lt_subCount (i : Instr) : (subValue i).toNat < i.opcode.subCount := by cases i <;> decide

theorem selectSub_of_subCount_le {o : Opcode} {sub : BitVec 4} (h : o.subCount ≤ sub.toNat) :
    selectSub o sub = .error o.subError := by
  cases hsel : selectSub o sub with
  | ok i =>
    obtain ⟨rfl, rfl⟩ := selectSub_eq_ok_iff.1 hsel
    exact absurd (subValue_lt_subCount i) (Nat.not_lt.2 h)
  | error c => rw [eq_subError_of_selectSub hsel]

/-! ### The decoder -/

theorem decode_of_accepted {t : UnitType} {w : Word} {o : Opcode} (hop : opField w = opValue o) (hacc : o.acceptedBy t) :
    decode t w = if rsvField w = 0 then selectSub o (subField w) else .error .reservedBits := by
  simp only [decode, opcodeOf_eq_some_iff.2 ⟨hop, hacc⟩]

theorem decode_of_not_accepted {t : UnitType} {w : Word} (h : ∀ o : Opcode, opField w = opValue o → ¬ o.acceptedBy t) :
    decode t w = .error .illegalOpcode := by
  have hnone : opcodeOf t (opField w) = none :=
    Option.eq_none_iff_forall_ne_some.2 fun o ho =>
      have ⟨hop, hacc⟩ := opcodeOf_eq_some_iff.1 ho
      h o hop hacc
  simp only [decode, hnone]

/-- The checks of R84 steps 1 to 3, all passed. -/
theorem decode_eq_ok_iff_fields {t : UnitType} {w : Word} {i : Instr} :
    decode t w = .ok i ↔
      (opField w = opValue i.opcode ∧ i.opcode.acceptedBy t) ∧ rsvField w = 0 ∧ subField w = subValue i := by
  constructor
  · intro h
    unfold decode at h
    split at h
    case h_1 => cases h
    case h_2 o ho =>
      split at h
      case isFalse => cases h
      case isTrue hrsv =>
        obtain ⟨rfl, hsub⟩ := selectSub_eq_ok_iff.1 h
        exact ⟨opcodeOf_eq_some_iff.1 ho, hrsv, hsub⟩
  · rintro ⟨⟨hop, hacc⟩, hrsv, hsub⟩
    rw [decode_of_accepted hop hacc, if_pos hrsv]
    exact selectSub_eq_ok_iff.2 ⟨rfl, hsub⟩

/-- Decoding and encoding are inverse to each other on the commands a unit accepts. -/
theorem decode_eq_ok_iff {t : UnitType} {w : Word} {i : Instr} :
    decode t w = .ok i ↔ w = encode i ∧ i.legalIn t = true := by
  rw [decode_eq_ok_iff_fields, eq_encode_iff, Instr.legalIn_iff, and_right_comm]

/-- Settles O2: the two tables of the decoder are the encoder's read backwards, and a word is its three fields. -/
theorem decodedWordIsTheEncoding : Obligations.DecodedWordIsTheEncoding := fun _ _ _ => decode_eq_ok_iff.1

/-- Settles O3: no opcode of the unit has this OP, or one has and RSV and SUB are checked in turn. -/
theorem decodeErrorsComeInOrder : Obligations.DecodeErrorsComeInOrder := by
  intro t w
  refine ⟨fun h => decode_of_not_accepted fun o hop => ?_, fun o hop hacc => ⟨fun hrsv => ?_, fun hrsv hsub => ?_⟩⟩
  · exact not_or.2 (h o hop.symm)
  · exact (decode_of_accepted hop.symm hacc).trans (if_neg hrsv)
  · calc decode t w = selectSub o (subField w) := (decode_of_accepted hop.symm hacc).trans (if_pos hrsv)
      _ = .error o.subError := selectSub_of_subCount_le hsub

/-- Settles O1: the encoding is one of the words that decode. -/
theorem decodeOfEncodeIsTheCommand : Obligations.DecodeOfEncodeIsTheCommand :=
  fun _ _ h => decode_eq_ok_iff.2 ⟨rfl, h⟩

/-- Settles O4: each word is the encoding of a command that the unit accepts. -/
theorem wordsOfTheMapDecode : Obligations.WordsOfTheMapDecode :=
  ⟨decodeOfEncodeIsTheCommand .fdl .nop rfl, decodeOfEncodeIsTheCommand .fdl .fdlConfigAllpass rfl,
    decodeOfEncodeIsTheCommand .fdl .fdlTick rfl, decodeOfEncodeIsTheCommand .iir .iirConfigResonz rfl,
    decodeOfEncodeIsTheCommand .iir .iirSetResonanceNorm rfl, decodeOfEncodeIsTheCommand .iir .iirClear rfl,
    decodeOfEncodeIsTheCommand .rev .revConfigC rfl, decodeOfEncodeIsTheCommand .rev .revTick rfl⟩

end Sys2Proof
end

section
/-! A CMD write of a word that the unit does not decode (30_encoding.md R84, R85; 60_exceptions.md R261). -/

namespace Sys2Proof.Machine

/-- The decode errors are no CFG errors, so they leave the internal fields (R262). -/
theorem isCfgError_subError (o : Opcode) : isCfgError o.subError = false := by cases o <;> rfl

theorem decode_error_not_cfg {t : UnitType} {w : Word} {c : ErrCode} (h : decode t w = .error c) :
    isCfgError c = false := by
  unfold decode at h
  split at h
  case h_1 =>
    cases h
    rfl
  case h_2 o _ =>
    split at h
    case isTrue => rw [eq_subError_of_selectSub h, isCfgError_subError]
    case isFalse =>
      cases h
      rfl

theorem issue_of_decode_error {s : State} {k : Nat} {v : Word} {u : DspUnit} {c : ErrCode} (hu : s.units[k]? = some u)
    (hd : decode u.body.type v = .error c) :
    issue k v s = .next { s with
      sel := k
      units := s.units.set k { u with regs := { u.regs with err := true, errcode := c } } } := by
  simp [issue, hu, hd, State.rejectCommand, DspUnit.raise_of_not_cfg u (decode_error_not_cfg hd)]

/-- Settles O6: the write is a command, the unit does not decode it, and a decode error is no CFG error. -/
theorem stepRecordsARefusedWord : Obligations.StepRecordsARefusedWord := by
  intro s a k data rest u c hbus hk hu hcmd ha hlen hd
  have hoff : a - u.base = 0x008 := by omega
  rw [step_cons hbus, State.request_write hk hu ha hlen, hoff]
  exact issue_of_decode_error hu hd

end Sys2Proof.Machine
end

section
/-! The word of NOP and what it does (40_common.md R102), and what no command changes besides its unit (60_exceptions.md
R276). -/

namespace Sys2Proof.Machine

/-- SUB and RSV of a word together (30_encoding.md R80). -/
theorem upper_fields_eq_zero_iff {w : Word} : w.extractLsb' 8 56 = 0 ↔ rsvField w = 0 ∧ subField w = 0 := by
  have happ : rsvField w ++ subField w = w.extractLsb' 8 56 := BitVec.extractLsb'_append_extractLsb'_eq_extractLsb' rfl
  rw [← happ]
  constructor
  · intro h
    constructor
    · rw [← BitVec.extractLsb'_append_eq_left (a := rsvField w) (b := subField w), h]
      rfl
    · rw [← BitVec.extractLsb'_append_eq_right (a := rsvField w) (b := subField w), h]
      rfl
  · rintro ⟨hrsv, hsub⟩
    rw [hrsv, hsub]
    rfl

theorem decode_of_op_zero (t : UnitType) {w : Word} (h : opField w = 0) :
    decode t w = if w.extractLsb' 8 56 = 0 then .ok .nop else .error .reservedBits := by
  rw [decode_of_accepted (o := .nop) h (.inl rfl)]
  by_cases hrsv : rsvField w = 0
  · rw [if_pos hrsv]
    simp only [upper_fields_eq_zero_iff, hrsv, true_and]
    rfl
  · rw [if_neg hrsv, if_neg (fun h => hrsv (upper_fields_eq_zero_iff.1 h).1)]

theorem execNop_of_addresses {s : State} {u : DspUnit} (hu : s.Addresses u) : execNop s = .next s := by
  have hsel : s.selected? = some u := hu
  simp only [execNop, hsel]

/-- Settles O21: SUB and RSV are all the bits above OP, and every unit accepts NOP. -/
theorem nopChangesNothing : Obligations.NopChangesNothing :=
  ⟨by decide, fun t _ h => decode_of_op_zero t h, fun _ _ hu => execNop_of_addresses hu⟩

/-- Settles O19: a command changes nothing, or puts one unit in the place of the addressed one. -/
theorem otherUnitsAreUntouched : Obligations.OtherUnitsAreUntouched := by
  intro i s t h
  rcases exec_next h with rfl | ⟨σ, fam, c, u, -, -, rfl⟩
  · exact ⟨fun _ _ => rfl, rfl, rfl, rfl, rfl, rfl⟩
  · refine ⟨fun k hk => ?_, ?_, rfl, rfl, rfl, rfl⟩
    · rw [State.afterCommand_units, List.getElem?_set_ne hk.symm]
    · rw [State.afterCommand_units, List.length_set]

end Sys2Proof.Machine
end

section
/-! Which errors a command can raise and what it leaves of its unit (60_exceptions.md R261, R262). -/

namespace Sys2Proof.Machine

/-- The commands that may raise a CFG error (60_exceptions.md R262). -/
def Instr.IsConfig (i : Instr) : Prop := i.opcode = .fdlConfig ∨ i.opcode = .iirConfig ∨ i.opcode = .revConfig

/-- The errors that a command may raise: a code of R263 other than NONE, and a CFG error only from a CONFIG. -/
def Instr.MayRaise (i : Instr) (e : ErrCode) : Prop := e ≠ .noError ∧ (isCfgError e = true → Instr.IsConfig i)

theorem Instr.IsConfig.mayRaise {i : Instr} (hi : Instr.IsConfig i) {e : ErrCode} (he : isCfgError e = true) :
    Instr.MayRaise i e :=
  ⟨(by rintro rfl; cases he), fun _ => hi⟩

theorem Instr.mayRaise_of_not_cfg (i : Instr) {e : ErrCode} (hne : e ≠ .noError) (he : isCfgError e = false) :
    Instr.MayRaise i e :=
  ⟨hne, fun h => absurd (he.symm.trans h) Bool.false_ne_true⟩

/-! ### The errors of each body -/

section Bodies
variable {ν : NanSource} {o : Operands} {e : ErrCode}

theorem fdlConfigBody_error {v : FdlVariant} {n : Nat} {S : FdlState} (h : fdlConfigBody v n ν o S = .error e) :
    isCfgError e = true := by
  unfold fdlConfigBody at h
  dsimp only at h
  split_ifs at h <;> cases h <;> rfl

theorem iirConfigBody_error {v : IirVariant} {S : IirState} (h : iirConfigBody v ν o S = .error e) :
    isCfgError e = true := by
  unfold iirConfigBody at h
  dsimp only at h
  split_ifs at h
  · cases h
    rfl
  · split at h <;> cases h
    rfl

theorem revConfigBody_error {t : RevTopology} {n : Nat} {S : RevState} (h : revConfigBody t n ν o S = .error e) :
    isCfgError e = true := by
  unfold revConfigBody at h
  split_ifs at h
  · cases h
    rfl
  · cases h
    rfl
  · split at h <;> cases h
    rfl

theorem fdlSetDelayBody_error {S : FdlState} (h : fdlSetDelayBody ν o S = .error e) : e = .domainDelayNan := by
  unfold fdlSetDelayBody at h
  split_ifs at h
  cases h
  rfl

theorem iirSetFreqBody_error {S : IirState} (h : iirSetFreqBody ν o S = .error e) : e = .domainDesign := by
  unfold iirSetFreqBody at h
  split at h <;> cases h
  rfl

theorem iirSetQBody_error {S : IirState} (h : iirSetQBody ν o S = .error e) : e = .domainDesign := by
  unfold iirSetQBody at h
  split at h <;> cases h
  rfl

theorem iirSetResonanceBody_error {norm : Bool} {S : IirState} (h : iirSetResonanceBody norm ν o S = .error e) :
    e = .domainDesign := by
  unfold iirSetResonanceBody at h
  dsimp only at h
  split_ifs at h <;> cases h <;> rfl

theorem iirSetNotchBody_error {S : IirState} (h : iirSetNotchBody ν o S = .error e) : e = .domainDesign := by
  unfold iirSetNotchBody at h
  dsimp only at h
  split_ifs at h <;> cases h <;> rfl

theorem iirSetGainBody_error {S : IirState} (h : iirSetGainBody ν o S = .error e) : e = .domainDesign := by
  unfold iirSetGainBody at h
  split_ifs at h
  cases h
  rfl

theorem revSetMixBody_error {S : RevState} (h : revSetMixBody ν o S = .error e) : e = .domainMixNan := by
  unfold revSetMixBody at h
  split_ifs at h
  cases h
  rfl

end Bodies

/-! ### What a command makes of its unit -/

/-- `u'` is `u` with an error raised that `i` may raise, or `u` with a completed command. -/
def RaisesOrCommits (i : Instr) (u u' : DspUnit) : Prop :=
  (∃ e, Instr.MayRaise i e ∧ u' = u.raise e) ∨ ∃ b o w, u' = u.commit b o w

theorem execute_raisesOrCommits {σ : Type} {i : Instr} {fam : Family σ} {c : Command σ} (ν : NanSource) (u : DspUnit)
    (hc : ∀ ν o S e, c.body ν o S = .error e → Instr.MayRaise i e) : RaisesOrCommits i u (u.execute fam c ν) := by
  rcases DspUnit.execute_cases fam c ν u with ⟨e, he, hcode⟩ | ⟨S, S', o, w, -, -, -, -, he⟩
  · refine .inl ⟨e, ?_, he⟩
    rcases hcode with rfl | rfl | rfl | ⟨S, -, hb⟩
    · exact Instr.mayRaise_of_not_cfg i (by decide) rfl
    · exact Instr.mayRaise_of_not_cfg i (by decide) rfl
    · exact Instr.mayRaise_of_not_cfg i (by decide) rfl
    · exact hc _ _ _ _ hb
  · exact .inr ⟨_, _, _, he⟩

theorem runCommand_raisesOrCommits {σ : Type} {i : Instr} {fam : Family σ} {c : Command σ} {s t : State} {u u' : DspUnit}
    (hc : ∀ ν o S e, c.body ν o S = .error e → Instr.MayRaise i e) (hu : s.Addresses u)
    (h : runCommand fam c s = .next t) (hu' : t.Addresses u') : RaisesOrCommits i u u' := by
  rw [runCommand_some hu] at h
  injection h with h
  obtain rfl : u.execute fam c (freeNans s.draws) = u' := by
    have hk := (List.getElem?_eq_some_iff.1 hu).1
    rw [← h, State.Addresses, State.afterCommand_units, State.afterCommand_sel, List.getElem?_set_self hk] at hu'
    exact Option.some.inj hu'
  exact execute_raisesOrCommits _ u hc

/-- A command leaves its unit, or raises one of its errors there, or completes (40_common.md R100). -/
theorem exec_addressed {i : Instr} {s t : State} {u u' : DspUnit} (hu : s.Addresses u) (h : exec i s = .next t)
    (hu' : t.Addresses u') : u' = u ∨ RaisesOrCommits i u u' := by
  have hrun : ∀ {σ : Type} {fam : Family σ} {c : Command σ},
      (∀ ν o S e, c.body ν o S = .error e → Instr.MayRaise i e) → runCommand fam c s = .next t →
      u' = u ∨ RaisesOrCommits i u u' := fun hc h => .inr (runCommand_raisesOrCommits hc hu h hu')
  have hconfig : ∀ {σ : Type} {fam : Family σ} {c : Command σ}, Instr.IsConfig i →
      (∀ ν o S e, c.body ν o S = .error e → isCfgError e = true) → runCommand fam c s = .next t →
      u' = u ∨ RaisesOrCommits i u u' := fun hi hc => hrun fun ν o S e he => hi.mayRaise (hc ν o S e he)
  have hsetter : ∀ {σ : Type} {fam : Family σ} {c : Command σ} {d : ErrCode},
      (∀ ν o S e, c.body ν o S = .error e → e = d) → d ≠ .noError → isCfgError d = false → runCommand fam c s = .next t →
      u' = u ∨ RaisesOrCommits i u u' :=
    fun hc hne hd => hrun fun ν o S e he => hc ν o S e he ▸ Instr.mayRaise_of_not_cfg i hne hd
  cases i with
  | nop =>
    rw [(execNop_next h).1] at hu'
    exact .inl (Option.some.inj (hu'.symm.trans hu))
  | fdlConfigFixed | fdlConfigAllpass | fdlConfigLinear =>
    exact hconfig (.inl rfl) (fun _ _ _ _ => fdlConfigBody_error) h
  | iirConfigLpf | iirConfigHpf | iirConfigBpf | iirConfigBrf | iirConfigRlpf | iirConfigRhpf | iirConfigResonz
  | iirConfigBiquad => exact hconfig (.inr (.inl rfl)) (fun _ _ S _ => iirConfigBody_error (S := S)) h
  | revConfigA | revConfigB | revConfigC =>
    exact hconfig (.inr (.inr rfl)) (fun _ _ S _ => revConfigBody_error (S := S)) h
  | fdlSetDelay => exact hsetter (fun _ _ _ _ => fdlSetDelayBody_error) (by decide) rfl h
  | iirSetFreq => exact hsetter (fun _ _ _ _ => iirSetFreqBody_error) (by decide) rfl h
  | iirSetQ => exact hsetter (fun _ _ _ _ => iirSetQBody_error) (by decide) rfl h
  | iirSetResonance | iirSetResonanceNorm =>
    exact hsetter (fun _ _ _ _ => iirSetResonanceBody_error) (by decide) rfl h
  | iirSetNotch => exact hsetter (fun _ _ _ _ => iirSetNotchBody_error) (by decide) rfl h
  | iirSetGain => exact hsetter (fun ν _ _ _ => iirSetGainBody_error (ν := ν)) (by decide) rfl h
  | revSetMix => exact hsetter (fun ν _ _ _ => revSetMixBody_error (ν := ν)) (by decide) rfl h
  | fdlClear | fdlTick | fdlNextOut | fdlContentsAt | fdlEnergy | iirSample | iirClear | revTick | revClear =>
    exact hrun (fun ν o S e he => by cases he) h

/-! ### What an error leaves -/

theorem DspUnit.raise_of_cfg (u : DspUnit) {e : ErrCode} (h : isCfgError e = true) : u.raise e = u.configFail e := if_pos h

/-- MODE, the views and the offsets beyond them all read 0 of a reset internal state (10_state.md R37). -/
theorem DspUnit.readReg_of_reset_body {u : DspUnit} {t : UnitType} {off : Nat} (h : u.body = Body.reset t)
    (hoff : 0x048 ≤ off) : u.readReg off = 0 := by
  rw [DspUnit.readReg_eq, h, modeCode_reset, viewWord_reset]
  split_ifs
  any_goals omega
  all_goals rfl

/-- Settles O16: ERR set where it was clear means that an error was raised, which rejects the command or, as a CFG error,
resets the internal state. -/
theorem errorsRestoreOrReset : Obligations.ErrorsRestoreOrReset := by
  intro i s t u u' hu hexec hu' hclear hset
  rcases exec_addressed hu hexec hu' with rfl | ⟨e, ⟨hne, hconfig⟩, rfl⟩ | ⟨b, o, w, rfl⟩
  · rw [hclear] at hset
    cases hset
  · rw [DspUnit.raise_regs, Regs.recordError_errcode]
    refine ⟨u.raise_base e, u.raise_type e, hne, rfl, fun he => ?_, fun he => ?_⟩
    · rw [DspUnit.raise_of_not_cfg u he]
    · have hbody : (u.raise e).body = Body.reset u.body.type := by rw [DspUnit.raise_of_cfg u he, DspUnit.configFail_body]
      refine ⟨hconfig he, ?_, DspUnit.readReg_of_reset_body hbody (by decide),
        fun off hoff => DspUnit.readReg_of_reset_body hbody (by omega)⟩
      rw [hbody]
      exact DspUnit.reset_ready u.body.type u.base
  · rw [DspUnit.commit_regs, Regs.commitWarnings_err, Regs.writeResults_err, hclear] at hset
    cases hset

end Sys2Proof.Machine
end

section
/-! The operand and coefficient errors of the setters (41_delay_line.md R125; 42_iir_filter.md R193 to R197, R201;
43_reverberator.md R230). -/

namespace Sys2Proof.Machine

/-! ### The bodies that end in an error -/

section Bodies
variable {ν : NanSource} {o : Operands}

theorem fdlSetDelayBody_of_nan {S : FdlState} (hv : S.variant ≠ .fixed) (h : isNaN (asB64 o.opa) = true) :
    fdlSetDelayBody ν o S = .error .domainDelayNan := if_pos (by simp [nanDelay, hv, h])

theorem revSetMixBody_of_nan (ν : NanSource) {S : RevState} (h : isNaN (asB64 o.opa) = true) :
    revSetMixBody ν o S = .error .domainMixNan := if_pos h

theorem iirSetGainBody_of_not_finite (ν : NanSource) {S : IirState} (h : isFinite (asB64 o.opa) = false) :
    iirSetGainBody ν o S = .error .domainDesign := if_neg (by simp [h])

theorem validRate_eq_false_iff {sr : F64} : validRate sr = false ↔ isFinite sr = false ∨ fgt sr F64.zero = false :=
  Bool.and_eq_false_iff

theorem tryDesign_eq_none_iff {v : IirVariant} {f q sr : F64} :
    tryDesign ν v f q sr = none ↔
      validRate sr = false ∨ isFinite f = false ∨ isFinite q = false ∨ (design ν v f q sr).finite = false := by
  simp only [tryDesign, ite_eq_right_iff, reduceCtorEq, imp_false, Bool.not_eq_true, Bool.and_eq_false_iff, or_assoc]

theorem iirSetFreqBody_of_none {S : IirState} (h : tryDesign ν S.variant (asB64 o.opa) S.q (asB64 o.sr) = none) :
    iirSetFreqBody ν o S = .error .domainDesign := by
  simp only [iirSetFreqBody, h]

theorem iirSetQBody_of_none {S : IirState} (h : tryDesign ν S.variant S.freq (asB64 o.opa) (asB64 o.sr) = none) :
    iirSetQBody ν o S = .error .domainDesign := by
  simp only [iirSetQBody, h]

theorem radiusOperandsValid_eq_false_iff :
    radiusOperandsValid o = false ↔
      validRate (asB64 o.sr) = false ∨ isFinite (asB64 o.opa) = false ∨ isNaN (asB64 o.opb) = true := by
  simp only [radiusOperandsValid, Bool.and_eq_false_iff, Bool.not_eq_false', or_assoc]

/-- IIR_SET_RESONANCE fails where its operands do, and where its coefficients do, whatever its operands are (R195). -/
theorem iirSetResonanceBody_fails {norm : Bool} {S : IirState}
    (h : radiusOperandsValid o = false ∨
      (withResonance ν norm S.c (clampRadius (asB64 o.opb)).1 (asB64 o.opa) (asB64 o.sr)).finite = false) :
    iirSetResonanceBody norm ν o S = .error .domainDesign := by
  unfold iirSetResonanceBody
  rcases h with h | h
  · rw [h]
    rfl
  · simp only [h, Bool.false_eq_true, if_false, ite_self]

/-- IIR_SET_NOTCH fails where its operands do, and where its coefficients do, whatever its operands are (R196). -/
theorem iirSetNotchBody_fails {S : IirState}
    (h : radiusOperandsValid o = false ∨
      (withNotch ν S.c (clampRadius (asB64 o.opb)).1 (asB64 o.opa) (asB64 o.sr)).finite = false) :
    iirSetNotchBody ν o S = .error .domainDesign := by
  unfold iirSetNotchBody
  rcases h with h | h
  · rw [h]
    rfl
  · simp only [h, Bool.false_eq_true, if_false, ite_self]

end Bodies

theorem Coeffs.finite_eq_false_iff {c : Coeffs} :
    c.finite = false ↔ ∃ v ∈ [c.c0, c.c1, c.c2, c.c3, c.c4], isFinite v = false := by
  simp only [Coeffs.finite, Bool.and_eq_false_iff, or_assoc, List.exists_mem_cons_iff, List.not_mem_nil, false_and,
    exists_false, or_false]

theorem clampRadius_fst (r : F64) :
    (clampRadius r).1 = if flt r F64.zero then F64.zero else if fgt r Config.one then Config.one else r := by
  unfold clampRadius
  split_ifs <;> rfl

/-- A setter whose body fails with an error that is no CFG error. -/
theorem runCommand_rejected {σ : Type} {fam : Family σ} {c : Command σ} {s : State} {u : DspUnit} {S : σ} {e : ErrCode}
    (hs : s.Addresses u) (hv : fam.view u.body = some S) (hr : fam.ready S = true) (ha : c.applies S = true)
    (hb : c.body (freeNans s.draws) u.regs.operands S = .error e) (he : isCfgError e = false) :
    runCommand fam c s = .next (s.afterCommand { u with regs := { u.regs with err := true, errcode := e } }) := by
  rw [runCommand_error hs hv (.inr hr) ha hb, DspUnit.raise_of_not_cfg u he]

/-- An IIR setter whose body fails. -/
theorem iir_rejected {c : Command IirState} {s : State} {u : DspUnit} {S : IirState} (hs : s.Addresses u)
    (hbody : u.body = .iir S) (hready : u.body.ready = true) (ha : c.applies S = true)
    (hb : c.body (freeNans s.draws) u.regs.operands S = .error .domainDesign) :
    runCommand iirFamily c s =
      .next (s.afterCommand { u with regs := { u.regs with err := true, errcode := .domainDesign } }) := by
  rw [hbody] at hready
  exact runCommand_rejected hs (by rw [hbody]; rfl) hready ha hb rfl

/-- Each value that IIR_SET_RESONANCE.NORM computes becomes a coefficient (R195). -/
theorem withResonance_norm_not_finite {ν : NanSource} {c : Coeffs} {r f sr v : F64} (hv : isFinite v = false)
    (h : v ∈ [fsub (ν 6) Config.half (fmul (ν 5) Config.half (fmul (ν 4) r r)), radiusTerm ν r f sr, fmul (ν 4) r r]) :
    (withResonance ν true c r f sr).finite = false := by
  refine Coeffs.finite_eq_false_iff.2 ⟨v, ?_, hv⟩
  simp only [List.mem_cons, List.not_mem_nil, or_false] at h
  rcases h with rfl | rfl | rfl <;> simp [withResonance]

/-- Settles O41: in each case the body fails, and its error is a DOMAIN error. -/
theorem invalidOperandsRejectTheSetter : Obligations.InvalidOperandsRejectTheSetter := by
  intro i s u c a b sr hs hready ha hb hsr h
  subst ha hb hsr
  rcases h with ⟨S, hbody, hv, hnan, rfl, rfl⟩ | ⟨S, hbody, hnan, rfl, rfl⟩ | ⟨S, hbody, hfin, rfl, rfl⟩ |
    ⟨S, hbody, hv, rfl, hi, h⟩ | ⟨S, hbody, hv, rfl, hi, h⟩ |
    ⟨S, _, _, _, _, _, hbody, hv, rfl, rfl, rfl, rfl, rfl, rfl, h⟩
  · rw [hbody] at hready
    exact runCommand_rejected hs (by rw [hbody]; rfl) hready rfl (fdlSetDelayBody_of_nan hv hnan) rfl
  · rw [hbody] at hready
    exact runCommand_rejected hs (by rw [hbody]; rfl) hready rfl (revSetMixBody_of_nan (freeNans s.draws) hnan) rfl
  · exact iir_rejected hs hbody hready rfl (iirSetGainBody_of_not_finite (freeNans s.draws) hfin)
  · have happlies : (S.variant != .biquad) = true := bne_iff_ne.2 hv
    rcases hi with rfl | rfl
    · refine iir_rejected hs hbody hready happlies (iirSetFreqBody_of_none (tryDesign_eq_none_iff.2 ?_))
      simp only [reduceCtorEq, true_and, false_and, or_false] at h
      rw [validRate_eq_false_iff]
      tauto
    · refine iir_rejected hs hbody hready happlies (iirSetQBody_of_none (tryDesign_eq_none_iff.2 ?_))
      simp only [reduceCtorEq, true_and, false_and, false_or] at h
      rw [validRate_eq_false_iff]
      tauto
  · have happlies : (S.variant == .biquad) = true := beq_iff_eq.2 hv
    have hoperands : radiusOperandsValid u.regs.operands = false := by
      rw [radiusOperandsValid_eq_false_iff, validRate_eq_false_iff, or_assoc]
      exact h
    rcases hi with rfl | rfl | rfl
    · exact iir_rejected hs hbody hready happlies (iirSetResonanceBody_fails (.inl hoperands))
    · exact iir_rejected hs hbody hready happlies (iirSetResonanceBody_fails (.inl hoperands))
    · exact iir_rejected hs hbody hready happlies (iirSetNotchBody_fails (.inl hoperands))
  · have happlies : (S.variant == .biquad) = true := beq_iff_eq.2 hv
    rw [← clampRadius_fst] at h
    rcases h with ⟨rfl, h⟩ | ⟨rfl, v, hmem, hfin⟩ | ⟨rfl, h⟩
    · exact iir_rejected hs hbody hready happlies (iirSetResonanceBody_fails (.inr (Coeffs.finite_eq_false_iff.2 h)))
    · exact iir_rejected hs hbody hready happlies
        (iirSetResonanceBody_fails (.inr (withResonance_norm_not_finite hfin hmem)))
    · exact iir_rejected hs hbody hready happlies (iirSetNotchBody_fails (.inr (Coeffs.finite_eq_false_iff.2 h)))

end Sys2Proof.Machine
end

section
/-! The errors that the three CONFIGs raise, in the order of their checks (41_delay_line.md R121; 42_iir_filter.md R192;
43_reverberator.md R227; 60_exceptions.md R262, R264). -/

namespace Sys2Proof.Machine

section Bodies
variable {ν : NanSource} {o : Operands} {n : Nat}

theorem fdlConfigBody_of_lt_one {v : FdlVariant} {S : FdlState} (h : asI64 o.opb < 1) :
    fdlConfigBody v n ν o S = .error .cfgMaxDelay := if_pos h

theorem fdlConfigBody_of_ram_lt {v : FdlVariant} {S : FdlState} (h1 : 1 ≤ asI64 o.opb)
    (h : (n : Int) < asI64 o.opb + 1) :
    fdlConfigBody v n ν o S = .error .cfgRam :=
  (if_neg h1.not_gt).trans (if_pos h)

/-- A valid size leaves the check of the delay (R121). -/
theorem fdlConfigBody_of_fits {v : FdlVariant} {S : FdlState} (h1 : 1 ≤ asI64 o.opb) (hn : asI64 o.opb + 1 ≤ n) :
    fdlConfigBody v n ν o S =
      if nanDelay v o.opa then .error .cfgDelayNan
      else
        let p := setDelay ν v (freshFdl v (asI64 o.opb + 1).toNat S.line.buf) o.opa
        .done p.1 {} p.2 :=
  (if_neg h1.not_gt).trans (if_neg hn.not_gt)

theorem nanDelay_eq_true_iff {v : FdlVariant} {a : Word} :
    nanDelay v a = true ↔ v ≠ .fixed ∧ isNaN (F64.ofBits a) = true := by
  simp [nanDelay]

theorem nanDelay_eq_false_iff {v : FdlVariant} {a : Word} :
    nanDelay v a = false ↔ v = .fixed ∨ isNaN (F64.ofBits a) = false := by
  simp [nanDelay, or_iff_not_imp_left]

theorem iirConfigBody_of_invalid_rate {v : IirVariant} {S : IirState} (h : validRate (asB64 o.sr) = false) :
    iirConfigBody v ν o S = .error .cfgSampleRate := if_pos (by rw [h]; rfl)

theorem iirConfigBody_of_none {v : IirVariant} {S : IirState} (hr : validRate (asB64 o.sr) = true) (hv : v ≠ .biquad)
    (h : tryDesign ν v (asB64 o.opa) (asB64 o.opb) (asB64 o.sr) = none) :
    iirConfigBody v ν o S = .error .cfgDesign := by
  simp [iirConfigBody, hr, hv, h]

theorem positiveFinite_iff {v : F64} : positiveFinite v = true ↔ isFinite v = true ∧ fgt v F64.zero = true :=
  Bool.and_eq_true_iff

theorem positiveFinite_eq_false_iff {v : F64} :
    positiveFinite v = false ↔ isFinite v = false ∨ fgt v F64.zero = false :=
  Bool.and_eq_false_iff

theorem revConfigBody_of_invalid_rate {v : RevTopology} {S : RevState} (h : positiveFinite (asB64 o.sr) = false) :
    revConfigBody v n ν o S = .error .cfgSampleRate := if_pos (by rw [h]; rfl)

theorem revConfigBody_of_invalid_t60 {v : RevTopology} {S : RevState} (hr : positiveFinite (asB64 o.sr) = true)
    (h : positiveFinite (asB64 o.opa) = false) : revConfigBody v n ν o S = .error .cfgT60 := by
  simp [revConfigBody, hr, h]

/-- Lengths that need more words than there are do not fit, whichever of the two checks finds it (R227). -/
theorem fittingLengths_eq_none {v : RevTopology} {sr : F64}
    (h : n < ramNeed ((nominal v).map (fun l => rescale l sr (refRate v)))) : fittingLengths v sr n = none := by
  unfold fittingLengths
  split_ifs
  · rfl
  · exact if_pos h

theorem revConfigBody_of_ram_lt {v : RevTopology} {S : RevState} (hr : positiveFinite (asB64 o.sr) = true)
    (ht : positiveFinite (asB64 o.opa) = true)
    (h : n < ramNeed ((nominal v).map (fun l => rescale l (asB64 o.sr) (refRate v)))) :
    revConfigBody v n ν o S = .error .cfgRam := by
  simp [revConfigBody, hr, ht, fittingLengths_eq_none h]

end Bodies

theorem exec_fdlConfigOf (v : FdlVariant) (s : State) :
    exec (fdlConfigOf v) s = runCommand fdlFamily (fdlConfig v s.params.fdlRamWords) s := by cases v <;> rfl

theorem exec_iirConfigOf (v : IirVariant) (s : State) :
    exec (iirConfigOf v) s = runCommand iirFamily (iirConfig v) s := by cases v <;> rfl

theorem exec_revConfigOf (v : RevTopology) (s : State) :
    exec (revConfigOf v) s = runCommand revFamily (revConfig v s.params.revRamWords) s := by cases v <;> rfl

/-- A CONFIG whose body fails puts the internal state at its reset value, READY or not (R262). -/
theorem config_fails {σ : Type} {fam : Family σ} {c : Command σ} {i : Instr} {s : State} {u : DspUnit} {b : Body}
    {S : σ} {e : ErrCode} (hexec : exec i s = runCommand fam c s) (hs : s.Addresses u) (hu : u.body = b)
    (hv : fam.view b = some S) (hc : c.config = true) (ha : c.applies S = true) (he : isCfgError e = true)
    (hb : c.body (freeNans s.draws) u.regs.operands S = .error e) :
    exec i s = .next (s.afterCommand { u with
      body := Body.reset b.type, regs := { u.regs with err := true, errcode := e } }) := by
  subst hu
  rw [hexec, runCommand_error hs hv (.inl hc) ha hb, DspUnit.raise_of_cfg u he]
  rfl

/-- Settles O23: each body fails at the first check that does not hold, with a CFG error; the model lists no words and no
lines after one. -/
theorem configErrorsComeInOrder : Obligations.ConfigErrorsComeInOrder := by
  intro s u c a b sr hs ha hb hsr
  subst ha hb hsr
  refine ⟨fun v S hu h => ⟨[], ?_⟩, fun v S hu h => ?_, fun v S hu h => ⟨[], ?_⟩⟩
  · rcases h with ⟨h, rfl⟩ | ⟨h1, h, rfl⟩ | ⟨h1, hn, hv, h, rfl⟩
    · exact config_fails (exec_fdlConfigOf v s) hs hu rfl rfl rfl rfl (fdlConfigBody_of_lt_one h)
    · exact config_fails (exec_fdlConfigOf v s) hs hu rfl rfl rfl rfl (fdlConfigBody_of_ram_lt h1 h)
    · exact config_fails (exec_fdlConfigOf v s) hs hu rfl rfl rfl rfl
        ((fdlConfigBody_of_fits h1 hn).trans (if_pos (nanDelay_eq_true_iff.2 ⟨hv, h⟩)))
  · rcases h with ⟨h, rfl⟩ | ⟨hfin, hpos, hv, rfl, h⟩
    · exact config_fails (exec_iirConfigOf v s) hs hu rfl rfl rfl rfl
        (iirConfigBody_of_invalid_rate (S := S) (validRate_eq_false_iff.2 h))
    · exact config_fails (exec_iirConfigOf v s) hs hu rfl rfl rfl rfl
        (iirConfigBody_of_none (S := S) (Bool.and_eq_true_iff.2 ⟨hfin, hpos⟩) hv (tryDesign_eq_none_iff.2 (.inr h)))
  · rcases h with ⟨h, rfl⟩ | ⟨hfin, hpos, h, rfl⟩ | ⟨hfin, hpos, hfin', hpos', h, rfl⟩
    · exact config_fails (exec_revConfigOf v s) hs hu rfl rfl rfl rfl
        (revConfigBody_of_invalid_rate (S := S) (positiveFinite_eq_false_iff.2 h))
    · exact config_fails (exec_revConfigOf v s) hs hu rfl rfl rfl rfl
        (revConfigBody_of_invalid_t60 (S := S) (positiveFinite_iff.2 ⟨hfin, hpos⟩) (positiveFinite_eq_false_iff.2 h))
    · exact config_fails (exec_revConfigOf v s) hs hu rfl rfl rfl rfl
        (revConfigBody_of_ram_lt (S := S) (positiveFinite_iff.2 ⟨hfin, hpos⟩)
          (positiveFinite_iff.2 ⟨hfin', hpos'⟩) h)

end Sys2Proof.Machine
end

section
/-! Where FDL_CONFIG and FDL_SET_DELAY complete: the delay procedure of each variant (41_delay_line.md R121 to R125). -/

namespace Sys2Proof.Machine

section Completes
variable {s : State} {u : DspUnit} {S S' : FdlState} {w : Warnings}

@[simp] theorem Regs.operands_opa (r : Regs) : r.operands.opa = r.opa := rfl
@[simp] theorem Regs.operands_opb (r : Regs) : r.operands.opb = r.opb := rfl

/-- A command of the delay line that completes. -/
theorem runCommand_fdl_done {c : Command FdlState} {o : Results} (hs : s.Addresses u) (hu : u.body = .fdl S)
    (hr : c.config = true ∨ S.cfg = true) (ha : c.applies S = true)
    (hb : c.body (freeNans s.draws) u.regs.operands S = .done S' o w) :
    runCommand fdlFamily c s = .next (s.afterCommand (u.commit (.fdl S') o w)) :=
  runCommand_done hs (by rw [hu]; rfl) hr ha hb

theorem exec_fdlConfigOf_of_fits {v : FdlVariant} (hs : s.Addresses u) (hu : u.body = .fdl S)
    (h1 : 1 ≤ u.regs.opb.toInt) (hn : u.regs.opb.toInt + 1 ≤ s.params.fdlRamWords) (hnan : nanDelay v u.regs.opa = false)
    (h : setDelay (freeNans s.draws) v (freshFdl v (u.regs.opb.toInt + 1).toNat S.line.buf) u.regs.opa = (S', w)) :
    exec (fdlConfigOf v) s = .next (s.afterCommand { u with
      body := .fdl S', regs := { u.regs with warn := u.regs.warn ||| w } }) := by
  have hbody : fdlConfigBody v s.params.fdlRamWords (freeNans s.draws) u.regs.operands S = .done S' {} w := by
    rw [fdlConfigBody_of_fits h1 hn]
    simp [hnan, h]
  rw [exec_fdlConfigOf, runCommand_fdl_done hs hu (.inl rfl) rfl hbody, DspUnit.commit_warns]

theorem exec_fdlSetDelay_of_not_nan {v : FdlVariant} (hs : s.Addresses u) (hu : u.body = .fdl S) (hc : S.cfg = true)
    (hv : S.variant = v) (hnan : nanDelay v u.regs.opa = false)
    (h : setDelay (freeNans s.draws) v S u.regs.opa = (S', w)) :
    exec .fdlSetDelay s = .next (s.afterCommand { u with
      body := .fdl S', regs := { u.regs with warn := u.regs.warn ||| w } }) := by
  subst hv
  have hbody : fdlSetDelayBody (freeNans s.draws) u.regs.operands S = .done S' {} w := by
    simp [fdlSetDelayBody, hnan, h]
  rw [← DspUnit.commit_warns]
  exact runCommand_fdl_done hs hu (.inr hc) rfl hbody

end Completes

/-- Settles O22: the checks pass, and the delay procedure leaves the zeroed buffer as it is. -/
theorem fdlConfigStartsAFreshLine : Obligations.FdlConfigStartsAFreshLine := by
  intro v s u S m hs hu hm h1 hn hv
  have hnan := nanDelay_eq_false_iff.2 hv
  have hcap : (u.regs.opb.toInt + 1).toNat = m + 1 := by omega
  have hbuf : (setDelay (freeNans s.draws) v (freshFdl v (m + 1) S.line.buf) u.regs.opa).1.line.buf =
      S.line.buf.zeroBelow (m + 1) :=
    (setDelay_repositioned _ (S := freshFdl v (m + 1) S.line.buf) rfl (Nat.succ_le_succ h1) hnan).buf
  refine ⟨_, _, exec_fdlConfigOf_of_fits hs hu (by omega) (by omega) hnan (by rw [hcap]), fun i => ?_, ?_⟩
  · rw [hbuf, Ram.read_zeroBelow]
    by_cases hi : i ≤ m
    · rw [if_pos hi, if_neg (by omega)]
    · rw [if_neg hi, if_pos (by omega)]
  · rw [hbuf]
    rfl

/-! ### The delay procedure -/

theorem setDelayFixed_eq {S : FdlState} {a d : Int} {w : Warnings}
    (h : (d, w) = if (S.line.cap : Int) - 1 < a then ((S.line.cap : Int) - 1, 1#5)
      else if a < 0 then (0, 2#5) else (a, 0#5)) :
    setDelayFixed S a = ({ S with line := { S.line with
      r := modCap ((S.line.w : Int) - d) S.line.cap, delay := i2f d } }, w) := by
  unfold setDelayFixed
  dsimp only
  split_ifs at h ⊢ <;> cases h <;> rfl

/-- The split of `op` into read index and `alpha`, and the coefficient (R123). -/
theorem setAllpassPointer_eq {ν : NanSource} {S : FdlState} {op0 op delay alpha0 alpha : F64} {r0 r : Nat}
    (hop : op = if flt op0 F64.zero then fadd (ν 2) op0 (i2f S.line.cap) else op0)
    (halpha0 : alpha0 = fsub (ν 4) (fadd (ν 3) Config.one (i2f (ffloor op))) op)
    (hr0 : r0 = modCap (ffloor op) S.line.cap)
    (hr : (r, alpha) = if flt alpha0 Config.half then (nextIndex r0 S.line.cap, fadd (ν 5) alpha0 Config.one)
      else (r0, alpha0)) :
    setAllpassPointer ν S op0 delay = { S with
      line := { S.line with r := r, delay := delay }
      alpha := alpha
      coeff := fdiv (ν 8) (fsub (ν 6) Config.one alpha) (fadd (ν 7) Config.one alpha) } := by
  simp only [setAllpassPointer, ← hop, ← halpha0, ← hr0]
  split_ifs at hr ⊢ <;> cases hr <;> rfl

/-- The clamp of the delay, and `op` before it wraps (R123). -/
theorem setDelayAllpass_eq {ν : NanSource} {S : FdlState} {a d op0 top : F64} {w : Warnings}
    (htop : top = i2f ((S.line.cap : Int) - 1))
    (h : (d, w, op0) =
      if fgt a top then (top, 1#5, fadd (ν 1) (fsub (ν 0) (i2f S.line.w) top) Config.one)
      else if flt a Config.half then (Config.half, 2#5, fadd (ν 0) (i2f S.line.w) Config.apMinOffset)
      else (a, 0#5, fadd (ν 1) (fsub (ν 0) (i2f S.line.w) a) Config.one)) :
    setDelayAllpass ν S a = (setAllpassPointer ν S op0 d, w) := by
  rw [show Config.half = Config.apMinDelay from rfl] at h
  simp only [setDelayAllpass, ← htop]
  split_ifs at h ⊢ <;> cases h <;> rfl

/-- The split of `op` into read index and the two weights (R124). -/
theorem setLinearPointer_eq {ν : NanSource} {S : FdlState} {d op0 op alpha : F64}
    (hop0 : op0 = fsub (ν 0) (i2f S.line.w) d)
    (hop : op = if flt op0 F64.zero then fadd (ν 1) op0 (i2f S.line.cap) else op0)
    (halpha : alpha = fsub (ν 2) op (i2f (ffloor op))) :
    setLinearPointer ν S d = { S with
      line := { S.line with r := modCap (ffloor op) S.line.cap, delay := d }
      alpha := alpha
      omalpha := fsub (ν 3) Config.one alpha } := by
  simp only [setLinearPointer, ← hop0, ← hop, ← halpha]

/-- The clamp of the delay (R124). -/
theorem setDelayLinear_eq {ν : NanSource} {S : FdlState} {a d top : F64} {w : Warnings}
    (htop : top = i2f ((S.line.cap : Int) - 1))
    (h : (d, w) = if fgt a top then (top, 1#5) else if flt a F64.zero then (F64.zero, 2#5) else (a, 0#5)) :
    setDelayLinear ν S a = (setLinearPointer ν S d, w) := by
  simp only [setDelayLinear, ← htop]
  split_ifs at h ⊢ <;> cases h <;> rfl

/-- Settles O24: the clamp gives the delay, and the read index is that far behind. -/
theorem setDelayFixedClampsAndPoints : Obligations.SetDelayFixedClampsAndPoints := by
  intro s u S d w hs hu hc hv hclamp
  exact exec_fdlSetDelay_of_not_nan hs hu hc hv (nanDelay_eq_false_iff.2 (.inl rfl)) (setDelayFixed_eq hclamp)

/-- Settles O25: the clamp gives `op`, its split the read index and the coefficient. -/
theorem setDelayAllpassSplitsTheDelay : Obligations.SetDelayAllpassSplitsTheDelay := by
  intro s u S d top op0 op alpha0 alpha w r0 r ν hs hu hc hv hnan hν htop hclamp hop halpha0 hr0 hr
  subst hν
  refine exec_fdlSetDelay_of_not_nan hs hu hc hv (nanDelay_eq_false_iff.2 (.inr hnan)) ?_
  rw [← setAllpassPointer_eq hop halpha0 hr0 hr]
  exact setDelayAllpass_eq htop hclamp

/-- Settles O26: the clamp gives the delay, the split of `op` the read index and the weights. -/
theorem setDelayLinearSplitsTheDelay : Obligations.SetDelayLinearSplitsTheDelay := by
  intro s u S d top op0 op alpha w ν hs hu hc hv hnan hν htop hclamp hop0 hop halpha
  subst hν
  refine exec_fdlSetDelay_of_not_nan hs hu hc hv (nanDelay_eq_false_iff.2 (.inr hnan)) ?_
  rw [show ((ffloor op % (S.line.cap : Int)).toNat) = modCap (ffloor op) S.line.cap from rfl,
    ← setLinearPointer_eq hop0 hop halpha]
  exact setDelayLinear_eq htop hclamp

end Sys2Proof.Machine
end

section
/-! The commands of a READY delay line: clear, tick, the cached output and the reads (41_delay_line.md R126 to R134). -/

namespace Sys2Proof.Machine

/-! ### The pending output -/

theorem pendingOutput_of_interpolating (ν : NanSource) {S : FdlState} (hv : S.variant ≠ .fixed) :
    pendingOutput ν S = if S.variant = .allpass then
        fadd (ν 3) (fneg (fmul (ν 0) S.coeff S.line.last)) (fadd (ν 2) S.apin (fmul (ν 1) S.coeff S.line.tap))
      else
        fadd (ν 2) (fmul (ν 0) S.line.tap S.omalpha)
          (fmul (ν 1) (S.line.buf.read (nextIndex S.line.r S.line.cap)) S.alpha) := by
  unfold pendingOutput
  cases h : S.variant with
  | fixed => exact absurd h hv
  | allpass => rfl
  | linear => rfl

theorem nextOut_cval (ν : NanSource) (S : FdlState) :
    (nextOut ν S).cval = if S.cvalid then S.cval else pendingOutput ν S := by
  unfold nextOut
  split <;> rfl

/-- NextOut changes the cache alone, which is valid after it (R127). -/
theorem nextOut_eq (ν : NanSource) (S : FdlState) :
    nextOut ν S = { S with cval := (nextOut ν S).cval, cvalid := true } := by
  cases h : S.cvalid with
  | false => simp [nextOut, h]
  | true =>
    have hS : nextOut ν S = S := if_pos h
    rw [hS, ← h]

/-- A tick of an interpolating line, `y` being its output (R130, R131). -/
theorem tickInterpolating_eq {ν : NanSource} {S : FdlState} {x y : F64}
    (hy : y = (nextOut ν { S with line := S.line.push x }).cval) :
    tickInterpolating ν S x = { S with
      line := (S.line.push x).pop y
      apin := if S.variant = .allpass then (S.line.push x).tap else S.apin
      cvalid := false
      cval := y } := by
  subst hy
  unfold tickInterpolating
  dsimp only
  rw [nextOut_eq]

theorem tickFdl_of_interpolating (ν : NanSource) {S : FdlState} (hv : S.variant ≠ .fixed) (x : F64) :
    tickFdl ν S x = tickInterpolating ν S x := by
  unfold tickFdl
  cases h : S.variant with
  | fixed => exact absurd h hv
  | allpass => rfl
  | linear => rfl

theorem tickFdl_of_fixed (ν : NanSource) {S : FdlState} (hv : S.variant = .fixed) (x : F64) :
    tickFdl ν S x = tickFixed S x := by
  simp only [tickFdl, hv]

/-! ### What each command does to its unit -/

section Ready
variable {s : State} {u : DspUnit} {S S' : FdlState}

/-- A command that answers a result and keeps the internal state. -/
theorem DspUnit.commit_answer {b : Body} (hu : u.body = b) (y : F64) (w : Warnings) :
    u.commit b { res0 := some y } w =
      { u with regs := { u.regs with res0 := y.toBits, warn := u.regs.warn ||| w } } := by
  subst hu
  rfl

variable (hs : s.Addresses u) (hu : u.body = .fdl S) (hc : S.cfg = true)
include hs hu hc

theorem exec_fdlClear : exec .fdlClear s = .next (s.afterCommand { u with body := .fdl (clearFdl S) }) := by
  rw [← DspUnit.commit_quiet]
  exact runCommand_fdl_done hs hu (.inr hc) rfl rfl

theorem exec_fdlTick (h : tickFdl (freeNans s.draws) S (F64.ofBits u.regs.opa) = S') :
    exec .fdlTick s = .next (s.afterCommand { u with
      body := .fdl S', regs := { u.regs with res0 := S'.line.last.toBits } }) := by
  subst h
  rw [← DspUnit.commit_one]
  exact runCommand_fdl_done hs hu (.inr hc) rfl rfl

theorem exec_fdlNextOut (hv : S.variant ≠ .fixed) (h : nextOut (freeNans s.draws) S = S') :
    exec .fdlNextOut s = .next (s.afterCommand { u with
      body := .fdl S', regs := { u.regs with res0 := S'.cval.toBits } }) := by
  subst h
  rw [← DspUnit.commit_one]
  exact runCommand_fdl_done hs hu (.inr hc) (bne_iff_ne.2 hv) rfl

theorem exec_fdlContentsAt {t : Int} {w : Warnings} (h : clampTap S u.regs.opa.toInt = (t, w)) :
    exec .fdlContentsAt s = .next (s.afterCommand { u with regs := { u.regs with
      res0 := (S.line.buf.read (modCap ((S.line.w : Int) - t) S.line.cap)).toBits
      warn := u.regs.warn ||| w } }) := by
  rw [← DspUnit.commit_answer hu]
  refine runCommand_fdl_done hs hu (.inr hc) rfl ?_
  simp [fdlContentsAtBody, h]

theorem exec_fdlEnergy :
    exec .fdlEnergy s = .next (s.afterCommand { u with
      regs := { u.regs with res0 := (energy (freeNans s.draws) S.line).toBits } }) := by
  have hcommit : { u with regs := { u.regs with res0 := (energy (freeNans s.draws) S.line).toBits } } =
      u.commit (.fdl S) { res0 := some (energy (freeNans s.draws) S.line) } noWarning := by
    rw [DspUnit.commit_one, ← hu]
  rw [hcommit]
  exact runCommand_fdl_done hs hu (.inr hc) rfl rfl

end Ready

/-! ### The energy -/

theorem filter_le_range (r n : Nat) : (List.range n).filter (fun i => decide (r ≤ i)) = List.range' r (n - r) := by
  rw [← List.Ico.zero_bot, List.Ico.filter_le, Nat.zero_max, List.Ico]

/-- The words of FDL_ENERGY, as those of the line from `r` on (R134). -/
theorem energyIndices_eq (l : Line) :
    energyIndices l =
      if l.r ≤ l.w then (List.range l.w).filter (fun i => decide (l.r ≤ i))
      else (List.range l.cap).filter (fun i => decide (l.r ≤ i)) ++ List.range l.w := by
  rw [filter_le_range, filter_le_range, energyIndices]

theorem lt_cap_of_mem_energyIndices {l : Line} (hw : l.w < l.cap) {i : Nat} (hi : i ∈ energyIndices l) : i < l.cap := by
  rw [energyIndices_eq] at hi
  split at hi
  · exact (List.mem_range.1 (List.mem_filter.1 hi).1).trans hw
  · rcases List.mem_append.1 hi with hi | hi
    · exact List.mem_range.1 (List.mem_filter.1 hi).1
    · exact (List.mem_range.1 hi).trans hw

/-- A line that reads `+0.0` has the energy `+0.0`: no step of the sum rounds or turns the sign. -/
theorem energy_of_silent (ν : NanSource) {l : Line} (h : ∀ i ∈ energyIndices l, l.buf.read i = F64.zero) :
    energy ν l = F64.zero := by
  refine List.foldlRecOn (motive := (· = F64.zero)) _ _ rfl fun e he i hi => ?_
  rw [he, h i hi]
  rfl

/-- A cleared line has the energy `+0.0` (R126). -/
theorem energy_clear (ν : NanSource) {l : Line} (hw : l.w < l.cap) : energy ν l.clear = F64.zero := by
  refine energy_of_silent ν fun i hi => ?_
  have hi : i < l.cap := lt_cap_of_mem_energyIndices (l := l.clear) hw hi
  rw [Line.clear_buf, Ram.read_zeroBelow, if_neg hi.not_ge]

theorem State.Addresses.afterCommand {s : State} {u : DspUnit} (hu : s.Addresses u) (u' : DspUnit) :
    (s.afterCommand u').Addresses u' := by
  rw [State.Addresses, State.afterCommand_units, State.afterCommand_sel,
    List.getElem?_set_self (List.getElem?_eq_some_iff.1 hu).1]

/-! ### The statements -/

/-- Settles O27: clearing takes the words below the capacity out of the buffer, and a line that reads `+0.0` has no
energy. -/
theorem fdlClearZeroesBufferAndOutput : Obligations.FdlClearZeroesBufferAndOutput := by
  refine ⟨by decide, fun s u S hs hu hc =>
    ⟨⟨S.line.buf.zeroBelow S.line.cap, fun i => ?_, exec_fdlClear hs hu hc⟩, ?_⟩⟩
  · rw [Ram.read_zeroBelow]
    by_cases hi : i < S.line.cap
    · rw [if_pos hi, if_neg hi.not_ge]
    · rw [if_neg hi, if_pos (not_lt.1 hi)]
  · intro hinv
    obtain ⟨-, hready⟩ := FdlState.inv_iff.1 hinv
    have hcleared := hs.afterCommand { u with body := .fdl (clearFdl S) }
    refine ⟨_, _, _, exec_fdlClear hs hu hc, exec_fdlEnergy hcleared rfl hc, hcleared.afterCommand _, ?_⟩
    rw [← zero_toBits, ← energy_clear _ (hready hc).w_lt]
    rfl

/-- Settles O28: the tick reads the buffer with the input written. -/
theorem tickFixedWritesThenReads : Obligations.TickFixedWritesThenReads := by
  refine ⟨by decide, fun s u S hs hu hc hv => ?_⟩
  exact ⟨_, _, fun i => Ram.read_write _ _ _ _, rfl, exec_fdlTick hs hu hc (tickFdl_of_fixed _ hv _)⟩

/-- Settles O29: the output is NextOut's of the line with the input written. -/
theorem tickInterpolatingConsumesTheCache : Obligations.TickInterpolatingConsumesTheCache := by
  intro s u S ν hs hu hc hv hν
  subst hν
  refine ⟨S.line.buf.write S.line.w (F64.ofBits u.regs.opa), _, fun i => Ram.read_write _ _ _ _, ?_,
    exec_fdlTick hs hu hc ((tickFdl_of_interpolating _ hv _).trans (tickInterpolating_eq rfl))⟩
  rw [Line.pop_last, nextOut_cval, pendingOutput_of_interpolating _ (by exact hv)]
  rfl

/-- Settles O30: NextOut changes the cache alone, to the output that it answers. -/
theorem nextOutFillsTheCache : Obligations.NextOutFillsTheCache := by
  refine ⟨by decide, fun s u S ν y hs hu hc hv hν hy => ?_⟩
  subst hν
  have hcval : (nextOut (freeNans s.draws) S).cval = y := by
    rw [nextOut_cval, pendingOutput_of_interpolating _ hv, hy]
    rfl
  exact exec_fdlNextOut hs hu hc hv ((nextOut_eq _ S).trans (by rw [hcval]))

/-- Settles O31: the written-out clamp is the model's own. -/
theorem contentsAtReadsThePast : Obligations.ContentsAtReadsThePast :=
  ⟨by decide, fun _ _ _ _ _ hs hu hc h => exec_fdlContentsAt hs hu hc h.symm⟩

/-- Settles O32: the words from `r` on are those of an interval of indices. -/
theorem energySumsReadToWrite : Obligations.EnergySumsReadToWrite := by
  refine ⟨by decide, fun s u S ix hs hu hc hix => ?_⟩
  rw [← energyIndices_eq] at hix
  subst hix
  exact exec_fdlEnergy hs hu hc

end Sys2Proof.Machine
end

section
/-! The delay of a FIXED line (41_delay_line.md R129, R135). -/

namespace Sys2Proof.Machine

theorem nextIndex_modCap_eq {a : Int} {cap : Nat} (h : 0 < cap) : nextIndex (modCap a cap) cap = modCap (a + 1) cap := by
  zify
  rw [modCap_cast h, nextIndex]
  push_cast
  rw [modCap_cast h, Int.emod_add_emod]

theorem modCap_eq_self {i cap : Nat} (h : i < cap) : modCap i cap = i := by
  zify
  rw [modCap_cast (by omega), Int.emod_eq_of_lt (by omega) (by omega)]

/-- Fewer steps back than the line has words tell indices apart. -/
theorem modCap_sub_inj {w : Int} {cap a b : Nat} (ha : a < cap) (hb : b < cap)
    (h : modCap (w - a) cap = modCap (w - b) cap) : a = b := by
  have hmod : w - a ≡ w - b [ZMOD cap] := by
    rw [Int.ModEq, ← modCap_cast (by omega), ← modCap_cast (by omega), h]
  have hab : (a : Int) ≡ b [ZMOD cap] := by simpa using (Int.ModEq.refl w).sub hmod
  exact (Int.natCast_modEq_iff.1 hab).eq_of_lt_of_lt ha hb

section Behind
variable {d n p : Nat} {l : Line}

/-- The read index, `d` behind the write index, reaches the word `p` in `n` ticks. -/
structure Line.Reaches (d n p : Nat) (l : Line) : Prop where
  d_lt   : d < l.cap
  p_lt   : p < l.cap
  behind : l.r = modCap ((l.w : Int) - d) l.cap
  ahead  : l.r = modCap ((p : Int) - n) l.cap

theorem Line.Reaches.tick (h : l.Reaches d (n + 1) p) (x : F64) : (l.tick x).Reaches d n p := by
  obtain ⟨hd, hp, hbehind, hahead⟩ := h
  refine ⟨hd, hp, ?_, ?_⟩
  · rw [Line.tick_r, Line.tick_w, Line.tick_cap, hbehind, nextIndex_modCap (by omega)]
  · rw [Line.tick_r, Line.tick_cap, hahead, nextIndex_modCap_eq (by omega)]
    push_cast
    ring_nf

/-- A word that the read index still has to reach, and that it has not got to write, is kept by a tick. -/
theorem Line.Reaches.read_tick (h : l.Reaches d n p) (hn : n < d) (x : F64) :
    (l.tick x).buf.read p = l.buf.read p := by
  obtain ⟨hd, -, hbehind, hahead⟩ := h
  rw [Line.tick_buf, Ram.read_write, if_neg]
  rintro rfl
  exact hn.ne' (modCap_sub_inj hd (hn.trans hd) (hbehind.symm.trans hahead))

/-- The tick that reads the word `p` answers what stands there now, whatever is fed until then. -/
theorem Line.Reaches.last_foldl_tick {later : List F64} (h : l.Reaches d later.length p) (hn : later.length < d)
    (x : F64) : (later.foldl Line.tick (l.tick x)).last = l.buf.read p := by
  induction later generalizing l x with
  | nil =>
    have hr : l.r = p := by simpa [modCap_eq_self h.p_lt] using h.ahead
    rw [← h.read_tick hn x, ← hr]
    rfl
  | cons y rest ih =>
    rw [List.foldl_cons, ih (h.tick x) (Nat.lt_of_succ_lt hn), h.read_tick hn]

end Behind

/-- Settles O33: with `d = 0` the tick reads the word that it writes; otherwise the read index reaches that word in the
last of the `d` further ticks. -/
theorem fixedLineDelaysByD : Obligations.FixedLineDelaysByD := by
  intro l d x later hd hw hr hlen
  cases later with
  | nil =>
    subst hlen
    have hrw : l.r = l.w := by simpa [modCap_eq_self hw] using hr
    rw [List.foldl_nil, Line.tick_last, Ram.read_write, if_pos hrw]
  | cons y rest =>
    have hlen : d = rest.length + 1 := hlen.symm
    have hreach : l.Reaches d (rest.length + 1) l.w := ⟨hd, hw, hr, hlen ▸ hr⟩
    rw [List.foldl_cons, (hreach.tick x).last_foldl_tick (by omega), Line.tick_buf, Ram.read_write, if_pos rfl]

end Sys2Proof.Machine
end

section
/-! The filter invariant over a step (42_iir_filter.md R188, R191, R192, R197), from a rule that carries any property
of the internal states over a step. -/

namespace Sys2Proof.Machine

/-! ### A property of internal states over a step -/

/-- The internal state a body completes with meets `P`. -/
def BodyResult.Leaves {σ : Type} (P : σ → Prop) : BodyResult σ → Prop
  | .done S _ _ => P S
  | .error _ => True

@[simp] theorem BodyResult.leaves_done {σ : Type} {P : σ → Prop} {S : σ} {out : Results} {w : Warnings} :
    (BodyResult.done S out w).Leaves P ↔ P S := Iff.rfl

@[simp] theorem BodyResult.leaves_error {σ : Type} {P : σ → Prop} {e : ErrCode} :
    (BodyResult.error e : BodyResult σ).Leaves P := trivial

section Bodies
variable {Q : Body → Prop} (hreset : ∀ t, Q (Body.reset t))
include hreset

theorem DspUnit.raise_keeps_body {u : DspUnit} (h : Q u.body) (c : ErrCode) : Q (u.raise c).body := by
  rcases u.raise_body c with hb | hb <;> rw [hb]
  · exact h
  · exact hreset _

theorem keptByBus_of_body : KeptByBus (fun u => Q u.body) where
  reset t _ := hreset t
  writeReg u off v h := (u.writeReg_body off v).symm ▸ h
  refuse _ _ c _ h := DspUnit.raise_keeps_body hreset h c

/-- `Execute` keeps a property of the internal state that the command's body keeps where it completes. -/
theorem execute_keeps_body {σ : Type} {fam : Family σ} {c : Command σ}
    (hc : ∀ ν o b S, fam.view b = some S → Q b → (c.body ν o S).Leaves (fun S' => Q (fam.wrap S'))) (ν : NanSource)
    (u : DspUnit) (h : Q u.body) : Q (u.execute fam c ν).body := by
  rcases DspUnit.execute_cases fam c ν u with ⟨e, he, -⟩ | ⟨S, S', o, w, hv, -, -, hb, he⟩ <;> rw [he]
  · exact DspUnit.raise_keeps_body hreset h e
  · have hleaves := hc ν u.regs.operands u.body S hv h
    rw [hb] at hleaves
    exact hleaves

end Bodies

/-! ### What the invariant asks of the coefficients -/

theorem validRate_iff {sr : F64} : validRate sr = true ↔ isFinite sr = true ∧ fgt sr F64.zero = true :=
  Bool.and_eq_true_iff

/-- A design succeeds with the coefficients of `Design_variant`, where they and all parameters are usable (R191). -/
theorem tryDesign_eq_some_iff {ν : NanSource} {v : IirVariant} {f q sr : F64} {c : Coeffs} :
    tryDesign ν v f q sr = some c ↔
      validRate sr = true ∧ isFinite f = true ∧ isFinite q = true ∧ c.finite = true ∧ design ν v f q sr = c := by
  unfold tryDesign
  constructor
  · intro h
    split_ifs at h with hvalid
    cases h
    simpa [and_assoc] using hvalid
  · rintro ⟨hsr, hf, hq, hc, rfl⟩
    simp [hsr, hf, hq, hc]

section Invariant
variable {ν : NanSource} {o : Operands} {S : IirState}

theorem freshIir_inv {v : IirVariant} {f q : F64} {c : Coeffs} (hc : c.finite = true)
    (hfq : v ≠ .biquad → isFinite f = true ∧ isFinite q = true) : (freshIir v f q c).Inv :=
  ⟨flush_zero, flush_zero, hc, rfl, hfq⟩

theorem IirState.Inv.with_coeffs (h : S.Inv) {c : Coeffs} (hc : c.finite = true) : ({ S with c := c }).Inv := by
  obtain ⟨h1, h2, -, hgain, hfq⟩ := h
  exact ⟨h1, h2, hc, hgain, hfq⟩

/-- A redesign keeps the invariant: it succeeds only with finite parameters and coefficients. -/
theorem IirState.Inv.redesigned (h : S.Inv) {v : IirVariant} {f q sr : F64} {c : Coeffs}
    (hc : tryDesign ν v f q sr = some c) : ({ S with freq := f, q := q, c := c }).Inv := by
  obtain ⟨h1, h2, -, hgain, -⟩ := h
  obtain ⟨-, hf, hq, hfin, -⟩ := tryDesign_eq_some_iff.1 hc
  exact ⟨h1, h2, hfin, hgain, fun _ => ⟨hf, hq⟩⟩

/-! ### The bodies -/

theorem iirConfigBody_inv (v : IirVariant) (S : IirState) : (iirConfigBody v ν o S).Leaves IirState.Inv := by
  unfold iirConfigBody
  dsimp only
  split_ifs with hsr hv
  · trivial
  · exact freshIir_inv rfl (absurd hv)
  · split
    · trivial
    · rename_i c hc
      obtain ⟨-, hf, hq, hfin, -⟩ := tryDesign_eq_some_iff.1 hc
      exact freshIir_inv hfin fun _ => ⟨hf, hq⟩

theorem iirSetFreqBody_inv (h : S.Inv) : (iirSetFreqBody ν o S).Leaves IirState.Inv := by
  unfold iirSetFreqBody
  split
  · trivial
  · rename_i c hc
    exact h.redesigned hc

theorem iirSetQBody_inv (h : S.Inv) : (iirSetQBody ν o S).Leaves IirState.Inv := by
  unfold iirSetQBody
  split
  · trivial
  · rename_i c hc
    exact h.redesigned hc

theorem iirSetResonanceBody_inv (norm : Bool) (h : S.Inv) : (iirSetResonanceBody norm ν o S).Leaves IirState.Inv := by
  unfold iirSetResonanceBody
  dsimp only
  split_ifs with _ hfin
  · trivial
  · exact h.with_coeffs hfin
  · trivial

theorem iirSetNotchBody_inv (h : S.Inv) : (iirSetNotchBody ν o S).Leaves IirState.Inv := by
  unfold iirSetNotchBody
  dsimp only
  split_ifs with _ hfin
  · trivial
  · exact h.with_coeffs hfin
  · trivial

theorem iirSetGainBody_inv (h : S.Inv) : (iirSetGainBody ν o S).Leaves IirState.Inv := by
  obtain ⟨h1, h2, hc, -, hfq⟩ := h
  unfold iirSetGainBody
  split_ifs with hgain
  · exact ⟨h1, h2, hc, hgain, hfq⟩
  · trivial

/-- The stored history is flushed, and flushing again changes nothing (R188). -/
theorem iirSampleBody_inv (h : S.Inv) : (iirSampleBody ν o S).Leaves IirState.Inv := by
  obtain ⟨-, -, hc, hgain, hfq⟩ := h
  exact ⟨flush_flush _, flush_flush _, hc, hgain, hfq⟩

theorem clearIir_inv (h : S.Inv) : (clearIir S).Inv := by
  obtain ⟨-, -, hc, hgain, hfq⟩ := h
  exact ⟨flush_zero, flush_zero, hc, hgain, hfq⟩

end Invariant

/-! ### Units and steps -/

/-- The filter invariant of a unit of any type. -/
def Body.IirInv (b : Body) : Prop := ∀ S, b = .iir S → S.Inv

@[simp] theorem Body.iirInv_iir {S : IirState} : (Body.iir S).IirInv ↔ S.Inv :=
  ⟨fun h => h S rfl, fun h T hT => by cases hT; exact h⟩

theorem State.iirInv_iff {s : State} : s.IirInv ↔ ∀ u ∈ s.units, u.body.IirInv := Iff.rfl

theorem Body.reset_iirInv (t : UnitType) : (Body.reset t).IirInv := by
  cases t with
  | fdl | rev =>
    intro S hS
    cases hS
  | iir => exact Body.iirInv_iir.2 IirState.reset_inv

section Commands
variable {s t : State} (hs : ∀ u ∈ s.units, u.body.IirInv)
include hs

/-- A command of the filter keeps the invariant of every unit where its body does. -/
theorem runCommand_iirInv {c : Command IirState} (hc : ∀ ν o S, S.Inv → (c.body ν o S).Leaves IirState.Inv)
    (h : runCommand iirFamily c s = .next t) : ∀ u ∈ t.units, u.body.IirInv := by
  refine runCommand_forall_units (execute_keeps_body Body.reset_iirInv fun ν o b S hv hb => ?_) hs h
  simpa using hc ν o S (hb S (iirFamily_view_eq hv))

/-- A command of another family makes no filter. -/
theorem runCommand_iirInv_of_wrap {σ : Type} {fam : Family σ} {c : Command σ} (hfam : ∀ S T, fam.wrap S ≠ .iir T)
    (h : runCommand fam c s = .next t) : ∀ u ∈ t.units, u.body.IirInv := by
  refine runCommand_forall_units (execute_keeps_body Body.reset_iirInv fun ν o b S _ _ => ?_) hs h
  cases c.body ν o S with
  | done S' out w => exact fun T hT => absurd hT (hfam S' T)
  | error e => trivial

theorem exec_iirInv {i : Instr} (h : exec i s = .next t) : ∀ u ∈ t.units, u.body.IirInv := by
  cases i with
  | nop => rw [(execNop_next h).1]; exact hs
  | iirConfigLpf | iirConfigHpf | iirConfigBpf | iirConfigBrf | iirConfigRlpf | iirConfigRhpf | iirConfigResonz
  | iirConfigBiquad => exact runCommand_iirInv hs (fun _ _ S _ => iirConfigBody_inv _ S) h
  | iirSetFreq => exact runCommand_iirInv hs (fun _ _ _ => iirSetFreqBody_inv) h
  | iirSetQ => exact runCommand_iirInv hs (fun _ _ _ => iirSetQBody_inv) h
  | iirSetResonance | iirSetResonanceNorm => exact runCommand_iirInv hs (fun _ _ _ => iirSetResonanceBody_inv _) h
  | iirSetNotch => exact runCommand_iirInv hs (fun _ _ _ => iirSetNotchBody_inv) h
  | iirSetGain => exact runCommand_iirInv hs (fun ν _ _ => iirSetGainBody_inv (ν := ν)) h
  | iirSample => exact runCommand_iirInv hs (fun _ _ _ => iirSampleBody_inv) h
  | iirClear => exact runCommand_iirInv hs (fun _ _ _ => clearIir_inv) h
  | fdlConfigFixed | fdlConfigAllpass | fdlConfigLinear | fdlSetDelay | fdlClear | fdlTick | fdlNextOut | fdlContentsAt
  | fdlEnergy => exact runCommand_iirInv_of_wrap (fam := fdlFamily) hs (fun _ _ => nofun) h
  | revConfigA | revConfigB | revConfigC | revSetMix | revTick | revClear =>
    exact runCommand_iirInv_of_wrap (fam := revFamily) hs (fun _ _ => nofun) h

end Commands

/-- Settles O56: the bus and each command keep the invariant of every unit. -/
theorem stepKeepsIirInvariant : Obligations.StepKeepsIirInvariant := by
  intro s t hs h
  exact step_forall_units (keptByBus_of_body Body.reset_iirInv) hs
    (fun _ _ _ hunits hexec => exec_iirInv hunits hexec) h

end Sys2Proof.Machine
end

section
/-! Where IIR_CONFIG and the setters of a filter complete: the design of each variant (42_iir_filter.md R170 to R180,
R192 to R197, R201). -/

namespace Sys2Proof.Machine

/-! ### Completed commands -/

section Completes
variable {s : State} {u : DspUnit} {S S' : IirState}

@[simp] theorem Regs.operands_sr (r : Regs) : r.operands.sr = r.sr := rfl

/-- A command of the filter that completes. -/
theorem runCommand_iir_done {c : Command IirState} {o : Results} {w : Warnings} (hs : s.Addresses u)
    (hu : u.body = .iir S) (hr : c.config = true ∨ S.cfg = true) (ha : c.applies S = true)
    (hb : c.body (freeNans s.draws) u.regs.operands S = .done S' o w) :
    runCommand iirFamily c s = .next (s.afterCommand (u.commit (.iir S') o w)) :=
  runCommand_done hs (by rw [hu]; rfl) hr ha hb

/-- A command of the filter that completes without results and without warnings. -/
theorem runCommand_iir_quiet {c : Command IirState} (hs : s.Addresses u) (hu : u.body = .iir S)
    (hr : c.config = true ∨ S.cfg = true) (ha : c.applies S = true)
    (hb : c.body (freeNans s.draws) u.regs.operands S = .done S' {} noWarning) :
    runCommand iirFamily c s = .next (s.afterCommand { u with body := .iir S' }) := by
  rw [runCommand_iir_done hs hu hr ha hb, DspUnit.commit_quiet]

variable (hs : s.Addresses u) (hu : u.body = .iir S)
include hs hu

/-- IIR_CONFIG of a designed variant whose design succeeds (R192). -/
theorem exec_iirConfigOf_of_design {v : IirVariant} {f q sr : F64} {c : Coeffs} (hv : v ≠ .biquad)
    (hf : f = F64.ofBits u.regs.opa) (hq : q = F64.ofBits u.regs.opb) (hsr : sr = F64.ofBits u.regs.sr)
    (hc : tryDesign (freeNans s.draws) v f q sr = some c) :
    exec (iirConfigOf v) s = .next (s.afterCommand { u with body := .iir (freshIir v f q c) }) := by
  subst hf hq hsr
  obtain ⟨hrate, -⟩ := tryDesign_eq_some_iff.1 hc
  rw [exec_iirConfigOf]
  refine runCommand_iir_quiet hs hu (.inl rfl) rfl ?_
  simp [iirConfig, iirConfigBody, hrate, hv, hc]

/-- IIR_CONFIG.BIQUAD starts the pass-through with its operands unchecked (R180, R192). -/
theorem exec_iirConfigBiquad_of_rate (hrate : validRate (F64.ofBits u.regs.sr) = true) :
    exec .iirConfigBiquad s = .next (s.afterCommand { u with
      body := .iir (freshIir .biquad (F64.ofBits u.regs.opa) (F64.ofBits u.regs.opb) passThrough) }) := by
  refine runCommand_iir_quiet hs hu (.inl rfl) rfl ?_
  simp [iirConfig, iirConfigBody, hrate]

variable (hc : S.cfg = true)
include hc

/-- IIR_SET_FREQ where the redesign succeeds (R193). -/
theorem exec_iirSetFreq_of_design {x : F64} {c : Coeffs} (hv : S.variant ≠ .biquad) (hx : x = F64.ofBits u.regs.opa)
    (hd : tryDesign (freeNans s.draws) S.variant x S.q (F64.ofBits u.regs.sr) = some c) :
    exec .iirSetFreq s = .next (s.afterCommand { u with body := .iir { S with freq := x, c := c } }) := by
  subst hx
  refine runCommand_iir_quiet hs hu (.inr hc) (bne_iff_ne.2 hv) ?_
  simp [iirSetFreqBody, hd]

/-- IIR_SET_Q where the redesign succeeds (R194). -/
theorem exec_iirSetQ_of_design {x : F64} {c : Coeffs} (hv : S.variant ≠ .biquad) (hx : x = F64.ofBits u.regs.opa)
    (hd : tryDesign (freeNans s.draws) S.variant S.freq x (F64.ofBits u.regs.sr) = some c) :
    exec .iirSetQ s = .next (s.afterCommand { u with body := .iir { S with q := x, c := c } }) := by
  subst hx
  refine runCommand_iir_quiet hs hu (.inr hc) (bne_iff_ne.2 hv) ?_
  simp [iirSetQBody, hd]

end Completes

/-! ### The designs -/

theorem Coeffs.finite_iff {c : Coeffs} :
    c.finite = true ↔ isFinite c.c0 = true ∧ isFinite c.c1 = true ∧ isFinite c.c2 = true ∧ isFinite c.c3 = true ∧
      isFinite c.c4 = true := by
  simp only [Coeffs.finite, Bool.and_eq_true, and_assoc]

theorem finite_designed {a0 b1 b2 : F64} (h0 : isFinite a0 = true) (h1 : isFinite b1 = true) (h2 : isFinite b2 = true) :
    (designed a0 b1 b2).finite = true := Coeffs.finite_iff.2 ⟨h0, h1, h2, rfl, rfl⟩

theorem isFinite_fneg (x : F64) : isFinite (fneg x) = isFinite x := by cases x <;> rfl

/-- IIR_CONFIG of a designed variant with usable operands, whose coefficients `a0`, `b1` and `b2` are finite. -/
theorem exec_iirConfigOf_designed {v : IirVariant} {s : State} {u : DspUnit} {S : IirState} {f q sr a0 b1 b2 : F64}
    (hs : s.Addresses u) (hu : u.body = .iir S) (hv : v ≠ .biquad) (hf : f = F64.ofBits u.regs.opa)
    (hq : q = F64.ofBits u.regs.opb) (hsr : sr = F64.ofBits u.regs.sr) (hrate : isFinite sr = true)
    (hpos : fgt sr F64.zero = true) (hff : isFinite f = true) (hqf : isFinite q = true) (h0 : isFinite a0 = true)
    (h1 : isFinite b1 = true) (h2 : isFinite b2 = true)
    (hd : design (freeNans s.draws) v f q sr = designed a0 b1 b2) :
    exec (iirConfigOf v) s = .next (s.afterCommand { u with body := .iir (freshIir v f q (designed a0 b1 b2)) }) :=
  exec_iirConfigOf_of_design hs hu hv hf hq hsr
    (tryDesign_eq_some_iff.2 ⟨validRate_iff.2 ⟨hrate, hpos⟩, hff, hqf, finite_designed h0 h1 h2, hd⟩)

/-- Settles O34: the written design is `designLpf`, with the tangent inverted, or `designHpf`. -/
theorem iirConfigLowAndHighPass : Obligations.IirConfigLowAndHighPass := by
  intro v s u S ν f q sr pf c c2 s2c a0 b1 b2 hs hu hv hν hf hq hsr hrate hpos hff hqf hpf hc hc2 hs2c ha0 hb1 hb2
    h0 h1 h2
  refine exec_iirConfigOf_designed hs hu ?_ hf hq hsr hrate hpos hff hqf h0 h1 h2 ?_
  · rcases hv with rfl | rfl <;> decide
  · clear hf hq hsr
    subst hν hpf hc2 hs2c ha0 hb1 hb2
    rcases hv with rfl | rfl <;> subst hc <;> rfl

/-- Settles O35: the written design is `designBpf`, with the tangent inverted, or `designBrf`. -/
theorem iirConfigBandPassAndReject : Obligations.IirConfigBandPassAndReject := by
  intro v s u S ν f q sr pf pbw c d a0 b1 b2 hs hu hv hν hf hq hsr hrate hpos hff hqf hpf hpbw hc hd ha0 hb1 hb2
    h0 h1 h2
  refine exec_iirConfigOf_designed hs hu ?_ hf hq hsr hrate hpos hff hqf h0 h1 h2 ?_
  · rcases hv with rfl | rfl <;> decide
  · clear hf hq hsr
    subst hν hpf hpbw hd ha0 hb1 hb2
    rcases hv with rfl | rfl <;> subst hc <;> rfl

/-- Settles O36: the written design is `designRlpf` or `designRhpf`; negation keeps `c` finite. -/
theorem iirConfigResonantPasses : Obligations.IirConfigResonantPasses := by
  intro v s u S ν f q sr inv qres pf d c a0 b1 hs hu hv hν hf hq hsr hrate hpos hff hqf hinv hqres hpf hd hc hb1 ha0
    h0 h1 h2
  refine exec_iirConfigOf_designed hs hu ?_ hf hq hsr hrate hpos hff hqf h0 h1 ((isFinite_fneg c).trans h2) ?_
  · rcases hv with rfl | rfl <;> decide
  · clear hf hq hsr
    subst hν hinv hqres hpf hd hc hb1
    rcases hv with rfl | rfl <;> subst ha0 <;> rfl

/-- Settles O37: the written design is `designResonz`; BIQUAD asks for the rate alone. -/
theorem iirConfigResonzAndBiquad : Obligations.IirConfigResonzAndBiquad := by
  intro s u S ν f q sr ff b r twoR r2 cost a0 b1 hs hu hν hf hq hsr hrate hpos hang hb hr htwoR hr2 hcost ha0 hb1
  constructor
  · intro hff hqf h0 h1 h2
    refine exec_iirConfigOf_designed (v := .resonz) hs hu (by decide) hf hq hsr hrate hpos hff hqf h0 h1
      ((isFinite_fneg r2).trans h2) ?_
    subst hν hang hb hr htwoR hr2 hcost ha0 hb1
    rfl
  · subst hf hq hsr
    exact exec_iirConfigBiquad_of_rate hs hu (validRate_iff.2 ⟨hrate, hpos⟩)

/-! ### The setters -/

/-- Settles O38: a setter and IIR_CONFIG try the same design. -/
theorem iirSettersRedesignAndKeepHistory : Obligations.IirSettersRedesignAndKeepHistory := by
  intro s u S x cf cq hs hu hc hv hx hrate hpos hxf hcf hcq
  have hsr := validRate_iff.2 ⟨hrate, hpos⟩
  refine ⟨fun hq hfin => ?_, fun hf hfin => ?_, fun v q c hv' hq hqf hd hfin => ?_⟩
  · exact exec_iirSetFreq_of_design hs hu hc hv hx (tryDesign_eq_some_iff.2 ⟨hsr, hxf, hq, hfin, hcf.symm⟩)
  · exact exec_iirSetQ_of_design hs hu hc hv hx (tryDesign_eq_some_iff.2 ⟨hsr, hf, hxf, hfin, hcq.symm⟩)
  · exact exec_iirConfigOf_of_design hs hu hv' hx hq rfl (tryDesign_eq_some_iff.2 ⟨hsr, hxf, hqf, hfin, hd.symm⟩)

theorem radiusOperandsValid_iff {o : Operands} :
    radiusOperandsValid o = true ↔
      validRate (asB64 o.sr) = true ∧ isFinite (asB64 o.opa) = true ∧ isNaN (asB64 o.opb) = false := by
  simp [radiusOperandsValid, and_assoc]

section Biquad
variable {s : State} {u : DspUnit} {S : IirState} {c : Coeffs} {r : F64} {w : Warnings} (hs : s.Addresses u)
  (hu : u.body = .iir S) (hc : S.cfg = true) (hv : S.variant = .biquad)
  (ho : radiusOperandsValid u.regs.operands = true) (hr : clampRadius (F64.ofBits u.regs.opb) = (r, w))
  (hfin : c.finite = true)
include hs hu hc hv ho hr hfin

/-- IIR_SET_RESONANCE, with `norm` or without, that completes with the coefficients `c` (R195). -/
theorem runCommand_iirSetResonance {norm : Bool}
    (hcoeffs : withResonance (freeNans s.draws) norm S.c r (F64.ofBits u.regs.opa) (F64.ofBits u.regs.sr) = c) :
    runCommand iirFamily
        { config := false, applies := fun S => S.variant == .biquad, body := iirSetResonanceBody norm } s =
      .next (s.afterCommand { u with
        body := .iir { S with c := c }, regs := { u.regs with warn := u.regs.warn ||| w } }) := by
  rw [← DspUnit.commit_warns]
  refine runCommand_iir_done hs hu (.inr hc) (beq_iff_eq.2 hv) ?_
  simp [iirSetResonanceBody, ho, hr, hcoeffs, hfin]

/-- IIR_SET_NOTCH that completes with the coefficients `c` (R196). -/
theorem exec_iirSetNotch
    (hcoeffs : withNotch (freeNans s.draws) S.c r (F64.ofBits u.regs.opa) (F64.ofBits u.regs.sr) = c) :
    exec .iirSetNotch s = .next (s.afterCommand { u with
      body := .iir { S with c := c }, regs := { u.regs with warn := u.regs.warn ||| w } }) := by
  rw [← DspUnit.commit_warns]
  refine runCommand_iir_done hs hu (.inr hc) (beq_iff_eq.2 hv) ?_
  simp [iirSetNotchBody, ho, hr, hcoeffs, hfin]

end Biquad

/-- Settles O39: the written clamp is `clampRadius`, and the coefficients that a setter leaves are finite already. -/
theorem biquadSettersPlacePolesAndZeros : Obligations.BiquadSettersPlacePolesAndZeros := by
  intro s u S ν f sr r rr term b0 w hs hu hc hv hν hf hsr hrate hpos hff hnan hfin hclamp hrr hterm hb0 hrrf htermf
  subst hν hf hsr hrr hterm hb0
  have ho : radiusOperandsValid u.regs.operands = true :=
    radiusOperandsValid_iff.2 ⟨validRate_iff.2 ⟨hrate, hpos⟩, hff, hnan⟩
  obtain ⟨h0, h1, h2, h3, h4⟩ := Coeffs.finite_iff.1 hfin
  refine ⟨?_, fun hb0f => ?_, ?_⟩
  · refine runCommand_iirSetResonance hs hu hc hv ho hclamp.symm ?_ rfl
    exact Coeffs.finite_iff.2 ⟨h0, h1, h2, htermf, hrrf⟩
  · refine runCommand_iirSetResonance hs hu hc hv ho hclamp.symm ?_ rfl
    exact Coeffs.finite_iff.2 ⟨hb0f, rfl, (isFinite_fneg _).trans hb0f, htermf, hrrf⟩
  · exact exec_iirSetNotch hs hu hc hv ho hclamp.symm (Coeffs.finite_iff.2 ⟨h0, htermf, hrrf, h3, h4⟩) rfl

/-- Settles O40: the body asks whether the gain is finite, and its error is no CFG error. -/
theorem setGainStoresAFiniteGain : Obligations.SetGainStoresAFiniteGain := by
  refine ⟨by decide, fun s u S hs hu hc => ?_⟩
  cases h : isFinite (F64.ofBits u.regs.opa) with
  | true => exact runCommand_iir_quiet hs hu (.inr hc) rfl (if_pos h)
  | false =>
    exact iir_rejected hs hu (by rw [hu]; exact hc) rfl (iirSetGainBody_of_not_finite (freeNans s.draws) h)

end Sys2Proof.Machine
end

section
/-! IIR_SAMPLE and IIR_CLEAR (42_iir_filter.md R171, R181 to R188, R198, R199). -/

namespace Sys2Proof.Machine

/-! ### The flush -/

/-- The flush compares exact values (R171). -/
theorem flush_eq (v : F64) :
    flush v = if isFinite v = true ∧ |valueOf v| < valueOf Config.denormTh then F64.zero else v := by
  unfold flush
  cases v with
  | nan b => rfl
  | inf s => cases s <;> rfl
  | fin s m =>
    have hth : isFinite Config.denormTh = true := rfl
    refine if_congr ?_ rfl rfl
    rw [Bool.and_eq_true, flt_iff_valueOf ((isFinite_fneg _).trans hth) rfl, flt_iff_valueOf rfl hth, valueOf_fneg,
      abs_lt]
    exact (and_iff_right rfl).symm

/-! ### The commands -/

section Ready
variable {s : State} {u : DspUnit} {S : IirState} (hs : s.Addresses u) (hu : u.body = .iir S) (hc : S.cfg = true)
include hs hu hc

theorem exec_iirSample {y0 out : F64}
    (h : iirStep (freeNans s.draws) S.variant S.c (gained (freeNans s.draws) S (F64.ofBits u.regs.opa)) S.y1 S.y2 =
      (y0, out)) :
    exec .iirSample s = .next (s.afterCommand { u with
      body := .iir { S with y2 := flush S.y1, y1 := flush y0 }, regs := { u.regs with res0 := out.toBits } }) := by
  rw [← DspUnit.commit_one]
  refine runCommand_iir_done hs hu (.inr hc) rfl ?_
  simp [iirSampleBody, h]

theorem exec_iirClear : exec .iirClear s = .next (s.afterCommand { u with body := .iir (clearIir S) }) :=
  runCommand_iir_quiet hs hu (.inr hc) rfl rfl

end Ready

/-- Settles O42: in each variant the written step is `iirStep`. -/
theorem sampleRunsTheVariantsStep : Obligations.SampleRunsTheVariantsStep := by
  refine ⟨flush_eq, fun s u S ν x y0 out hs hu hc hν hx hstep => exec_iirSample hs hu hc (Eq.symm (hstep.trans ?_))⟩
  subst hν hx
  cases S.variant <;> rfl

/-- Settles O43: `clearIir` sets the history alone. -/
theorem iirClearZeroesTheHistory : Obligations.IirClearZeroesTheHistory :=
  ⟨by decide, fun _ _ _ hs hu hc => exec_iirClear hs hu hc⟩

end Sys2Proof.Machine
end

section
/-! The reverberator invariant over a step (43_reverberator.md R220, R224, R226, R228, R230 to R236): each stage of a tick
writes one flushed word into one line. -/

namespace Sys2Proof.Machine

/-! ### Lines -/

theorem flush_read {m : Ram} (h : ∀ c ∈ m, flush c.2 = c.2) (i : Nat) : flush (m.read i) = m.read i := by
  by_cases h0 : m.read i = F64.zero
  · rw [h0, flush_zero]
  · exact h _ (Ram.mem_of_read_ne h0)

/-- A tick with a flushed input keeps the invariant of a line (R224, R236). -/
theorem Line.RevInv.tick {l : Line} (h : l.RevInv) {x : F64} (hx : flush x = x) : (l.tick x).RevInv := by
  obtain ⟨hw, hr, hwf, hwords, -⟩ := h
  have hwords' : ∀ c ∈ l.buf.write l.w x, c.1 < l.cap ∧ flush c.2 = c.2 := by
    intro c hc
    rcases Ram.mem_write hc with rfl | hc
    · exact ⟨hw, hx⟩
    · exact hwords c hc
  exact ⟨nextIndex_lt (Nat.zero_lt_of_lt hw), congrArg (nextIndex · l.cap) hr, Ram.wf_write l.w x hwf, hwords',
    flush_read (fun c hc => (hwords' c hc).2) l.r⟩

theorem Line.RevInv.clear {l : Line} (h : l.RevInv) : l.clear.RevInv := by
  obtain ⟨hw, hr, hwf, hwords, -⟩ := h
  exact ⟨hw, hr, Ram.wf_zeroBelow l.cap hwf, fun c hc => hwords c (List.mem_filter.1 hc).1, flush_zero⟩

theorem freshLine_revInv (n : Nat) : (freshLine n).RevInv :=
  ⟨Nat.succ_pos n, rfl, rfl, List.forall_mem_nil _, flush_zero⟩

/-- The lines of a reverberator with line lengths `lens` (R224, R236). -/
def LinesInv (lens : List Nat) (ls : List Line) : Prop := ls.map (·.cap) = lens.map (· + 1) ∧ ∀ l ∈ ls, l.RevInv

theorem freshLines_inv (lens : List Nat) : LinesInv lens (lens.map freshLine) := by
  refine ⟨by rw [List.map_map]; rfl, fun l hl => ?_⟩
  obtain ⟨n, -, rfl⟩ := List.mem_map.1 hl
  exact freshLine_revInv n

section Stages
variable {lens : List Nat} {ls : List Line} (h : LinesInv lens ls)
include h

theorem LinesInv.clear : LinesInv lens (ls.map Line.clear) := by
  obtain ⟨hcap, hlines⟩ := h
  refine ⟨by rw [List.map_map]; exact hcap, fun l hl => ?_⟩
  obtain ⟨l', hl', rfl⟩ := List.mem_map.1 hl
  exact (hlines l' hl').clear

theorem LinesInv.tickLine (k : Nat) {x : F64} (hx : flush x = x) : LinesInv lens (tickLine ls k x) := by
  obtain ⟨hcap, hlines⟩ := h
  unfold Machine.tickLine
  by_cases hk : k < ls.length
  · have hat : lineAt ls k = ls[k] := List.getD_eq_getElem _ _ hk
    rw [hat]
    refine ⟨?_, fun l hl => ?_⟩
    · rw [List.map_set, Line.tick_cap, ← List.map_set (f := Line.cap), List.set_getElem_self, hcap]
    · rcases List.mem_or_eq_of_mem_set hl with hl | rfl
      · exact hlines l hl
      · exact (hlines _ (List.getElem_mem hk)).tick hx
  · rw [List.set_eq_of_length_le (not_lt.1 hk)]
    exact ⟨hcap, hlines⟩

theorem LinesInv.allpassStage (ν : NanSource) (k : Nat) (x : F64) : LinesInv lens (allpassStage ν k x ls).lines :=
  h.tickLine k (flush_flush _)

theorem LinesInv.allpassChain (ν : NanSource) (ks : List Nat) (x : F64) :
    LinesInv lens (allpassChain ν ks x ls).lines :=
  List.foldlRecOn (motive := fun a : Staged => LinesInv lens a.lines) ks _ h fun a ha k _ => ha.allpassStage ν k a.val

theorem LinesInv.combs (ks : List Nat) (c : Nat → F64) (hc : ∀ k, flush (c k) = c k) :
    LinesInv lens (ks.foldl (fun l k => Machine.tickLine l k (c k)) ls) :=
  List.foldlRecOn (motive := LinesInv lens) ks _ h fun _ hl k _ => hl.tickLine k (hc k)

theorem LinesInv.combsB (ν : NanSource) (S : RevState) (x v : F64) (ks : List Nat) :
    LinesInv lens (ks.foldl (combB ν S x) ⟨v, ls⟩).lines :=
  List.foldlRecOn (motive := fun a : Staged => LinesInv lens a.lines) ks _ h fun _ ha k _ =>
    ha.tickLine k (flush_flush _)

end Stages

/-- Every input of a line in a tick is flushed, and so is the lowpass state (R232, R233, R234, R236). -/
theorem tickRev_inv (ν : NanSource) {S : RevState} (x : F64) {lens : List Nat} (h : LinesInv lens S.lines)
    (hlp : flush S.lp = S.lp) :
    LinesInv lens (tickRev ν S x).lines ∧ flush (tickRev ν S x).lp = (tickRev ν S x).lp := by
  unfold tickRev
  split
  · exact ⟨(((h.allpassChain ν _ x).combs _ _ fun _ => flush_flush _).tickLine 7 (flush_flush _)).tickLine 8
      (flush_flush _), hlp⟩
  · exact ⟨((((h.combsB ν S x _ _).allpassChain ν _ _).allpassChain ν _ _).allpassStage ν 10 _).allpassStage ν 11 _,
      flush_flush _⟩
  · exact ⟨((h.allpassChain ν _ x).tickLine 2 (flush_flush _)).tickLine 3 (flush_flush _), hlp⟩

/-! ### The bodies -/

theorem RevState.inv_iff {n : Nat} {S : RevState} :
    S.Inv n ↔ LinesInv S.len S.lines ∧ flush S.lp = S.lp ∧ InRange F64.zero S.mix Config.one ∧
      (S.cfg = true → S.len.length = lineCount S.topo ∧ S.cg.length = (combLines S.topo).length ∧ ramNeed S.len ≤ n) :=
  and_assoc.symm

/-- The lengths of a topology that fit are its rescaled nominal ones (R223, R227). -/
theorem fittingLengths_eq_some {t : RevTopology} {sr : F64} {n : Nat} {lens : List Nat}
    (h : fittingLengths t sr n = some lens) :
    lens = (nominal t).map (fun l => rescale l sr (refRate t)) ∧ ramNeed lens ≤ n := by
  unfold fittingLengths at h
  dsimp only at h
  split_ifs at h with _ hfit
  cases h
  exact ⟨rfl, not_lt.1 hfit⟩

theorem nominal_length (t : RevTopology) : (nominal t).length = lineCount t := by cases t <;> rfl

theorem mixDefault_inRange (t : RevTopology) : InRange F64.zero (mixDefault t) Config.one := by
  cases t <;> exact ⟨by decide, by decide⟩

theorem clampMix_inRange {m : F64} (h : isNaN m = false) : InRange F64.zero (clampMix m).1 Config.one := by
  unfold clampMix
  split_ifs with hlo hhi
  · exact ⟨by decide, by decide⟩
  · exact ⟨by decide, by decide⟩
  · exact ⟨fle_of_flt_false (by decide) h (Bool.eq_false_iff.2 hlo),
      fle_of_flt_false h (by decide) (Bool.eq_false_iff.2 hhi)⟩

section Bodies
variable {n : Nat} {ν : NanSource} {o : Operands}

theorem revConfigBody_inv (t : RevTopology) (S : RevState) : (revConfigBody t n ν o S).Leaves (RevState.Inv n) := by
  unfold revConfigBody
  split_ifs
  · trivial
  · trivial
  · split
    · trivial
    · rename_i lens hfit
      obtain ⟨hlens, hram⟩ := fittingLengths_eq_some hfit
      refine RevState.inv_iff.2 ⟨freshLines_inv lens, flush_zero, mixDefault_inRange t, fun _ => ⟨?_, ?_, hram⟩⟩
      · simp only [freshRev, hlens, List.length_map, nominal_length]
      · simp only [freshRev, combGains, List.length_map]

variable {S : RevState} (h : S.Inv n)
include h

theorem revSetMixBody_inv : (revSetMixBody ν o S).Leaves (RevState.Inv n) := by
  obtain ⟨hlines, hlp, -, hready⟩ := RevState.inv_iff.1 h
  unfold revSetMixBody
  split_ifs with hnan
  · trivial
  · exact RevState.inv_iff.2 ⟨hlines, hlp, clampMix_inRange (Bool.eq_false_iff.2 hnan), hready⟩

theorem revTickBody_inv : (revTickBody ν o S).Leaves (RevState.Inv n) := by
  obtain ⟨hlines, hlp, hmix, hready⟩ := RevState.inv_iff.1 h
  obtain ⟨hlines', hlp'⟩ := tickRev_inv ν (asB64 o.opa) hlines hlp
  exact RevState.inv_iff.2 ⟨hlines', hlp', hmix, hready⟩

theorem clearRev_inv : (clearRev S).Inv n := by
  obtain ⟨hlines, -, hmix, hready⟩ := RevState.inv_iff.1 h
  exact RevState.inv_iff.2 ⟨hlines.clear, flush_zero, hmix, hready⟩

end Bodies

/-! ### Units and steps -/

/-- The reverberator invariant of a unit of any type. -/
def Body.RevInv (n : Nat) (b : Body) : Prop := ∀ S, b = .rev S → S.Inv n

@[simp] theorem Body.revInv_rev {n : Nat} {S : RevState} : (Body.rev S).RevInv n ↔ S.Inv n :=
  ⟨fun h => h S rfl, fun h T hT => by cases hT; exact h⟩

theorem State.revInv_iff {s : State} : s.RevInv ↔ ∀ u ∈ s.units, u.body.RevInv s.params.revRamWords := Iff.rfl

theorem Body.reset_revInv (n : Nat) (t : UnitType) : (Body.reset t).RevInv n := by
  cases t with
  | fdl | iir =>
    intro S hS
    cases hS
  | rev => exact Body.revInv_rev.2 (RevState.reset_inv n)

section Commands
variable {n : Nat} {s t : State} (hs : ∀ u ∈ s.units, u.body.RevInv n)
include hs

/-- A command of the reverberator keeps the invariant of every unit where its body does. -/
theorem runCommand_revInv {c : Command RevState}
    (hc : ∀ ν o S, S.Inv n → (c.body ν o S).Leaves (RevState.Inv n)) (h : runCommand revFamily c s = .next t) :
    ∀ u ∈ t.units, u.body.RevInv n := by
  refine runCommand_forall_units (execute_keeps_body (Body.reset_revInv n) fun ν o b S hv hb => ?_) hs h
  simpa using hc ν o S (hb S (revFamily_view_eq hv))

/-- A command of another family makes no reverberator. -/
theorem runCommand_revInv_of_wrap {σ : Type} {fam : Family σ} {c : Command σ} (hfam : ∀ S T, fam.wrap S ≠ .rev T)
    (h : runCommand fam c s = .next t) : ∀ u ∈ t.units, u.body.RevInv n := by
  refine runCommand_forall_units (execute_keeps_body (Body.reset_revInv n) fun ν o b S _ _ => ?_) hs h
  cases c.body ν o S with
  | done S' out w => exact fun T hT => absurd hT (hfam S' T)
  | error e => trivial

end Commands

theorem exec_revInv {i : Instr} {s t : State} (hs : ∀ u ∈ s.units, u.body.RevInv s.params.revRamWords)
    (h : exec i s = .next t) : ∀ u ∈ t.units, u.body.RevInv s.params.revRamWords := by
  cases i with
  | nop => rw [(execNop_next h).1]; exact hs
  | revConfigA | revConfigB | revConfigC => exact runCommand_revInv hs (fun _ _ S _ => revConfigBody_inv _ S) h
  | revSetMix => exact runCommand_revInv hs (fun ν _ _ => revSetMixBody_inv (ν := ν)) h
  | revTick => exact runCommand_revInv hs (fun _ _ _ => revTickBody_inv) h
  | revClear => exact runCommand_revInv hs (fun _ _ _ => clearRev_inv) h
  | fdlConfigFixed | fdlConfigAllpass | fdlConfigLinear | fdlSetDelay | fdlClear | fdlTick | fdlNextOut | fdlContentsAt
  | fdlEnergy => exact runCommand_revInv_of_wrap (fam := fdlFamily) hs (fun _ _ => nofun) h
  | iirConfigLpf | iirConfigHpf | iirConfigBpf | iirConfigBrf | iirConfigRlpf | iirConfigRhpf | iirConfigResonz
  | iirConfigBiquad | iirSetFreq | iirSetQ | iirSetResonance | iirSetResonanceNorm | iirSetNotch | iirSetGain | iirSample
  | iirClear => exact runCommand_revInv_of_wrap (fam := iirFamily) hs (fun _ _ => nofun) h

/-- Settles O57: the bus and each command keep the invariant of every unit, and no step changes the RAM's size. -/
theorem stepKeepsRevInvariant : Obligations.StepKeepsRevInvariant := by
  intro s t hs h
  have hp : t.params = s.params := congrArg Prod.snd (stepKeepsThePlatform s t h)
  rw [State.revInv_iff, hp]
  refine step_forall_units (keptByBus_of_body (Body.reset_revInv _)) hs (fun i r hr hunits hexec => ?_) h
  rw [← hr] at hunits ⊢
  exact exec_revInv hunits hexec

end Sys2Proof.Machine
end

section
/-! The trial division and the length search (43_reverberator.md R222, R223): how near the rounded square root comes to the
square root, which divisors are tried, and where the search stops. -/

namespace Sys2Proof.Machine

/-! ### A rounded result keeps the order -/

section Rounded
variable {z y : F64} {x : ℚ} {zeroSign : Bool} (h : RoundedTo z x zeroSign) (hz : isFinite z = true)
  (hy : isFinite y = true)
include h hz hy

theorem RoundedTo.near : |valueOf z - x| ≤ |valueOf y - x| := by
  obtain ⟨-, hbig, hsmall⟩ := h
  rcases le_or_gt (2 ^ 1024 - 2 ^ 970) |x| with hle | hlt
  · rw [hbig hle] at hz
    cases hz
  · exact ((hsmall hlt).2 y hy).1

theorem RoundedTo.le_value (hyx : valueOf y ≤ x) : valueOf y ≤ valueOf z := by
  have hnear := h.near hz hy
  rw [abs_of_nonpos (sub_nonpos.2 hyx)] at hnear
  linarith [(abs_le.1 hnear).1]

omit hy in
theorem RoundedTo.value_le_two_mul (hx : 0 ≤ x) : valueOf z ≤ 2 * x := by
  have hnear := h.near hz (y := F64.zero) rfl
  rw [valueOf_zero, zero_sub, abs_neg, abs_of_nonneg hx] at hnear
  linarith [(abs_le.1 hnear).2]

end Rounded

/-- The floor of the model is the floor of the value, also where the value is not finite (log 14). -/
theorem ffloor_eq (a : F64) : ffloor a = ⌊valueOf a⌋ := by
  cases a with
  | nan _ | inf _ => exact Int.floor_zero.symm
  | fin s m => exact ffloor_eq_floor rfl

/-! ### The square root -/

/-- The integer square root with the bit that tells whether it is exact: at least twice every integer root, at most four
times the square root. -/
theorem jam_isqrt_bounds {a : Nat} (ha : a ≠ 0) :
    (∀ s : Nat, s * s ≤ a → 2 * s ≤ jam (isqrt a) (isqrt a * isqrt a = a)) ∧
    jam (isqrt a) (isqrt a * isqrt a = a) ^ 2 ≤ 16 * a := by
  obtain ⟨hle, hlt⟩ := isqrt_spec a
  generalize isqrt a = r at *
  have hjam : 2 * r ≤ jam r (r * r = a) ∧ jam r (r * r = a) ≤ 2 * r + 1 := by unfold jam; split <;> omega
  obtain ⟨hlow, hhigh⟩ := hjam
  have hr : 1 ≤ r := by
    by_contra h0
    rw [show r = 0 by omega] at hlt
    omega
  refine ⟨fun s hs => ?_, by nlinarith⟩
  have : s < r + 1 := Nat.mul_self_lt_mul_self_iff.1 (hs.trans_lt hlt)
  omega

/-- What the square root of a magnitude rounds: an integer square root over an even power of two. -/
theorem fsqrt_eq (n : NanBits) {m : Fin infCode} (hm : m.val ≠ 0) :
    ∃ (a : Nat) (h : Int), a ≠ 0 ∧ 2 * h ≤ exponent m - 120 ∧ valueOf (.fin false m) = a * (2 ^ h) ^ 2 ∧
      fsqrt n (.fin false m) = roundExact false (jam (isqrt a) (isqrt a * isqrt a = a)) (h - 1) := by
  have hsig : significand m ≠ 0 := mt significand_eq_zero.1 hm
  have hval : ∀ (k : Nat) (h : Int), exponent m = k + 2 * h →
      valueOf (.fin false m) = ((significand m * 2 ^ k : Nat) : ℚ) * (2 ^ h) ^ 2 := fun k h he => by
    rw [valueOf_eq_signed, signed_false, he, zpow_add₀ (by norm_num), ← zpow_natCast ((2 : ℚ) ^ h), ← zpow_mul, mul_comm h]
    push_cast
    rw [zpow_natCast]
    ring
  by_cases hodd : exponent m % 2 = 1
  · refine ⟨significand m * 2 ^ 121, (exponent m - 1 - 120) / 2, by positivity, by omega,
      hval 121 _ (by push_cast; omega), ?_⟩
    simp only [fsqrt, hm, hodd, if_true, if_false, Bool.false_eq_true]
  · refine ⟨significand m * 2 ^ 120, (exponent m - 120) / 2, by positivity, by omega,
      hval 120 _ (by push_cast; omega), ?_⟩
    simp only [fsqrt, hm, hodd, if_false, Bool.false_eq_true]

/-- The square root rounds a value whose square is at most four times the operand, and that no integer root exceeds where
the operand has at most 53 bits before the point. -/
theorem fsqrt_roundedTo (n : NanBits) {m : Fin infCode} (hm : m.val ≠ 0) :
    ∃ x : ℚ, RoundedTo (fsqrt n (.fin false m)) x false ∧ 0 ≤ x ∧ x ^ 2 ≤ 4 * valueOf (.fin false m) ∧
      ∀ s : Nat, exponent m ≤ 0 → (s : ℚ) ^ 2 ≤ valueOf (.fin false m) → s ≤ x := by
  obtain ⟨a, h, ha, hle, hval, hsqrt⟩ := fsqrt_eq n hm
  obtain ⟨hroot, hsq⟩ := jam_isqrt_bounds ha
  rw [hsqrt, hval]
  generalize jam (isqrt a) (isqrt a * isqrt a = a) = j at *
  have hH : (0 : ℚ) < 2 ^ h := by positivity
  have hpred : (j : ℚ) * 2 ^ (h - 1) = j / 2 * 2 ^ h := by rw [two_zpow_pred h]; ring
  refine ⟨j * 2 ^ (h - 1), StandsFor.roundedTo (s := false) (.inl rfl) (by positivity) fun _ => rfl, by positivity, ?_,
    fun s hexp hs => ?_⟩
  · have hsq' : (j : ℚ) ^ 2 ≤ 16 * a := by exact_mod_cast hsq
    rw [hpred, mul_pow, ← mul_assoc]
    exact mul_le_mul_of_nonneg_right (by linarith) (by positivity)
  · obtain ⟨k, rfl⟩ : ∃ k : Nat, h = -k := ⟨(-h).toNat, by omega⟩
    have hinv : (2 : ℚ) ^ (-k : Int) * 2 ^ k = 1 := by rw [zpow_neg, zpow_natCast, inv_mul_cancel₀ (by positivity)]
    have hs' : ((s * 2 ^ k : Nat) : ℚ) * (s * 2 ^ k : Nat) ≤ a := by
      calc ((s * 2 ^ k : Nat) : ℚ) * (s * 2 ^ k : Nat) = s ^ 2 * (2 ^ k) ^ 2 := by push_cast; ring
        _ ≤ a * (2 ^ (-k : Int)) ^ 2 * (2 ^ k) ^ 2 := mul_le_mul_of_nonneg_right hs (by positivity)
        _ = a * ((2 ^ (-k : Int)) * 2 ^ k) ^ 2 := by ring
        _ = a := by rw [hinv, one_pow, mul_one]
    have hj : (2 * (s * 2 ^ k) : ℚ) ≤ j := by exact_mod_cast hroot _ (by exact_mod_cast hs')
    calc (s : ℚ) = 2 * (s * 2 ^ k) / 2 * 2 ^ (-k : Int) := by linear_combination -(s : ℚ) * hinv
      _ ≤ j / 2 * 2 ^ (-k : Int) := mul_le_mul_of_nonneg_right (by linarith) hH.le
      _ = _ := hpred.symm

/-! ### The limit of the trial division -/

theorem i2f_natCast (k : Nat) : ∃ c, i2f k = saturate false c := by
  rw [i2f, decide_eq_false (by omega)]
  exact roundExact_eq_saturate ..

theorem i2f_eq_fin {n : Nat} (h1 : 1 ≤ n) (h2 : n < 2 ^ 53) :
    ∃ m : Fin infCode, i2f n = .fin false m ∧ m.val ≠ 0 ∧ valueOf (.fin false m) = n := by
  obtain ⟨hfin, hval⟩ := i2f_exact (i := n) (by rw [Int.abs_eq_natAbs]; omega)
  obtain ⟨c, hc⟩ := i2f_natCast n
  rw [hc] at hfin hval ⊢
  by_cases hlt : c < infCode
  · rw [saturate_of_lt false hlt] at hval ⊢
    refine ⟨_, rfl, ?_, hval⟩
    rintro rfl
    rw [valueOf_eq_codeValue, codeValue_zero, signed_zero, Int.cast_natCast, eq_comm, Nat.cast_eq_zero] at hval
    omega
  · rw [saturate_of_le false (not_lt.1 hlt)] at hfin
    cases hfin

/-- The rounded square root, from above. -/
theorem valueOf_fsqrt_sq_le (n : NanBits) (m : Fin infCode) :
    valueOf (fsqrt n (.fin false m)) ^ 2 ≤ 16 * valueOf (.fin false m) := by
  have hpos : 0 ≤ valueOf (.fin false m) := by
    rw [valueOf_eq_codeValue]
    exact codeValue_nonneg _
  by_cases h0 : m.val = 0
  · simp [fsqrt, h0, valueOf, significand]
  · obtain ⟨x, hx, hx0, hsq, -⟩ := fsqrt_roundedTo n h0
    cases hz : fsqrt n (.fin false m) with
    | nan _ | inf _ => simpa [valueOf] using hpos
    | fin s k =>
      rw [hz] at hx
      have hhigh := hx.value_le_two_mul rfl hx0
      have hlow := hx.le_value rfl (y := F64.zero) rfl (by rwa [valueOf_zero])
      rw [valueOf_zero] at hlow
      nlinarith

/-- The rounded square root of a rounded integer, from above. -/
theorem valueOf_fsqrt_i2f_sq_le (n : NanBits) (k : Nat) : valueOf (fsqrt n (i2f k)) ^ 2 ≤ 32 * k := by
  have hround := i2f_roundedTo k
  obtain ⟨c, hc⟩ := i2f_natCast k
  rw [hc] at hround ⊢
  by_cases hlt : c < infCode
  · rw [saturate_of_lt false hlt] at hround ⊢
    have hdouble := hround.value_le_two_mul rfl (by positivity)
    push_cast at hdouble
    linarith [valueOf_fsqrt_sq_le n ⟨c, hlt⟩]
  · rw [saturate_of_le false (not_lt.1 hlt)]
    simp [fsqrt, valueOf]

theorem divisorLimit_eq (n : Nat) : ∃ b, divisorLimit n = ⌊valueOf (fsqrt b (i2f n))⌋.toNat + 1 :=
  ⟨_, by rw [divisorLimit, ffloor_eq]⟩

/-- No number from 3 on is tried as its own divisor. -/
theorem divisorLimit_le {n : Nat} (h : 3 ≤ n) : divisorLimit n ≤ n := by
  have hsmall : ∀ k < 33, 3 ≤ k → divisorLimit k ≤ k := by decide +kernel
  by_cases hn : n < 33
  · exact hsmall n hn h
  · obtain ⟨b, hlim⟩ := divisorLimit_eq n
    have hsq := valueOf_fsqrt_i2f_sq_le b n
    have hn' : (33 : ℚ) ≤ n := by exact_mod_cast not_lt.1 hn
    have hlt : valueOf (fsqrt b (i2f n)) < n := lt_of_pow_lt_pow_left₀ 2 (by positivity) (by nlinarith)
    have : ⌊valueOf (fsqrt b (i2f n))⌋ < n := Int.floor_lt.2 (by exact_mod_cast hlt)
    omega

/-- A magnitude below `2^53` has no exponent above 0. -/
theorem exponent_nonpos {m : Fin infCode} (h : valueOf (.fin false m) < 2 ^ 53) : exponent m ≤ 0 := by
  by_contra hpos
  have hsig : 2 ^ 52 ≤ significand m := by
    unfold exponent at hpos
    unfold significand
    split_ifs at hpos ⊢ <;> omega
  have hpow : (2 : ℚ) ^ (1 : Int) ≤ 2 ^ exponent m := two_zpow_le (by omega)
  have hsig' : (2 ^ 52 : ℚ) ≤ significand m := by exact_mod_cast hsig
  rw [zpow_one] at hpow
  rw [valueOf_eq_signed, signed_false] at h
  linarith [mul_le_mul hsig' hpow (by norm_num) (by positivity)]

/-- Every number up to the square root is tried. -/
theorem lt_divisorLimit {n s : Nat} (h1 : 1 ≤ n) (h2 : n < 2 ^ 53) (hs : s ^ 2 ≤ n) : s < divisorLimit n := by
  obtain ⟨b, hlim⟩ := divisorLimit_eq n
  obtain ⟨m, hm, hm0, hval⟩ := i2f_eq_fin h1 h2
  obtain ⟨x, hx, hx0, hsq, hroot⟩ := fsqrt_roundedTo b hm0
  have h1' : (1 : ℚ) ≤ n := by exact_mod_cast h1
  have h2' : (n : ℚ) < 2 ^ 53 := by exact_mod_cast h2
  rw [hval] at hsq hroot
  have hsx := hroot s (exponent_nonpos (hval.trans_lt h2')) (by exact_mod_cast hs)
  have hx55 : x ≤ 2 ^ 55 := by nlinarith
  obtain ⟨hzfin, -⟩ := hx.2.2 (by rw [abs_of_nonneg hx0]; exact lt_overflow hx55)
  obtain ⟨y, hy, hys⟩ := exists_value_int (i := s) (by rw [Int.abs_eq_natAbs, Int.natAbs_natCast]; norm_cast; nlinarith)
  have hsz := hx.le_value hzfin hy (by rw [hys]; exact_mod_cast hsx)
  rw [hys, ← hm] at hsz
  have := Int.le_floor.2 hsz
  omega

/-! ### The trial division -/

theorem noOddDivisor_iff {n lim : Nat} : ∀ fuel i : Nat, lim ≤ i + 2 * fuel →
    (noOddDivisor n lim fuel i = true ↔ ∀ j, i ≤ j → j < lim → j % 2 = i % 2 → ¬ j ∣ n)
  | 0, i, hf => iff_of_true rfl fun j hij hj => by omega
  | fuel + 1, i, hf => by
    unfold noOddDivisor
    split_ifs with hi hdvd
    · exact iff_of_false id fun h => h i le_rfl hi rfl (Nat.dvd_of_mod_eq_zero hdvd)
    · rw [noOddDivisor_iff fuel (i + 2) (by omega)]
      constructor
      · intro h j hij hj hpar
        rcases Nat.eq_or_lt_of_le hij with rfl | hlt
        · exact mt Nat.mod_eq_zero_of_dvd hdvd
        · exact h j (by omega) hj (by omega)
      · exact fun h j hij hj hpar => h j (by omega) hj (by omega)
    · exact iff_of_true rfl fun j hij hj => by omega

/-- What the test asks (R222). -/
theorem isPrime_iff (n : Nat) :
    isPrime n = true ↔ n = 2 ∨ (n % 2 = 1 ∧ ∀ j, 3 ≤ j → j < divisorLimit n → j % 2 = 1 → ¬ j ∣ n) := by
  unfold isPrime
  split_ifs with h2 hev
  · exact iff_of_true rfl (.inl h2)
  · exact iff_of_false id fun h => by omega
  · rw [noOddDivisor_iff _ _ (by omega), or_iff_right h2, and_iff_right (by omega)]

/-- Every prime passes the test, however large. -/
theorem isPrime_of_prime {p : Nat} (hp : p.Prime) : isPrime p = true := by
  refine (isPrime_iff p).2 (hp.eq_two_or_odd.imp id fun hodd => ⟨hodd, fun j h3 hj _ hdvd => ?_⟩)
  rcases (Nat.dvd_prime hp).1 hdvd with rfl | rfl
  · omega
  · exact absurd (divisorLimit_le h3) (not_le.2 hj)

theorem isPrime_one : isPrime 1 = true :=
  (isPrime_iff 1).2 (.inr ⟨rfl, fun j h3 _ _ hdvd => by have := Nat.le_of_dvd one_pos hdvd; omega⟩)

/-- Settles O46: a number that is neither 1 nor prime is even or has an odd divisor up to its square root. -/
theorem trialDivisionAcceptsOneAndThePrimes : Obligations.TrialDivisionAcceptsOneAndThePrimes := by
  intro n h1 h2
  constructor
  · intro h
    by_contra! hcomp
    obtain ⟨hne, hnp⟩ := hcomp
    rcases (isPrime_iff n).1 h with rfl | ⟨hodd, htried⟩
    · exact hnp Nat.prime_two
    · have hdvd := Nat.minFac_dvd n
      have hge := (Nat.minFac_prime hne).two_le
      have hfodd : n.minFac % 2 = 1 := by
        by_contra heven
        have := (Nat.dvd_of_mod_eq_zero (show n.minFac % 2 = 0 by omega)).trans hdvd
        omega
      exact htried _ (by omega) (lt_divisorLimit h1 h2 (Nat.minFac_sq_le_self h1 hnp)) hfodd hdvd
  · rintro (rfl | hp)
    · exact isPrime_one
    · exact isPrime_of_prime hp

/-! ### The search -/

/-- The search goes up in steps of 2. -/
theorem nextPrime_ge_and_mod_two : ∀ fuel n : Nat, n ≤ nextPrime fuel n ∧ nextPrime fuel n % 2 = n % 2
  | 0, _ => ⟨le_rfl, rfl⟩
  | fuel + 1, n => by
    have ih := nextPrime_ge_and_mod_two fuel (n + 2)
    unfold nextPrime
    split_ifs
    · exact ⟨le_rfl, rfl⟩
    · omega

/-- The search passes over no number that passes the test. -/
theorem nextPrime_le : ∀ {fuel n m : Nat}, n ≤ m → m % 2 = n % 2 → isPrime m = true → nextPrime fuel n ≤ m
  | 0, _, _, hnm, _, _ => hnm
  | fuel + 1, n, m, hnm, hpar, hm => by
    unfold nextPrime
    split_ifs with hn
    · exact hnm
    · have hne : n ≠ m := by
        rintro rfl
        exact hn hm
      exact nextPrime_le (by omega) (by omega) hm

/-- The search finds a number that passes the test, where its fuel reaches one. -/
theorem isPrime_nextPrime : ∀ {fuel n m : Nat}, n ≤ m → m ≤ n + 2 * fuel → m % 2 = n % 2 → isPrime m = true →
    isPrime (nextPrime fuel n) = true
  | 0, n, m, hnm, hmn, _, hm => by
    obtain rfl : m = n := by omega
    exact hm
  | fuel + 1, n, m, hnm, hmn, hpar, hm => by
    unfold nextPrime
    split_ifs with hn
    · exact hn
    · have hne : n ≠ m := by
        rintro rfl
        exact hn hm
      exact isPrime_nextPrime (by omega) (by omega) (by omega) hm

/-- From an odd number on, the fuel of `rescale` reaches a prime: there is one up to twice the number. -/
theorem exists_isPrime {n : Nat} (h : n % 2 = 1) : ∃ m, n ≤ m ∧ m ≤ n + 2 * n ∧ m % 2 = n % 2 ∧ isPrime m = true := by
  obtain ⟨p, hp, hlt, hle⟩ := Nat.exists_prime_lt_and_le_two_mul n (by omega)
  rcases hp.eq_two_or_odd with rfl | hodd
  · obtain rfl : n = 1 := by omega
    exact ⟨1, le_rfl, by omega, rfl, isPrime_one⟩
  · exact ⟨p, hlt.le, by omega, by omega, isPrime_of_prime hp⟩

/-- A quotient depends on the NaN it is given only where it is that NaN. -/
theorem fdiv_eq_or_nan (n n' : NanBits) (a b : F64) :
    fdiv n a b = fdiv n' a b ∨ (fdiv n a b = .nan n ∧ fdiv n' a b = .nan n') :=
  match a, b with
  | .nan _, _ | .inf _, .nan _ | .fin _ _, .nan _ | .inf _, .inf _ => .inr ⟨rfl, rfl⟩
  | .inf _, .fin _ _ | .fin _ _, .inf _ => .inl rfl
  | .fin _ ma, .fin _ mb => by
    simp only [fdiv]
    split_ifs
    · exact .inr ⟨rfl, rfl⟩
    · exact .inl rfl
    · exact .inl rfl

/-- The value of a product does not depend on the NaN it is given. -/
theorem valueOf_fmul_eq (n n' : NanBits) (a b : F64) : valueOf (fmul n a b) = valueOf (fmul n' a b) :=
  match a, b with
  | .nan _, _ | .inf _, .nan _ | .fin _ _, .nan _ | .inf _, .inf _ | .fin _ _, .fin _ _ => rfl
  | .inf _, .fin _ m | .fin _ m, .inf _ => by
    simp only [fmul]
    split_ifs <;> rfl

/-- The value of the product that a length is made from depends on no NaN. -/
theorem valueOf_scaled (n₁ n₂ n₁' n₂' : NanBits) (a b c : F64) :
    valueOf (fmul n₁ (fdiv n₂ a b) c) = valueOf (fmul n₁' (fdiv n₂' a b) c) := by
  rcases fdiv_eq_or_nan n₂ n₂' a b with h | ⟨h, h'⟩
  · rw [h]
    exact valueOf_fmul_eq ..
  · rw [h, h']
    rfl

/-- The starting point of the search is the least odd number from the floor on. -/
theorem oddLength_eq {l n0 : Nat} {sr ref : F64} {n n' : NanBits}
    (h : n0 = ⌊valueOf (fmul n (fdiv n' sr ref) (i2f l))⌋.toNat) :
    oddLength sr ref l = if n0 % 2 = 0 then n0 + 1 else n0 := by
  rw [h, valueOf_scaled n n' ⟨false, ⟨0, by decide⟩⟩ ⟨false, ⟨0, by decide⟩⟩, ← ffloor_eq]
  rfl

theorem oddLength_odd (sr ref : F64) (l : Nat) : oddLength sr ref l % 2 = 1 := by
  unfold oddLength
  dsimp only
  split_ifs <;> omega

theorem oddLength_le_rescale (l : Nat) (sr ref : F64) : oddLength sr ref l ≤ rescale l sr ref :=
  (nextPrime_ge_and_mod_two _ _).1

/-- Settles O45: the search starts at the least odd number from the floor on, and a prime stops it in time. -/
theorem rescaledLengthsAreOddAndPassTheTest : Obligations.RescaledLengthsAreOddAndPassTheTest := by
  intro l n0 sr ref n n' hn0
  have hstart := oddLength_eq hn0
  have hodd := oddLength_odd sr ref l
  obtain ⟨m, hle, hfuel, hpar, hm⟩ := exists_isPrime hodd
  obtain ⟨hge, hpar'⟩ := nextPrime_ge_and_mod_two (oddLength sr ref l) (oddLength sr ref l)
  refine ⟨hpar'.trans hodd, isPrime_nextPrime hle hfuel hpar hm, le_trans ?_ hge, fun k hk hkodd hkp =>
    nextPrime_le ?_ (hkodd.trans hodd.symm) hkp⟩
  · rw [hstart]
    split_ifs <;> omega
  · rw [hstart]
    split_ifs <;> omega

end Sys2Proof.Machine
end

section
/-! Where the commands of a reverberator complete (43_reverberator.md R221 to R235). -/

namespace Sys2Proof.Machine

section Completes
variable {s : State} {u : DspUnit} {S S' : RevState}

/-- A command of the reverberator that completes. -/
theorem runCommand_rev_done {c : Command RevState} {o : Results} {w : Warnings} (hs : s.Addresses u)
    (hu : u.body = .rev S) (hr : c.config = true ∨ S.cfg = true) (ha : c.applies S = true)
    (hb : c.body (freeNans s.draws) u.regs.operands S = .done S' o w) :
    runCommand revFamily c s = .next (s.afterCommand (u.commit (.rev S') o w)) :=
  runCommand_done hs (by rw [hu]; rfl) hr ha hb

/-- A command of the reverberator that completes without results and without warnings. -/
theorem runCommand_rev_quiet {c : Command RevState} (hs : s.Addresses u) (hu : u.body = .rev S)
    (hr : c.config = true ∨ S.cfg = true) (ha : c.applies S = true)
    (hb : c.body (freeNans s.draws) u.regs.operands S = .done S' {} noWarning) :
    runCommand revFamily c s = .next (s.afterCommand { u with body := .rev S' }) := by
  rw [runCommand_rev_done hs hu hr ha hb, DspUnit.commit_quiet]

end Completes

/-! ### REV_CONFIG -/

/-- Lengths that fit are taken: their starting points need no more words than they do (R227, log 15). -/
theorem fittingLengths_of_le {t : RevTopology} {sr : F64} {n : Nat}
    (h : ramNeed ((nominal t).map (fun l => rescale l sr (refRate t))) ≤ n) :
    fittingLengths t sr n = some ((nominal t).map (fun l => rescale l sr (refRate t))) := by
  have hstart : ramNeed ((nominal t).map (oddLength sr (refRate t))) ≤
      ramNeed ((nominal t).map (fun l => rescale l sr (refRate t))) := by
    unfold ramNeed
    rw [List.map_map, List.map_map]
    exact List.sum_le_sum fun l _ => Nat.succ_le_succ (oddLength_le_rescale l sr (refRate t))
  unfold fittingLengths
  rw [if_neg (hstart.trans h).not_gt]
  exact if_neg h.not_gt

/-- Settles O44: the tables written out are the topology's, and `freshRev` is made of them. -/
theorem revConfigStartsFreshLines : Obligations.RevConfigStartsFreshLines := by
  intro v s u S ν t60 sr ref mix nom combs lens hs hu hν ht60 hsr hsrf hsrp ht60f ht60p htables hlens hfit
  have htables : (nom, ref, mix, combs) = (nominal v, refRate v, mixDefault v, combLines v) :=
    htables.trans (by cases v <;> rfl)
  simp only [Prod.mk.injEq] at htables
  obtain ⟨rfl, rfl, rfl, rfl⟩ := htables
  subst hν ht60 hsr hlens
  rw [exec_revConfigOf]
  refine runCommand_rev_quiet hs hu (.inl rfl) rfl ?_
  have hpos := positiveFinite_iff.2 ⟨hsrf, hsrp⟩
  have hpos' := positiveFinite_iff.2 ⟨ht60f, ht60p⟩
  simp only [revConfig, revConfigBody, Regs.operands, hpos, hpos', fittingLengths_of_le hfit, Bool.not_true,
    Bool.false_eq_true, if_false]
  rfl

/-! ### Commands of a READY reverberator -/

section Ready
variable {s : State} {u : DspUnit} {S : RevState} (hs : s.Addresses u) (hu : u.body = .rev S) (hc : S.cfg = true)
include hs hu hc

theorem exec_revClear : exec .revClear s = .next (s.afterCommand { u with body := .rev (clearRev S) }) :=
  runCommand_rev_quiet hs hu (.inr hc) rfl rfl

theorem exec_revSetMix_of_nan (h : isNaN (F64.ofBits u.regs.opa) = true) :
    exec .revSetMix s =
      .next (s.afterCommand { u with regs := { u.regs with err := true, errcode := .domainMixNan } }) :=
  runCommand_rejected hs (by rw [hu]; rfl) hc rfl (revSetMixBody_of_nan (freeNans s.draws) h) rfl

theorem exec_revSetMix_of_not_nan {m : F64} {w : Warnings} (h : isNaN (F64.ofBits u.regs.opa) = false)
    (hm : clampMix (F64.ofBits u.regs.opa) = (m, w)) :
    exec .revSetMix s = .next (s.afterCommand { u with
      body := .rev { S with mix := m }, regs := { u.regs with warn := u.regs.warn ||| w } }) := by
  rw [← DspUnit.commit_warns]
  refine runCommand_rev_done hs hu (.inr hc) rfl ?_
  simp [revSetMixBody, Regs.operands, h, hm]

/-- REV_TICK stores what `Tick_topology` computes and answers both sides and their half sum (R231). -/
theorem exec_revTick {ν : NanSource} {x : F64} {p : RevOut} (hν : ν = freeNans s.draws) (hx : x = F64.ofBits u.regs.opa)
    (h : tickRev ν S x = p) :
    exec .revTick s = .next (s.afterCommand { u with
      body := .rev { S with lines := p.lines, lp := p.lp, lastL := p.left, lastR := p.right }
      regs := { u.regs with
        res0 := (fmul (ν 281) (fadd (ν 280) p.left p.right) Config.half).toBits
        res1 := p.left.toBits
        res2 := p.right.toBits } }) := by
  subst hν hx h
  refine (runCommand_rev_done hs hu (.inr hc) rfl rfl).trans ?_
  simp [DspUnit.commit, Regs.writeResults, monoOut]

end Ready

/-- Settles O47: the written clamp is `clampMix`. -/
theorem setMixClamps : Obligations.SetMixClamps := by
  refine ⟨by decide, fun s u S m w hs hu hc hm => ?_⟩
  cases h : isNaN (F64.ofBits u.regs.opa) with
  | true => exact exec_revSetMix_of_nan hs hu hc h
  | false => exact exec_revSetMix_of_not_nan hs hu hc h hm.symm

/-- Settles O53: each line is cleared. -/
theorem revClearZeroesTheLines : Obligations.RevClearZeroesTheLines := by
  refine ⟨by decide, fun s u S hs hu hc => ⟨S.lines.map Line.clear, List.length_map _, ?_, exec_revClear hs hu hc⟩⟩
  intro k l l' hl hl'
  rw [List.getElem?_map, hl] at hl'
  cases hl'
  refine ⟨rfl, rfl, rfl, rfl, rfl, fun i => ?_⟩
  simp only [Line.clear_buf, Ram.read_zeroBelow, ← not_lt, ite_not]

/-! ### The networks -/

theorem Staged.eq_of_prod {a : Staged} {v : F64} {ls : List Line} (h : (v, ls) = (a.val, a.lines)) : a = ⟨v, ls⟩ := by
  obtain ⟨rfl, rfl⟩ := Prod.mk.inj h
  rfl

theorem allpassChain_cons {ν : NanSource} {k : Nat} {ks : List Nat} {x v : F64} {ls ls' : List Line}
    (h : allpassStage ν k x ls = ⟨v, ls'⟩) : allpassChain ν (k :: ks) x ls = allpassChain ν ks (flush v) ls' := by
  unfold allpassChain
  rw [List.foldl_cons]
  simp only [h]

theorem allpassChain_nil (ν : NanSource) (x : F64) (ls : List Line) : allpassChain ν [] x ls = ⟨x, ls⟩ := rfl

/-- Settles O48: the written network is `tickA`. -/
theorem revTickTopologyA : Obligations.RevTickTopologyA := by
  intro s u S ν x ap put last v4 v5 v6 c0 c1 c2 c3 sum l r l4 l5 l6 lc lo hs hu hc ht hν hx hlast hput hap h4 h5 h6
    hc0 hc1 hc2 hc3 hlc hsum hlo hl hr
  subst hlast hput hap
  have h4 : allpassStage ν 4 x S.lines = ⟨v4, l4⟩ := Staged.eq_of_prod h4
  have h5 : allpassStage ν 5 (flush v4) l4 = ⟨v5, l5⟩ := Staged.eq_of_prod h5
  have h6 : allpassStage ν 6 (flush v5) l5 = ⟨v6, l6⟩ := Staged.eq_of_prod h6
  subst hc0 hc1 hc2 hc3 hlc hsum hlo hl hr
  refine exec_revTick hs hu hc hν hx (p := ⟨_, _, _, S.lp⟩) ?_
  rw [tickRev, ht, tickA, allpassChain_cons h4, allpassChain_cons h5, allpassChain_cons h6, allpassChain_nil]
  rfl

/-- Settles O49: the written network is `tickB`. -/
theorem revTickTopologyB : Obligations.RevTickTopologyB := by
  intro s u S ν x ap comb put last s0 s1 s2 s3 s4 s5 v6 v7 v8 lp v9 v10 v11 l r l0 l1 l2 l3 l4 l5 l6 l7 l8 l9 l10 l11
    hs hu hc ht hν hx hlast hput hap hcomb h0 h1 h2 h3 h4 h5 h6 h7 h8 hlp h9 h10 h11 hl hr
  subst hlast hput hap hcomb
  have h0 : combB ν S x ⟨F64.zero, S.lines⟩ 0 = ⟨s0, l0⟩ := Staged.eq_of_prod h0
  have h1 : combB ν S x ⟨s0, l0⟩ 1 = ⟨s1, l1⟩ := Staged.eq_of_prod h1
  have h2 : combB ν S x ⟨s1, l1⟩ 2 = ⟨s2, l2⟩ := Staged.eq_of_prod h2
  have h3 : combB ν S x ⟨s2, l2⟩ 3 = ⟨s3, l3⟩ := Staged.eq_of_prod h3
  have h4 : combB ν S x ⟨s3, l3⟩ 4 = ⟨s4, l4⟩ := Staged.eq_of_prod h4
  have h5 : combB ν S x ⟨s4, l4⟩ 5 = ⟨s5, l5⟩ := Staged.eq_of_prod h5
  have h6 : allpassStage ν 6 s5 l5 = ⟨v6, l6⟩ := Staged.eq_of_prod h6
  have h7 : allpassStage ν 7 (flush v6) l6 = ⟨v7, l7⟩ := Staged.eq_of_prod h7
  have h8 : allpassStage ν 8 (flush v7) l7 = ⟨v8, l8⟩ := Staged.eq_of_prod h8
  have h9 : allpassStage ν 9 lp l8 = ⟨v9, l9⟩ := Staged.eq_of_prod h9
  have h10 : allpassStage ν 10 (flush v9) l9 = ⟨v10, l10⟩ := Staged.eq_of_prod h10
  have h11 : allpassStage ν 11 (flush v9) l10 = ⟨v11, l11⟩ := Staged.eq_of_prod h11
  subst hl hr
  refine exec_revTick hs hu hc hν hx (p := ⟨_, _, l11, lp⟩) ?_
  simp only [tickRev, ht, tickB, List.foldl_cons, List.foldl_nil, h0, h1, h2, h3, h4, h5, allpassChain_cons h6,
    allpassChain_cons h7, allpassChain_cons h8, allpassChain_nil, ← hlp, allpassChain_cons h9, h10, h11]
  rfl

/-- Settles O50: the written network is `tickC`. -/
theorem revTickTopologyC : Obligations.RevTickTopologyC := by
  intro s u S ν x ap put last v0 v1 c0 c1 l r l0 l1 lo hs hu hc ht hν hx hlast hput hap h0 h1 hc0 hc1 hlo hl hr
  subst hlast hput hap
  have h0 : allpassStage ν 0 x S.lines = ⟨v0, l0⟩ := Staged.eq_of_prod h0
  have h1 : allpassStage ν 1 (flush v0) l0 = ⟨v1, l1⟩ := Staged.eq_of_prod h1
  subst hc0 hc1 hlo hl hr
  refine exec_revTick hs hu hc hν hx (p := ⟨_, _, _, S.lp⟩) ?_
  rw [tickRev, ht, tickC, allpassChain_cons h0, allpassChain_cons h1, allpassChain_nil]
  rfl

end Sys2Proof.Machine
end

section
/-! The ends of the mix (43_reverberator.md R231, R237): a weight 1.0 keeps a number, a weight `+0.0` leaves a signed zero. -/

namespace Sys2Proof.Machine

/-- A finite value is determined by its value and its sign bit. -/
theorem eq_of_valueOf_of_signBit {a b : F64} (ha : isFinite a = true) (hb : isFinite b = true)
    (hval : valueOf a = valueOf b) (hsign : a.signBit = b.signBit) : a = b := by
  obtain ⟨s, m, rfl⟩ := eq_fin_of_isFinite ha
  obtain ⟨t, k, rfl⟩ := eq_fin_of_isFinite hb
  obtain rfl : s = t := hsign
  rw [valueOf_eq_codeValue, valueOf_eq_codeValue] at hval
  have hcode : codeValue m.val = codeValue k.val := by cases s <;> simpa using hval
  rw [Fin.ext (codeValue_strictMono.injective hcode)]

/-- A finite value is below the overflow. -/
theorem abs_valueOf_lt_overflow {a : F64} (h : isFinite a = true) : |valueOf a| < 2 ^ 1024 - 2 ^ 970 := by
  obtain ⟨s, m, rfl⟩ := eq_fin_of_isFinite h
  have hle := codeValue_mono (Nat.le_sub_one_of_lt m.isLt)
  have hH : (0 : ℚ) < 2 ^ 970 := by positivity
  rw [codeValue_largest] at hle
  rw [valueOf_eq_codeValue, abs_signed, abs_of_nonneg (codeValue_nonneg _),
    show (2 : ℚ) ^ 1024 = 2 ^ 54 * 2 ^ 970 from pow_add 2 54 970]
  generalize (2 : ℚ) ^ 970 = H at *
  linarith

/-- An exact result that is a finite value of the right sign is the answer, bit for bit. -/
theorem RoundedTo.eq {z y : F64} {x : ℚ} {zeroSign : Bool} (h : RoundedTo z x zeroSign) (hy : isFinite y = true)
    (hyx : valueOf y = x) (hsign : y.signBit = if x = 0 then zeroSign else decide (x < 0)) : z = y := by
  obtain ⟨hfin, hval⟩ := h.exact (hyx ▸ abs_valueOf_lt_overflow hy) hy hyx
  exact eq_of_valueOf_of_signBit hfin hy (hval.trans hyx.symm) (h.1.trans hsign.symm)

/-- The sign bit of a finite value other than the zeros is the sign of its value. -/
theorem signBit_eq_of_ne_zero {a : F64} (h : isFinite a = true) (h0 : valueOf a ≠ 0) :
    a.signBit = decide (valueOf a < 0) := by
  obtain ⟨s, m, rfl⟩ := eq_fin_of_isFinite h
  rw [valueOf_eq_codeValue] at h0 ⊢
  have hpos : 0 < codeValue m.val := lt_of_le_of_ne (codeValue_nonneg _) fun he => h0 (by rw [← he, signed_zero])
  rw [Bool.decide_congr (signed_neg_iff hpos), Bool.decide_eq_true]
  rfl

theorem valueOf_config_one : valueOf Config.one = 1 := by
  rw [show Config.one = .fin false ⟨0x3FF0000000000000, by decide⟩ by decide, valueOf_one]

/-! ### The weights -/

/-- The weight 1.0 keeps every number. -/
theorem fmul_one (n : NanBits) {x : F64} (h : isNaN x = false) : fmul n Config.one x = x := by
  cases x with
  | nan b => cases h
  | inf s => cases s <;> rfl
  | fin s m =>
    have hx : isFinite (.fin s m) = true := rfl
    refine (fmul_roundedTo n (show isFinite Config.one = true from rfl) hx).eq hx
      (by rw [valueOf_config_one, one_mul]) ?_
    rw [valueOf_config_one, one_mul]
    split_ifs with h0
    · exact (Bool.false_xor _).symm
    · exact signBit_eq_of_ne_zero hx h0

/-- The zero with sign bit `s`. -/
def signedZero (s : Bool) : F64 := .fin s ⟨0, by decide⟩

theorem valueOf_signedZero (s : Bool) : valueOf (signedZero s) = 0 := by
  rw [signedZero, valueOf_eq_codeValue, codeValue_zero, signed_zero]

theorem eq_signedZero {a : F64} (h : isFinite a = true) (h0 : valueOf a = 0) : a = signedZero a.signBit :=
  eq_of_valueOf_of_signBit h rfl (h0.trans (valueOf_signedZero _).symm) rfl

/-- The weight `+0.0` leaves a zero with the sign of a finite value. -/
theorem fmul_zero_of_finite (n : NanBits) {x : F64} (h : isFinite x = true) :
    fmul n F64.zero x = signedZero x.signBit := by
  refine (fmul_roundedTo n (show isFinite F64.zero = true from rfl) h).eq rfl ?_ ?_
  · rw [valueOf_signedZero, valueOf_zero, zero_mul]
  · rw [valueOf_zero, zero_mul, if_pos rfl]
    exact (Bool.false_xor _).symm

/-- The weight `+0.0` does not cancel an infinity or a NaN. -/
theorem fmul_zero_of_not_finite (n : NanBits) {x : F64} (h : isFinite x = false) : fmul n F64.zero x = .nan n := by
  cases x with
  | nan b | inf s => rfl
  | fin s m => cases h

theorem fsub_one_zero (n : NanBits) : fsub n Config.one F64.zero = Config.one := by
  refine (fsub_roundedTo n (show isFinite Config.one = true from rfl) (show isFinite F64.zero = true from rfl)).eq rfl
    ?_ ?_ <;> rw [valueOf_config_one, valueOf_zero, sub_zero]
  rw [if_neg one_ne_zero, decide_eq_false (by norm_num)]
  rfl

theorem fsub_one_one (n : NanBits) : fsub n Config.one Config.one = F64.zero := rfl

/-! ### The sum -/

theorem addFinite_comm (sa : Bool) (ma : Fin infCode) (sb : Bool) (mb : Fin infCode) :
    addFinite sa ma sb mb = addFinite sb mb sa ma := by
  unfold addFinite
  dsimp only
  rw [min_comm, add_comm, Bool.and_comm]

theorem fadd_comm (n : NanBits) (a b : F64) : fadd n a b = fadd n b a :=
  match a, b with
  | .nan _, .nan _ | .nan _, .inf _ | .nan _, .fin _ _ | .inf _, .nan _ | .fin _ _, .nan _ | .inf _, .fin _ _
  | .fin _ _, .inf _ => rfl
  | .inf sa, .inf sb => by cases sa <;> cases sb <;> rfl
  | .fin sa ma, .fin sb mb => addFinite_comm sa ma sb mb

/-- A zero beside a number changes it only where it turns `-0.0` to `+0.0`. -/
theorem fadd_signedZero (n : NanBits) (s : Bool) {x : F64} (h : isNaN x = false) :
    fadd n (signedZero s) x = if x = F64.negZero ∧ s = false then F64.zero else x := by
  cases x with
  | nan b => cases h
  | inf t => rfl
  | fin t m =>
    have hx : isFinite (.fin t m) = true := rfl
    split_ifs with hneg
    · obtain ⟨hneg, rfl⟩ := hneg
      rw [hneg]
      rfl
    · have hround := fadd_roundedTo n (show isFinite (signedZero s) = true from rfl) hx
      rw [valueOf_signedZero, zero_add] at hround
      refine hround.eq hx rfl ?_
      split_ifs with h0
      · cases t with
        | false => exact (Bool.and_false s).symm
        | true =>
          cases s with
          | false => exact absurd ⟨eq_signedZero hx h0, rfl⟩ hneg
          | true => rfl
      · exact signBit_eq_of_ne_zero hx h0

theorem fadd_nan_left (n b : NanBits) (x : F64) : isNaN (fadd n (.nan b) x) = true := rfl

/-! ### The mix -/

theorem mixOut_zero (ν : NanSource) (b : Nat) (wet x : F64) :
    mixOut ν b F64.zero wet x =
      fadd (ν (b + 3)) (fmul (ν b) F64.zero wet) (fmul (ν (b + 2)) Config.one x) := by
  rw [mixOut, fsub_one_zero]

theorem mixOut_one (ν : NanSource) (b : Nat) (wet x : F64) :
    mixOut ν b Config.one wet x =
      fadd (ν (b + 3)) (fmul (ν (b + 2)) F64.zero x) (fmul (ν b) Config.one wet) := by
  rw [mixOut, fsub_one_one, fadd_comm]

/-- Settles O52: at either end one side has the weight 1.0 and the other the weight `+0.0`. -/
theorem mixBoundaryLaw : Obligations.MixBoundaryLaw := by
  refine fun ν b wet x => ⟨fun hwet hx => ?_, fun hx hwet => ?_, fun hwet => ?_, fun hx => ?_⟩
  · rw [mixOut_zero, fmul_one _ hx, fmul_zero_of_finite _ hwet, fadd_signedZero _ _ hx]
  · rw [mixOut_one, fmul_one _ hwet, fmul_zero_of_finite _ hx, fadd_signedZero _ _ hwet]
  · rw [mixOut_zero, fmul_zero_of_not_finite _ hwet, fadd_nan_left]
  · rw [mixOut_one, fmul_zero_of_not_finite _ hx, fadd_nan_left]

end Sys2Proof.Machine
end

section
/-! ERR and ERRCODE over a step (10_state.md R27; 60_exceptions.md R261, R263, R268): they are set together by an error,
whose code is never NONE, and cleared together by a write to STATUS or a reset. -/

namespace Sys2Proof.Machine

/-! ### The registers -/

section Registers
variable {r : Regs}

theorem Regs.reset_statusInv : Regs.reset.StatusInv := ⟨fun _ => rfl, fun _ => rfl⟩

theorem Regs.recordError_statusInv (r : Regs) {c : ErrCode} (hc : c ≠ .noError) : (r.recordError c).StatusInv := by
  simp [Regs.StatusInv, hc]

/-- Both are cleared, or neither changes. -/
theorem Regs.StatusInv.writeStatus (h : r.StatusInv) (v : Word) : (r.writeStatus v).StatusInv := by
  rw [Regs.writeStatus_eq]
  cases hclear : v.getLsbD 16 with
  | false => simpa [Regs.StatusInv] using h
  | true => simp [Regs.StatusInv]

end Registers

/-! ### The units -/

section Units
variable {u : DspUnit}

theorem DspUnit.raise_statusInv (u : DspUnit) {c : ErrCode} (hc : c ≠ .noError) : (u.raise c).regs.StatusInv := by
  rw [DspUnit.raise_regs]
  exact u.regs.recordError_statusInv hc

theorem DspUnit.writeReg_statusInv (h : u.regs.StatusInv) (off : Nat) (v : Word) :
    (u.writeReg off v).regs.StatusInv := by
  by_cases hoff : off = 0x038
  · subst hoff
    rw [DspUnit.writeReg_status]
    exact h.writeStatus v
  · rw [DspUnit.writeReg_eq, if_neg hoff]
    split_ifs <;> exact h

theorem RaisesOrCommits.statusInv {i : Instr} {u' : DspUnit} (hi : RaisesOrCommits i u u') (h : u.regs.StatusInv) :
    u'.regs.StatusInv := by
  rcases hi with ⟨e, ⟨hne, -⟩, rfl⟩ | ⟨b, o, w, rfl⟩
  · exact u.raise_statusInv hne
  · exact h

end Units

/-! ### Steps -/

theorem decode_error_ne_noError {t : UnitType} {w : Word} {c : ErrCode} (h : decode t w = .error c) : c ≠ .noError := by
  unfold decode at h
  split at h
  case h_1 =>
    cases h
    decide
  case h_2 o _ =>
    split at h
    case isTrue =>
      rw [eq_subError_of_selectSub h]
      cases o <;> decide
    case isFalse =>
      cases h
      decide

theorem statusInv_keptByBus : KeptByBus (fun u => u.regs.StatusInv) where
  reset _ _ := Regs.reset_statusInv
  writeReg _ off v h := DspUnit.writeReg_statusInv h off v
  refuse u _ _ hd _ := u.raise_statusInv (decode_error_ne_noError hd)

/-- The addressed unit raises one of the command's errors or completes, and the others are untouched. -/
theorem exec_statusInv {i : Instr} {s t : State} (hs : s.StatusInv) (h : exec i s = .next t) : t.StatusInv := by
  obtain ⟨hothers, hlen, hsel, -⟩ := otherUnitsAreUntouched i s t h
  intro u' hu'
  obtain ⟨k, hk⟩ := List.mem_iff_getElem?.1 hu'
  by_cases hks : k = s.sel
  · subst hks
    have hlt : s.sel < s.units.length := hlen ▸ (List.getElem?_eq_some_iff.1 hk).1
    have hu : s.units[s.sel]? = some s.units[s.sel] := List.getElem?_eq_getElem hlt
    have haddr : t.Addresses u' := by rwa [State.Addresses, hsel]
    have hinv := hs _ (List.getElem_mem hlt)
    rcases exec_addressed hu h haddr with rfl | hi
    · exact hinv
    · exact hi.statusInv hinv
  · exact hs u' (List.mem_of_getElem? ((hothers k hks).symm.trans hk))

/-- Settles O54: the bus and each command keep the agreement in every unit. -/
theorem stepKeepsStatusAgreement : Obligations.StepKeepsStatusAgreement := fun _ _ hs h =>
  step_forall_units statusInv_keptByBus hs (fun _ _ _ hunits hexec => exec_statusInv hunits hexec) h

end Sys2Proof.Machine
end
